-- ==== Sys2Proof/Word.lean ====
section
/-! DEFINITION. The byte, and sparse storage as plain data: a list of (address, value) pairs. -/

namespace Sys2Proof

/-- One byte; bit 0 is the least significant (00_scope.md R10). -/
abbrev Byte := BitVec 8

/-- Sparse storage: pairs of an address and what stands there. `Cells 8` is `List Host.Cell`; its canonical form is
`cellsWf` (Machine/Memory.lean). -/
abbrev Cells (w : Nat) := List (Nat × BitVec w)

end Sys2Proof
end

