-- ==== Sys2Proof/Machine/Memory.lean ====
section
/-! DEFINITION. Reading and writing sparse storage in canonical form: the byte spaces and the hash table. -/

namespace Sys2Proof.Machine

/-- What an unlisted address reads as: zero. For `HT` it is the zero fill of 10_state.md R31; for a byte that nothing
has written it is a DESIGN CHOICE, log entry 5. -/
def unlisted (w : Nat) : BitVec w := 0#w

/-- The value at an address. -/
def cellGet {w : Nat} : Cells w → Nat → BitVec w
  | [], _ => unlisted w
  | c :: m, a => if c.1 = a then c.2 else cellGet m a

/-- The storage without an entry for the address. -/
def cellErase {w : Nat} (m : Cells w) (a : Nat) : Cells w := m.filter fun c => c.1 ≠ a

/-- The storage with one more entry, put in address order. -/
def cellInsert {w : Nat} (a : Nat) (v : BitVec w) : Cells w → Cells w
  | [] => [(a, v)]
  | c :: m => if a < c.1 then (a, v) :: c :: m else c :: cellInsert a v m

/-- The storage after a write; writing what an unlisted address reads as removes the entry. -/
def cellSet {w : Nat} (m : Cells w) (a : Nat) (v : BitVec w) : Cells w :=
  if v = unlisted w then cellErase m a else cellInsert a v (cellErase m a)

/-- The `n` values from an address upwards, in ascending order (20_memory.md R58). -/
def cellRange {w : Nat} (m : Cells w) : Nat → Nat → List (BitVec w)
  | _, 0 => []
  | a, n + 1 => cellGet m a :: cellRange m (a + 1) n

/-- The storage after writing consecutive values from an address upwards. -/
def cellSetRange {w : Nat} (m : Cells w) : Nat → List (BitVec w) → Cells w
  | _, [] => m
  | a, v :: vs => cellSetRange (cellSet m a v) (a + 1) vs

/-- The entries at and above an address: what stays when the ones below are zeroed. -/
def cellsFrom {w : Nat} (m : Cells w) (a : Nat) : Cells w := m.filter fun c => a ≤ c.1

/-- The canonical form of storage with addresses below `limit`: addresses strictly rising, every address below the
limit, no entry equal to what an unlisted address reads as. -/
def cellsWf {w : Nat} (limit : Nat) (m : Cells w) : Bool :=
  decide (m.Pairwise fun c d => c.1 < d.1) && m.all fun c => decide (c.1 < limit) && decide (c.2 ≠ unlisted w)

end Sys2Proof.Machine
end

