-- ==== Sys2Proof/Config.lean ====
section
/-! DEFINITION. The constants of the block (00_scope.md R8) and the parameters the spec leaves open. -/

namespace Sys2Proof.Config

/-- The least `POS_W` (00_scope.md R8). -/
abbrev posWMin : Nat := 33

/-- The default of `POS_W` (00_scope.md R8). -/
abbrev posWDefault : Nat := 64

/-- `U32_LIMIT` (00_scope.md R8): every length value lies below it. -/
abbrev u32Limit : Nat := 2 ^ 32

/-- `VARINT_MAX_BYTES` (00_scope.md R8). -/
abbrev varintMaxBytes : Nat := 5

/-- `VARINT_LAST_MAX` (00_scope.md R8): the largest legal fifth varint byte. -/
abbrev varintLastMax : Nat := 0x0F

/-- `LIT_INLINE_MAX` (00_scope.md R8): the longest literal whose length fits the tag byte. -/
abbrev litInlineMax : Nat := 60

/-- `COPY1_OFF_LIMIT` (00_scope.md R8). -/
abbrev copy1OffLimit : Nat := 2048

/-- `COPY2_OFF_LIMIT` (00_scope.md R8). -/
abbrev copy2OffLimit : Nat := 65536

/-- `MIN_MATCH` (00_scope.md R8). -/
abbrev minMatch : Nat := 4

/-- `HEAD_GUARD` (00_scope.md R8): the first positions of a fragment that are never probed. -/
abbrev headGuard : Nat := 4

/-- `TAIL_GUARD` (00_scope.md R8): the last positions of a fragment that are never probed. -/
abbrev tailGuard : Nat := 4

/-- `ENC_FRAGMENT` (00_scope.md R8): the fragment size of `COMPRESS`. -/
abbrev encFragment : Nat := 32768

/-- `MATCHER_MAX_FRAGMENT` (00_scope.md R8): the longest fragment of `MATCH_FRAG`. -/
abbrev matcherMaxFragment : Nat := 65536

/-- log2 of `HT_MIN` (00_scope.md R8): 256 entries. -/
abbrev htMinBits : Nat := 8

/-- log2 of `HT_MAX` (00_scope.md R8): 16384 entries. -/
abbrev htMaxBits : Nat := 14

/-- `SKIP_INIT` (00_scope.md R8; the spec's decision D13). -/
abbrev skipInit : Nat := 32

/-- `SKIP_SHIFT` (00_scope.md R8; the spec's decision D13). -/
abbrev skipShift : Nat := 5

/-- `SKIP_CAP` (00_scope.md R8; the spec's decision D13). -/
abbrev skipCap : Nat := 64

/-- `HASH_MUL`'s default (00_scope.md R8, 42_hash_matcher.md R162; general knowledge in the spec, D12). -/
abbrev hashMulDefault : BitVec 32 := 0x1E35A7BD#32

/-- The value of `MAX_OUTPUT_LEN` the spec's test vectors use (00_scope.md R8). -/
abbrev maxOutputLenOfVectors : BitVec 32 := 0x7FFFFFFF#32

end Sys2Proof.Config

namespace Sys2Proof

/-- One value of a hash function: `Hash(w, tbits) = h` (42_hash_matcher.md R162). -/
structure HashRow where
  w : BitVec 32
  tbits : Nat
  h : Nat
deriving DecidableEq, Repr

/-- `Hash`, the configuration function of 42_hash_matcher.md R162, as plain data: the spec's multiplicative form with
any multiplier, or any other function of `(w, tbits)`, written out value by value. -/
inductive HashFn where
  /-- The form of R162 with a multiplier, `HASH_MUL`. -/
  | multiplicative (mul : BitVec 32)
  /-- A function given by its values; a pair that has no row hashes to 0. -/
  | table (rows : List HashRow)
deriving DecidableEq, Repr

/-- The OPEN parameters of an instance (00_scope.md R8): constants, not registers (10_state.md R21). They stand in
State so that a statement holds for every value of them; no step changes them (log entry 7). -/
structure Params where
  /-- How many bits `POS_W` has above its least value 33. -/
  posSpare : Nat
  /-- `MAX_OUTPUT_LEN`, the capacity of `OUT` and the cap on the declared length. -/
  maxOutputLen : BitVec 32
  /-- `Hash`, with `HASH_MUL` in it where it has the spec's form. -/
  hash : HashFn
deriving DecidableEq, Repr

/-- `POS_W` of an instance, at least 33 (00_scope.md R8): the width of a frame position and of the host's argument and
result registers (10_state.md R22). As it belongs to the instance, what such a register holds is a number; `toPos` narrows
what is written to it and the invariant says that every value fits (log entry 6). -/
def Params.posW (p : Params) : Nat := Config.posWMin + p.posSpare

end Sys2Proof
end

