-- ==== Sys2Proof/Syntax.lean ====
section
/-! DEFINITION. The instructions: one constructor per row of spec/opcode_table.json, both levels of 00_scope.md R3. -/

namespace Sys2Proof

/-- Level W (what a frame is made of) and level C (what the host writes to `CMD_OP`). A literal's payload is no field:
it stays in `FRAME` after the header (30_encoding.md R84, R85). A command's operands stand in `CMD_A0..A2`
(30_encoding.md R100). -/
inductive Instr where
  /-- `VCONT`, format V with bit 7 = 1: seven value bits, another varint byte follows (40_varint.md R112). -/
  | vcont (g : BitVec 7)
  /-- `VLAST`, format V with bit 7 = 0: seven value bits, the last varint byte (40_varint.md R114). -/
  | vlast (g : BitVec 7)
  /-- `LIT`, format L0: a literal of `m + 1` bytes, `m ≤ 59` (30_encoding.md R84). -/
  | lit (m : BitVec 6)
  /-- `LIT1`, format L1: a literal of `m + 1` bytes (30_encoding.md R85). -/
  | lit1 (m : BitVec 8)
  /-- `LIT2`, format L2: a literal of `m + 1` bytes (30_encoding.md R85). -/
  | lit2 (m : BitVec 16)
  /-- `LIT3`, format L3: a literal of `m + 1` bytes (30_encoding.md R85). -/
  | lit3 (m : BitVec 24)
  /-- `LIT4`, format L4: a literal of `m + 1` bytes, up to 2^32 (30_encoding.md R85). -/
  | lit4 (m : BitVec 32)
  /-- `COPY1`, format C1: `l + 4` bytes from `offset` back (30_encoding.md R86). -/
  | copy1 (l : BitVec 3) (offset : BitVec 11)
  /-- `COPY2`, format C2: `l + 1` bytes from `offset` back (30_encoding.md R87). -/
  | copy2 (l : BitVec 6) (offset : BitVec 16)
  /-- `COPY4`, format C4: `l + 1` bytes from `offset` back (30_encoding.md R88). -/
  | copy4 (l : BitVec 6) (offset : BitVec 32)
  /-- `VARINT_ENC`, op code 1 (40_varint.md R117). -/
  | varintEnc
  /-- `VARINT_DEC`, op code 2 (40_varint.md R116). -/
  | varintDec
  /-- `EMIT_LIT`, op code 3 (41_tag_codec.md R132). -/
  | emitLit
  /-- `EMIT_COPY`, op code 4 (41_tag_codec.md R135). -/
  | emitCopy
  /-- `TAG_PARSE`, op code 5 (41_tag_codec.md R141). -/
  | tagParse
  /-- `FIND_MATCH_LEN`, op code 6 (42_hash_matcher.md R164). -/
  | findMatchLen
  /-- `MATCH_FRAG`, op code 7 (42_hash_matcher.md R170). -/
  | matchFrag
  /-- `COMPRESS`, op code 8 (43_lz_encoder.md R192). -/
  | compress
  /-- `MAX_CLEN`, op code 9 (43_lz_encoder.md R193). -/
  | maxClen
  /-- `UNCOMPRESS`, op code 10 (44_lz_decoder.md R224). -/
  | uncompress
  /-- `GET_ULEN`, op code 11 (44_lz_decoder.md R225). -/
  | getUlen
  /-- `IS_VALID`, op code 12 (45_frame_validator.md R251). -/
  | isValid
  /-- `RESERVED_0`, op code 0 (60_exceptions.md R266). -/
  | reserved0
  /-- `RESERVED_13`, op code 13 (60_exceptions.md R266). -/
  | reserved13
  /-- `RESERVED_14`, op code 14 (60_exceptions.md R266). -/
  | reserved14
  /-- `RESERVED_15`, op code 15 (60_exceptions.md R266). -/
  | reserved15
deriving DecidableEq, Repr

/-- Where the bytes of an instruction are fetched: the three opcode spaces of 30_encoding.md R91, R92, R100. -/
inductive FetchContext where
  /-- The leading varint of a frame, or the range of a `VARINT_DEC` (30_encoding.md R82). -/
  | preamble
  /-- The tag stream of a frame (30_encoding.md R83). -/
  | tag
  /-- The command register `CMD_OP` (30_encoding.md R100). -/
  | command
deriving DecidableEq, Repr

end Sys2Proof
end

