-- ==== Sys2Proof/WellFormed.lean ====
section
/-! DEFINITION. Which terms of Instr are instructions: the one constraint the field widths do not already say. -/

namespace Sys2Proof

/-- The check, constructor by constructor: `LIT` carries `m ≤ 59`, since the upper-six-bit values 60 to 63 are `LIT1`
to `LIT4` (30_encoding.md R84, R91); every other field fills its width. -/
def wellFormed : Instr → Bool
  | .vcont _ => true
  | .vlast _ => true
  | .lit m => decide (m.toNat < Config.litInlineMax)
  | .lit1 _ => true
  | .lit2 _ => true
  | .lit3 _ => true
  | .lit4 _ => true
  | .copy1 _ _ => true
  | .copy2 _ _ => true
  | .copy4 _ _ => true
  | .varintEnc => true
  | .varintDec => true
  | .emitLit => true
  | .emitCopy => true
  | .tagParse => true
  | .findMatchLen => true
  | .matchFrag => true
  | .compress => true
  | .maxClen => true
  | .uncompress => true
  | .getUlen => true
  | .isValid => true
  | .reserved0 => true
  | .reserved13 => true
  | .reserved14 => true
  | .reserved15 => true

/-- A well-formed instruction. -/
abbrev WellFormed (i : Instr) : Prop := wellFormed i = true

end Sys2Proof
end

