-- ==== Sys2Proof/Decode.lean ====
section
/-! DEFINITION. Decoding, total on any bytes, and the encoder, both from the tables of 30_encoding.md. -/

namespace Sys2Proof

/-- `le(bytes)`: the number whose least significant byte comes first (00_scope.md R11, 20_memory.md R56). -/
def leNat : List Byte → Nat
  | [] => 0
  | b :: r => b.toNat + 256 * leNat r

/-- The low `k` bytes of `v`, least significant first (20_memory.md R56). -/
def leBytes : Nat → Nat → List Byte
  | 0, _ => []
  | k + 1, v => BitVec.ofNat 8 v :: leBytes k (v / 256)

/-- Why bytes are no instruction. Every byte of the preamble and of the tag stream is assigned (30_encoding.md R91,
R92), so what is left is bytes that are missing and a word wider than `CMD_OP`. -/
inductive DecodeError where
  /-- There is no byte to decode. -/
  | noByte
  /-- The header needs more bytes than there are (41_tag_codec.md R140). -/
  | headerTruncated
  /-- `CMD_OP` has 4 bits (10_state.md R22) and the word has more. -/
  | notAnOpCode
deriving DecidableEq, Repr

/-- `T[1:0]`, the kind code of a tag byte (30_encoding.md R83). -/
def tagKind (T : Byte) : BitVec 2 := T.extractLsb' 0 2

/-- `T[7:2]`, the upper six bits of a tag byte (30_encoding.md R84, R87, R88). -/
def tagUpper (T : Byte) : BitVec 6 := T.extractLsb' 2 6

/-- `hdr`, the number of header bytes, from the tag byte alone (30_encoding.md R89). -/
def headerLen (T : Byte) : Nat :=
  match (tagKind T).toNat with
  | 1 => 2
  | 2 => 3
  | 3 => 5
  | _ => if (tagUpper T).toNat ≤ 59 then 1 else 1 + ((tagUpper T).toNat - 59)

/-- A byte of the preamble (30_encoding.md R82): bit 7 is the continuation bit, bits 6:0 the value bits. -/
def decodePreamble (b : Byte) : Instr :=
  if b.getLsbD 7 then .vcont (b.extractLsb' 0 7) else .vlast (b.extractLsb' 0 7)

/-- `LIT1`: one length byte (30_encoding.md R85). -/
def decodeLit1 : List Byte → Except DecodeError (Instr × List Byte)
  | b0 :: r => .ok (.lit1 b0, r)
  | [] => .error .headerTruncated

/-- `LIT2`: two length bytes, little-endian (30_encoding.md R85). -/
def decodeLit2 : List Byte → Except DecodeError (Instr × List Byte)
  | b0 :: b1 :: r => .ok (.lit2 (BitVec.ofNat 16 (leNat [b0, b1])), r)
  | _ => .error .headerTruncated

/-- `LIT3`: three length bytes, little-endian (30_encoding.md R85). -/
def decodeLit3 : List Byte → Except DecodeError (Instr × List Byte)
  | b0 :: b1 :: b2 :: r => .ok (.lit3 (BitVec.ofNat 24 (leNat [b0, b1, b2])), r)
  | _ => .error .headerTruncated

/-- `LIT4`: four length bytes, little-endian (30_encoding.md R85). -/
def decodeLit4 : List Byte → Except DecodeError (Instr × List Byte)
  | b0 :: b1 :: b2 :: b3 :: r => .ok (.lit4 (BitVec.ofNat 32 (leNat [b0, b1, b2, b3])), r)
  | _ => .error .headerTruncated

/-- A literal tag, given the tag byte's upper six bits and the bytes after it (30_encoding.md R84, R85, R91): values up
to 59 are `LIT`, 60 to 63 are `LIT1` to `LIT4`. -/
def decodeLiteral (u : BitVec 6) (r : List Byte) : Except DecodeError (Instr × List Byte) :=
  if u.toNat ≤ 59 then .ok (.lit u, r)
  else if u.toNat = 60 then decodeLit1 r
  else if u.toNat = 61 then decodeLit2 r
  else if u.toNat = 62 then decodeLit3 r
  else decodeLit4 r

/-- A `COPY1` tag (30_encoding.md R86): tag bits 4:2 are `len - 4`, bits 7:5 are offset[10:8], the next byte is
offset[7:0]. The bit positions are the spec's general knowledge (92_eei_decisions.md D11), log entry 8. -/
def decodeCopy1 (T : Byte) : List Byte → Except DecodeError (Instr × List Byte)
  | b0 :: r => .ok (.copy1 (T.extractLsb' 2 3) (BitVec.ofNat 11 ((T.extractLsb' 5 3).toNat * 256 + b0.toNat)), r)
  | [] => .error .headerTruncated

/-- A `COPY2` tag (30_encoding.md R87): tag bits 7:2 are `len - 1`, then two offset bytes, little-endian. -/
def decodeCopy2 (T : Byte) : List Byte → Except DecodeError (Instr × List Byte)
  | b0 :: b1 :: r => .ok (.copy2 (tagUpper T) (BitVec.ofNat 16 (leNat [b0, b1])), r)
  | _ => .error .headerTruncated

/-- A `COPY4` tag (30_encoding.md R88): tag bits 7:2 are `len - 1`, then four offset bytes, little-endian. -/
def decodeCopy4 (T : Byte) : List Byte → Except DecodeError (Instr × List Byte)
  | b0 :: b1 :: b2 :: b3 :: r => .ok (.copy4 (tagUpper T) (BitVec.ofNat 32 (leNat [b0, b1, b2, b3])), r)
  | _ => .error .headerTruncated

/-- The opcode map of the tag byte (30_encoding.md R91): all 256 values are assigned. -/
def decodeTag : List Byte → Except DecodeError (Instr × List Byte)
  | [] => .error .noByte
  | T :: r =>
    match (tagKind T).toNat with
    | 1 => decodeCopy1 T r
    | 2 => decodeCopy2 T r
    | 3 => decodeCopy4 T r
    | _ => decodeLiteral (tagUpper T) r

/-- The operation codes of `CMD_OP` (30_encoding.md R100). -/
def decodeOp (op : BitVec 4) : Instr :=
  match op.toNat with
  | 0 => .reserved0
  | 1 => .varintEnc
  | 2 => .varintDec
  | 3 => .emitLit
  | 4 => .emitCopy
  | 5 => .tagParse
  | 6 => .findMatchLen
  | 7 => .matchFrag
  | 8 => .compress
  | 9 => .maxClen
  | 10 => .uncompress
  | 11 => .getUlen
  | 12 => .isValid
  | 13 => .reserved13
  | 14 => .reserved14
  | _ => .reserved15

/-- Decoding in each of the three contexts: the instruction and the bytes after it. In the command context the one
byte is the value written to `CMD_OP`, which has 4 bits. -/
def decode : FetchContext → List Byte → Except DecodeError (Instr × List Byte)
  | .preamble, [] => .error .noByte
  | .preamble, b :: r => .ok (decodePreamble b, r)
  | .tag, bs => decodeTag bs
  | .command, [] => .error .noByte
  | .command, b :: r => if b.toNat < 16 then .ok (decodeOp (BitVec.ofNat 4 b.toNat), r) else .error .notAnOpCode

/-- Where an instruction stands (30_encoding.md R91, R92, R100). -/
def contextOf : Instr → FetchContext
  | .vcont _ => .preamble
  | .vlast _ => .preamble
  | .lit _ => .tag
  | .lit1 _ => .tag
  | .lit2 _ => .tag
  | .lit3 _ => .tag
  | .lit4 _ => .tag
  | .copy1 _ _ => .tag
  | .copy2 _ _ => .tag
  | .copy4 _ _ => .tag
  | .varintEnc => .command
  | .varintDec => .command
  | .emitLit => .command
  | .emitCopy => .command
  | .tagParse => .command
  | .findMatchLen => .command
  | .matchFrag => .command
  | .compress => .command
  | .maxClen => .command
  | .uncompress => .command
  | .getUlen => .command
  | .isValid => .command
  | .reserved0 => .command
  | .reserved13 => .command
  | .reserved14 => .command
  | .reserved15 => .command

/-- The bytes of an instruction: its header for a tag (30_encoding.md R84 to R88), its byte for a varint byte (R82),
the value of `CMD_OP` for a command (R100). -/
def encode : Instr → List Byte
  | .vcont g => [BitVec.ofNat 8 (0x80 + g.toNat)]
  | .vlast g => [BitVec.ofNat 8 g.toNat]
  | .lit m => [BitVec.ofNat 8 (m.toNat * 4)]
  | .lit1 m => 0xF0#8 :: leBytes 1 m.toNat
  | .lit2 m => 0xF4#8 :: leBytes 2 m.toNat
  | .lit3 m => 0xF8#8 :: leBytes 3 m.toNat
  | .lit4 m => 0xFC#8 :: leBytes 4 m.toNat
  | .copy1 l offset => [BitVec.ofNat 8 (offset.toNat / 256 * 32 + l.toNat * 4 + 1), BitVec.ofNat 8 offset.toNat]
  | .copy2 l offset => BitVec.ofNat 8 (l.toNat * 4 + 2) :: leBytes 2 offset.toNat
  | .copy4 l offset => BitVec.ofNat 8 (l.toNat * 4 + 3) :: leBytes 4 offset.toNat
  | .varintEnc => [1#8]
  | .varintDec => [2#8]
  | .emitLit => [3#8]
  | .emitCopy => [4#8]
  | .tagParse => [5#8]
  | .findMatchLen => [6#8]
  | .matchFrag => [7#8]
  | .compress => [8#8]
  | .maxClen => [9#8]
  | .uncompress => [10#8]
  | .getUlen => [11#8]
  | .isValid => [12#8]
  | .reserved0 => [0#8]
  | .reserved13 => [13#8]
  | .reserved14 => [14#8]
  | .reserved15 => [15#8]

/-- The context in which a bare table word is read. The spec has three opcode spaces that share byte values and the
table's words carry no context, so this is the model's choice, log entry 14, and no part of the machine: a word below
16 is a value of `CMD_OP` (after reset the block waits for a command); of the other one-byte words with low bits 00,
those up to 80 hexadecimal are preamble bytes; everything else is a tag. -/
def tableContext (nbits w : Nat) : FetchContext :=
  if 8 < nbits then .tag
  else if w < 16 then .command
  else if w % 4 = 0 ∧ w ≤ 0x80 then .preamble
  else .tag

/-- The instruction the decoder reads from the table word `w` of `nbits` bits, the first byte in bits 7:0 and zeros
above: what 30_encoding.md's formats make of it in the context `tableContext` names. -/
def decodeTableWord (nbits w : Nat) : Option Instr :=
  if nbits = 0 ∨ 40 < nbits then none
  else
    match decode (tableContext nbits w) (leBytes 5 w) with
    | .ok (i, _) => some i
    | .error _ => none

end Sys2Proof
end

