-- ==== Sys2Proof/Machine/State.lean ====
section
/-! DEFINITION. The state of one CORE instance as plain data, the reasons a step can stop, and the state after reset. -/

namespace Sys2Proof.Machine

/-- The decoder state (10_state.md R30), codes 0 to 3 in this order. -/
inductive WalkState where
  | idle
  | expectingTag
  | done
  | error
deriving DecidableEq, Repr

/-- The causes of `MalformedInput` (60_exceptions.md R261), codes 0 to 11 in this order. -/
inductive Cause where
  | none
  | varintTruncated
  | varintTooLong
  | varintOverflow
  | lengthCap
  | tagTruncated
  | literalTruncated
  | literalOverflow
  | copyOffsetZero
  | copyOffsetTooFar
  | copyOverflow
  | lengthMismatch
deriving DecidableEq, Repr

/-- The two units that execute the tags of a frame (44_lz_decoder.md R210). -/
inductive WalkUnit where
  /-- `lz_decoder_pipeline`, registers `DP.*`. -/
  | dp
  /-- `frame_validator`, registers `FV.*`. -/
  | fv
deriving DecidableEq, Repr

/-- One output of the matcher (42_hash_matcher.md R165). -/
inductive Event where
  /-- `Lit(start, len)`: the bytes `frag[start .. start+len)` verbatim. -/
  | lit (start len : Nat)
  /-- `Copy(offset, len)`: `len` bytes equal to the bytes `offset` back. -/
  | copy (offset len : Nat)
deriving DecidableEq, Repr

/-- A move of the host, presented at its port (10_state.md R22, R23, R26; 70_reset_and_hazards.md R297). -/
inductive HostMove where
  /-- A write of `CMD_OP`, which starts a command. -/
  | writeOp (op : BitVec 4)
  /-- A write of `CMD_A0`. -/
  | writeA0 (v : Nat)
  /-- A write of `CMD_A1`. -/
  | writeA1 (v : Nat)
  /-- A write of `CMD_A2`. -/
  | writeA2 (v : Nat)
  /-- A byte the host puts into `IN`. -/
  | storeIn (a : BitVec 32) (b : Byte)
  /-- A byte the host puts into `FRAME`. -/
  | storeFrame (a : Nat) (b : Byte)
  /-- A byte the host puts into `OUT`. -/
  | storeOut (a : BitVec 32) (b : Byte)
deriving DecidableEq, Repr

/-- The host's command registers (10_state.md R22); the arguments have `POS_W` bits. -/
structure CmdRegs where
  op : BitVec 4
  a0 : Nat
  a1 : Nat
  a2 : Nat
deriving DecidableEq, Repr

/-- The host's response registers (10_state.md R22): `status` is bit 0 `busy`, bit 1 `done`, bit 2 `err`,
bit 3 `cmd_err`; the results have `POS_W` bits. -/
structure RspRegs where
  status : BitVec 4
  cause : BitVec 4
  r0 : Nat
  r1 : Nat
  r2 : Nat
  r3 : Nat
deriving DecidableEq, Repr

/-- `VE.*`, the registers of `varint_encoder` (10_state.md R27). -/
structure VarintEncRegs where
  v : BitVec 32
  n : BitVec 3
deriving DecidableEq, Repr

/-- `VD.*`, the registers of `varint_decoder` (10_state.md R27). -/
structure VarintDecRegs where
  val : BitVec 32
  i : BitVec 3
deriving DecidableEq, Repr

/-- `TE.*`, the registers of `tag_codec_encoder` (10_state.md R27). -/
structure TagEncRegs where
  off : BitVec 32
  rem : BitVec 32
deriving DecidableEq, Repr

/-- `TD.*`, the registers of `tag_codec_decoder` (10_state.md R27). -/
structure TagDecRegs where
  kind : BitVec 2
  len : BitVec 33
  off : BitVec 32
  hdr : BitVec 3
deriving DecidableEq, Repr

/-- `HM.*`, the registers of `hash_matcher` (10_state.md R27). -/
structure MatcherRegs where
  base : BitVec 32
  n : BitVec 17
  tbits : BitVec 4
  ip : BitVec 17
  nextEmit : BitVec 17
  skip : BitVec 32
deriving DecidableEq, Repr

/-- `EP.*`, the registers of `lz_encoder_pipeline` (10_state.md R27); `count` has `POS_W` bits. -/
structure EncoderRegs where
  inLen : BitVec 32
  fragBase : BitVec 32
  fragLen : BitVec 16
  count : Nat
deriving DecidableEq, Repr

/-- The six walk registers, `DP.*` or `FV.*` (10_state.md R27, R28, R30); `pc` and `end` have `POS_W` bits. -/
structure WalkRegs where
  state : WalkState
  pc : Nat
  endPos : Nat
  declared : BitVec 32
  produced : BitVec 32
  cause : BitVec 4
deriving DecidableEq, Repr

/-- One CORE instance with the host's side of its interface. -/
structure State where
  /-- The constants of the instance (00_scope.md R8, 10_state.md R21); no step changes them. -/
  params : Params
  /-- The reset input (70_reset_and_hazards.md R290). -/
  rst : Bool
  /-- The host's moves that are presented and not yet accepted, oldest first (10_state.md R26). -/
  port : List HostMove
  /-- `CMD_*`. -/
  cmd : CmdRegs
  /-- `RSP_*`. -/
  rsp : RspRegs
  /-- `VE.*`. -/
  ve : VarintEncRegs
  /-- `VD.*`. -/
  vd : VarintDecRegs
  /-- `TE.*`. -/
  te : TagEncRegs
  /-- `TD.*`. -/
  td : TagDecRegs
  /-- `HM.*`. -/
  hm : MatcherRegs
  /-- `EP.*`. -/
  ep : EncoderRegs
  /-- `DP.*`. -/
  dp : WalkRegs
  /-- `FV.*`. -/
  fv : WalkRegs
  /-- The space `IN` (20_memory.md R50). -/
  inMem : List Host.Cell
  /-- The space `FRAME` (20_memory.md R51). -/
  frame : List Host.Cell
  /-- The space `OUT` (20_memory.md R52). -/
  out : List Host.Cell
  /-- The stream `SINK` (20_memory.md R53): the bytes pushed so far, oldest first. -/
  sink : List Byte
  /-- The hash table `HT` (10_state.md R31). -/
  ht : Cells 16
deriving DecidableEq, Repr

/-- Why the machine stops. All of these are bounds the spec says no rule breaks; each is raised only by the operation
named, and stopping there is safe (log entry 10). -/
inductive Fault where
  /-- Raised by a read of `FRAME` at or past the end the command was given (20_memory.md R51). Safe. -/
  | frameReadPastEnd
  /-- Raised by a copy that reads a byte of `OUT` at or above the one it writes (44_lz_decoder.md R226). Safe. -/
  | outReadNotProduced
  /-- Raised by a write of `OUT` at or past the declared length or the capacity (20_memory.md R52). Safe. -/
  | outWritePastDeclared
  /-- Raised by the step in a state that is busy though no command is in progress; no run reaches one. Safe. -/
  | busyWithoutProgram
  /-- Raised when the host stores to an address outside the capacity of `OUT` (20_memory.md R52), which does not
  exist. Safe. -/
  | hostStoreOutsideOut
  /-- Raised when the host stores to an address of `FRAME` that does not fit in `POS_W` bits (20_memory.md R51), which
  does not exist. Safe. -/
  | hostStoreOutsideFrame
deriving DecidableEq, Repr

/-- Why an instruction has no meaning. -/
inductive Refusal where
  /-- Raised by `exec`'s arm of an instruction that is not modelled. Safe. No arm of this model raises it. -/
  | notModelled (mnemonic : String)
deriving DecidableEq, Repr

/-- The walk registers after reset (10_state.md R34). -/
def WalkRegs.zero : WalkRegs := ⟨.idle, 0, 0, 0, 0, 0⟩

/-- An instance after reset with the given constants (10_state.md R34, 70_reset_and_hazards.md R290). The values the
spec does not state (`CMD_*`, `HT`, the contents of the host's spaces) are the model's, log entry 4. -/
def State.resetOf (p : Params) : State where
  params := p
  rst := false
  port := []
  cmd := ⟨0, 0, 0, 0⟩
  rsp := ⟨0, 0, 0, 0, 0, 0⟩
  ve := ⟨0, 0⟩
  vd := ⟨0, 0⟩
  te := ⟨0, 0⟩
  td := ⟨0, 0, 0, 0⟩
  hm := ⟨0, 0, 0, 0, 0, 0⟩
  ep := ⟨0, 0, 0, 0⟩
  dp := WalkRegs.zero
  fv := WalkRegs.zero
  inMem := []
  frame := []
  out := []
  sink := []
  ht := []

/-- The machine right after reset, with the default `POS_W`, `MAX_OUTPUT_LEN` of the spec's test vectors and the default
`Hash` (log entries 6 and 7). -/
def State.reset : State := 
  State.resetOf ⟨Config.posWDefault - Config.posWMin, Config.maxOutputLenOfVectors, .multiplicative Config.hashMulDefault⟩

end Sys2Proof.Machine
end

