-- ==== Sys2Proof/Machine/Flags.lean ====
section
/-! DEFINITION. The status flags and cause codes: every flag computation of the spec (10_state.md R24, R29). -/

namespace Sys2Proof.Machine

/-- `RSP_STATUS` while a command runs: `busy` (10_state.md R23). -/
def statusBusy : BitVec 4 := 0b0001#4

/-- `RSP_STATUS` after a normal completion: `done` (10_state.md R24 (a)). -/
def statusDone : BitVec 4 := 0b0010#4

/-- `RSP_STATUS` after `MalformedInput`: `done` and `err` (10_state.md R24 (b)). -/
def statusMalformed : BitVec 4 := 0b0110#4

/-- `RSP_STATUS` after `BadCommand`: `done` and `cmd_err` (10_state.md R24 (c)). -/
def statusBadCommand : BitVec 4 := 0b1010#4

/-- `RSP_STATUS.busy`, bit 0 (10_state.md R22). -/
def busy (s : State) : Bool := s.rsp.status.getLsbD 0

/-- `RSP_STATUS.done`, bit 1 (10_state.md R22). -/
def done (s : State) : Bool := s.rsp.status.getLsbD 1

/-- `RSP_STATUS.err`, bit 2 (10_state.md R22). -/
def err (s : State) : Bool := s.rsp.status.getLsbD 2

/-- `RSP_STATUS.cmd_err`, bit 3 (10_state.md R22). -/
def cmdErr (s : State) : Bool := s.rsp.status.getLsbD 3

/-- The code of a cause (60_exceptions.md R261). -/
def causeCode : Cause → BitVec 4
  | .none => 0#4
  | .varintTruncated => 1#4
  | .varintTooLong => 2#4
  | .varintOverflow => 3#4
  | .lengthCap => 4#4
  | .tagTruncated => 5#4
  | .literalTruncated => 6#4
  | .literalOverflow => 7#4
  | .copyOffsetZero => 8#4
  | .copyOffsetTooFar => 9#4
  | .copyOverflow => 10#4
  | .lengthMismatch => 11#4

/-- The code of a decoder state in the 2-bit register `DP.state` or `FV.state` (10_state.md R30). -/
def walkStateCode : WalkState → BitVec 2
  | .idle => 0#2
  | .expectingTag => 1#2
  | .done => 2#2
  | .error => 3#2

end Sys2Proof.Machine
end

