-- ==== Sys2Proof/Machine/Operands.lean ====
section
/-! DEFINITION. Operand assembly: what the fields of a tag mean (30_encoding.md R90) and which argument values a
command takes (10_state.md R25). -/

namespace Sys2Proof.Machine

/-- What the tag parser hands on: kind, length, offset and header bytes, as exact numbers (41_tag_codec.md R140). -/
structure TagFields where
  kind : Nat
  len : Nat
  off : Nat
  hdr : Nat
deriving DecidableEq, Repr

/-- A literal with field `m` and `hdr` header bytes: `len = m + 1`, offset 0 (30_encoding.md R84, R85, R90). -/
def literalFields (m hdr : Nat) : TagFields := ⟨0, m + 1, 0, hdr⟩

/-- `COPY1`: `len = l + 4`, two header bytes (30_encoding.md R86, R90). -/
def copy1Fields (l : BitVec 3) (offset : BitVec 11) : TagFields := ⟨1, l.toNat + 4, offset.toNat, 2⟩

/-- `COPY2`: `len = l + 1`, three header bytes (30_encoding.md R87, R90). -/
def copy2Fields (l : BitVec 6) (offset : BitVec 16) : TagFields := ⟨2, l.toNat + 1, offset.toNat, 3⟩

/-- `COPY4`: `len = l + 1`, five header bytes (30_encoding.md R88, R90). -/
def copy4Fields (l : BitVec 6) (offset : BitVec 32) : TagFields := ⟨3, l.toNat + 1, offset.toNat, 5⟩

/-- The operands of an instruction of the tag stream (41_tag_codec.md R140). The others have none of these. -/
def tagFields : Instr → Option TagFields
  | .lit m => some (literalFields m.toNat 1)
  | .lit1 m => some (literalFields m.toNat 2)
  | .lit2 m => some (literalFields m.toNat 3)
  | .lit3 m => some (literalFields m.toNat 4)
  | .lit4 m => some (literalFields m.toNat 5)
  | .copy1 l offset => some (copy1Fields l offset)
  | .copy2 l offset => some (copy2Fields l offset)
  | .copy4 l offset => some (copy4Fields l offset)
  | .vcont _ => none
  | .vlast _ => none
  | .varintEnc => none
  | .varintDec => none
  | .emitLit => none
  | .emitCopy => none
  | .tagParse => none
  | .findMatchLen => none
  | .matchFrag => none
  | .compress => none
  | .maxClen => none
  | .uncompress => none
  | .getUlen => none
  | .isValid => none
  | .reserved0 => none
  | .reserved13 => none
  | .reserved14 => none
  | .reserved15 => none

/-- The registers `TD.*` after a tag is parsed (10_state.md R27); `len` has 33 bits, so 2^32 does not wrap (R9). -/
def tagRegs (f : TagFields) : TagDecRegs :=
  ⟨BitVec.ofNat 2 f.kind, BitVec.ofNat 33 f.len, BitVec.ofNat 32 f.off, BitVec.ofNat 3 f.hdr⟩

/-- An argument register holds nothing above the width an operation uses (10_state.md R23, R25). -/
def fits (width : Nat) (v : Nat) : Bool := decide (v < 2 ^ width)

/-- The arguments `VARINT_ENC` takes: `v` of 32 bits (10_state.md R25). -/
def varintEncArgs (c : CmdRegs) : Bool := fits 32 c.a0

/-- The arguments `VARINT_DEC` and `TAG_PARSE` take: `pos ≤ end` (10_state.md R25). -/
def rangeArgs (c : CmdRegs) : Bool := decide (c.a0 ≤ c.a1)

/-- The arguments `EMIT_LIT` takes: both of 32 bits, `1 ≤ run_len`, `src + run_len ≤ 2^32` (10_state.md R25). -/
def emitLitArgs (c : CmdRegs) : Bool :=
  fits 32 c.a0 && fits 32 c.a1 && decide (1 ≤ c.a0) && decide (c.a1 + c.a0 ≤ Config.u32Limit)

/-- The arguments `EMIT_COPY` takes: both of 32 bits, `1 ≤ offset`, `4 ≤ length` (10_state.md R25). -/
def emitCopyArgs (c : CmdRegs) : Bool :=
  fits 32 c.a0 && fits 32 c.a1 && decide (1 ≤ c.a0) && decide (Config.minMatch ≤ c.a1)

/-- The arguments `FIND_MATCH_LEN` takes: 32, 32 and 33 bits, `p ≤ q ≤ q_end ≤ 2^32` (10_state.md R25). -/
def findMatchLenArgs (c : CmdRegs) : Bool :=
  fits 32 c.a0 && fits 32 c.a1 && fits 33 c.a2 && decide (c.a0 ≤ c.a1) &&
    decide (c.a1 ≤ c.a2) && decide (c.a2 ≤ Config.u32Limit)

/-- The arguments `MATCH_FRAG` takes: 32 and 17 bits, `1 ≤ n ≤ 65536`, `base + n ≤ 2^32` (10_state.md R25). -/
def matchFragArgs (c : CmdRegs) : Bool :=
  fits 32 c.a0 && fits 17 c.a1 && decide (1 ≤ c.a1) && decide (c.a1 ≤ Config.matcherMaxFragment) &&
    decide (c.a0 + c.a1 ≤ Config.u32Limit)

/-- The arguments `COMPRESS` takes: `n` of 32 bits (10_state.md R25). -/
def compressArgs (c : CmdRegs) : Bool := fits 32 c.a0

/-- The arguments `MAX_CLEN` takes: `n` of 32 bits (10_state.md R25). -/
def maxClenArgs (c : CmdRegs) : Bool := fits 32 c.a0

end Sys2Proof.Machine
end

