-- ==== Sys2Proof/Machine/Ops.lean ====
section
/-! DEFINITION. The named operations the meanings share: starting and completing a command, entering an error, the
walk registers, the byte spaces, the sink, reset. -/

namespace Sys2Proof.Machine

/-- The outcome of a step of this machine. -/
abbrev Result := Host.Outcome State Fault Refusal

/-- What a register of `POS_W` bits holds when a number is written to it: the low `POS_W` bits (10_state.md R22, "exactly
as wide as shown"). No number the block computes is wider than 33 bits, so only a write of the host can lose any. -/
def toPos (p : Params) (n : Nat) : Nat := n % 2 ^ p.posW

/-- Command start (10_state.md R23): the op code is latched and the response registers are cleared, with `busy` set.
It is also the only way back from an error (60_exceptions.md R265). -/
def beginCommand (op : BitVec 4) (s : State) : State :=
  { s with cmd := { s.cmd with op := op }, rsp := ⟨statusBusy, 0, 0, 0, 0, 0⟩ }

/-- Normal completion (10_state.md R24 (a)); unused result registers are 0. -/
def completeNormal (r0 r1 r2 r3 : Nat) (s : State) : State :=
  { s with rsp := ⟨statusDone, 0, toPos s.params r0, toPos s.params r1, toPos s.params r2, toPos s.params r3⟩ }

/-- Completion with `MalformedInput` (10_state.md R24 (b)). -/
def completeMalformed (c : Cause) (s : State) : State :=
  { s with rsp := ⟨statusMalformed, causeCode c, 0, 0, 0, 0⟩ }

/-- Completion with `BadCommand` (10_state.md R24 (c), 60_exceptions.md R266): nothing but the response changes. -/
def completeBadCommand (s : State) : State :=
  { s with rsp := ⟨statusBadCommand, 0, 0, 0, 0, 0⟩ }

/-- Completion of `IS_VALID` with result 0 (45_frame_validator.md R251): normal, the cause left in `RSP_CAUSE`. -/
def completeInvalid (c : Cause) (s : State) : State :=
  { s with rsp := ⟨statusDone, causeCode c, 0, 0, 0, 0⟩ }

/-- The unit that executes the tags (44_lz_decoder.md R210): `frame_validator` while `CMD_OP` is `IS_VALID`,
`lz_decoder_pipeline` otherwise. Outside a walk no step asks (log entry 12). -/
def activeUnit (s : State) : WalkUnit := if s.cmd.op = 12#4 then .fv else .dp

/-- The walk registers `x[U.*]` of a unit (44_lz_decoder.md R210). -/
def walkRegs (u : WalkUnit) (s : State) : WalkRegs :=
  match u with
  | .dp => s.dp
  | .fv => s.fv

/-- The state with the walk registers of one unit replaced. -/
def setWalk (u : WalkUnit) (w : WalkRegs) (s : State) : State :=
  match u with
  | .dp => { s with dp := w }
  | .fv => { s with fv := w }

/-- A unit in state `ERROR` with its cause (60_exceptions.md R264). -/
def failUnit (u : WalkUnit) (c : Cause) (s : State) : State :=
  setWalk u { walkRegs u s with state := .error, cause := causeCode c } s

/-- Entry to `MalformedInput(c)` (60_exceptions.md R264), the one exception of the block, for the command in
progress: the unit that walks goes to `ERROR`, and the command completes. `IS_VALID` reports it as its result 0
(45_frame_validator.md R251); `VARINT_DEC` and `TAG_PARSE` have no walking unit. Nothing else is saved and there is
no return but the next command start (R265). -/
def raiseMalformed (c : Cause) (s : State) : State :=
  if s.cmd.op = 12#4 then completeInvalid c (failUnit .fv c s)
  else if s.cmd.op = 10#4 ∨ s.cmd.op = 11#4 then completeMalformed c (failUnit .dp c s)
  else completeMalformed c s

/-- `MemRead(FRAME, a, n)` for a command that was given the end `endPos` (20_memory.md R51): a fault if it reaches it. -/
def readFrame (s : State) (endPos a n : Nat) : Except Fault (List Byte) :=
  if a + n ≤ endPos then .ok (cellRange s.frame a n) else .error .frameReadPastEnd

/-- `MemRead(IN, a, 1)` (20_memory.md R50). The commands that read `IN` check their range first (10_state.md R25), so
no address at or above 2^32 is asked for. -/
def readIn (s : State) (a : Nat) : Byte := cellGet s.inMem a

/-- The bound on writes of `OUT`: the declared length, inside the capacity (20_memory.md R52). -/
def outLimit (s : State) : Nat := min s.dp.declared.toNat s.params.maxOutputLen.toNat

/-- `SinkPush` for a run of bytes (20_memory.md R53); `EP.count` counts every byte (10_state.md R27). -/
def pushBytes (bs : List Byte) (s : State) : State :=
  { s with sink := s.sink ++ bs, ep := { s.ep with count := toPos s.params (s.ep.count + bs.length) } }

/-- The count of pushed bytes at the start of a command that pushes (10_state.md R27). -/
def clearCount (s : State) : State := { s with ep := { s.ep with count := 0 } }

/-- Completion of a command that pushes: `RSP_R0` is the number of bytes pushed (10_state.md R25). -/
def completePushed (s : State) : State := completeNormal s.ep.count 0 0 0 s

/-- Reset (70_reset_and_hazards.md R290, R291; 10_state.md R34): every register as after reset, the command in progress
and the presented moves dropped; the host's spaces and the bytes already pushed stay (log entry 3). -/
def applyReset (s : State) : State :=
  { State.resetOf s.params with inMem := s.inMem, frame := s.frame, out := s.out, sink := s.sink }

/-- The host's read of a response register by its number (10_state.md R22); the command registers are write only and
the other numbers are absent. -/
def hostRead (number : Nat) (s : State) : Option Nat :=
  match number with
  | 4 => some s.rsp.status.toNat
  | 5 => some s.rsp.cause.toNat
  | 6 => some s.rsp.r0
  | 7 => some s.rsp.r1
  | 8 => some s.rsp.r2
  | 9 => some s.rsp.r3
  | _ => none

end Sys2Proof.Machine
end

