-- ==== Sys2Proof/Machine/TagEncoder.lean ====
section
/-! DEFINITION. tag_codec_encoder (41_tag_codec.md): EMIT_LIT, EMIT_COPY, and the functions the pipeline shares. -/

namespace Sys2Proof.Machine

/-- `k`, the least number of bytes that hold `m` (41_tag_codec.md R131). -/
def literalExtBytes (m : Nat) : Nat :=
  if m < 2 ^ 8 then 1 else if m < 2 ^ 16 then 2 else if m < 2 ^ 24 then 3 else 4

/-- The header `EmitLiteral` pushes for a run length (41_tag_codec.md R131). -/
def literalHeader (runLen : Nat) : List Byte :=
  let m := runLen - 1
  if runLen ≤ Config.litInlineMax then [BitVec.ofNat 8 (m * 4)]
  else BitVec.ofNat 8 ((59 + literalExtBytes m) * 4) :: leBytes (literalExtBytes m) m

/-- The `n` bytes of `IN` from an address upwards. -/
def readInRange (s : State) (a n : Nat) : List Byte := cellRange s.inMem a n

/-- `EmitLiteral(run_len, src)` (41_tag_codec.md R131). -/
def emitLiteral (runLen src : Nat) (s : State) : State := pushBytes (literalHeader runLen ++ readInRange s src runLen) s

/-- `EmitOneCopy(offset, len)` (41_tag_codec.md R133): the tightest form that can carry it. -/
def oneCopyBytes (offset len : Nat) : List Byte :=
  if 4 ≤ len ∧ len ≤ 11 ∧ offset < Config.copy1OffLimit then
    [BitVec.ofNat 8 (offset / 256 * 32 + (len - 4) * 4 + 1), BitVec.ofNat 8 offset]
  else if offset < Config.copy2OffLimit then BitVec.ofNat 8 ((len - 1) * 4 + 2) :: leBytes 2 offset
  else BitVec.ofNat 8 ((len - 1) * 4 + 3) :: leBytes 4 offset

/-- The lengths of the pieces of a copy, in order (41_tag_codec.md R134): 64 while at least 68 remain, 60 when 65 to 67
remain, then the rest. The first argument bounds the passes. -/
def copyPieces : Nat → Nat → List Nat
  | 0, rem => [rem]
  | fuel + 1, rem =>
    if 68 ≤ rem then 64 :: copyPieces fuel (rem - 64)
    else if 64 < rem then [60, rem - 60]
    else [rem]

/-- The bytes of `EmitCopy(offset, length)` (41_tag_codec.md R134): every piece has the same offset. -/
def copyBytes (offset length : Nat) : List Byte :=
  (copyPieces (length / 64) length).flatMap (oneCopyBytes offset)

/-- `EmitCopy(offset, length)` (41_tag_codec.md R134); at the end `TE.rem` is 0. -/
def emitCopy (offset length : Nat) (s : State) : State :=
  pushBytes (copyBytes offset length) { s with te := ⟨BitVec.ofNat _ offset, 0⟩ }

/-- `EMIT_LIT` (41_tag_codec.md R132). -/
def execEmitLit (s : State) : Result :=
  let s := beginCommand 3#4 s
  if emitLitArgs s.cmd then .next (completePushed (emitLiteral s.cmd.a0 s.cmd.a1 (clearCount s)))
  else .next (completeBadCommand s)

/-- `EMIT_COPY` (41_tag_codec.md R135). -/
def execEmitCopy (s : State) : Result :=
  let s := beginCommand 4#4 s
  if emitCopyArgs s.cmd then .next (completePushed (emitCopy s.cmd.a0 s.cmd.a1 (clearCount s)))
  else .next (completeBadCommand s)

end Sys2Proof.Machine
end

