-- ==== Sys2Proof/Machine/Matcher.lean ====
section
/-! DEFINITION. hash_matcher (42_hash_matcher.md): FIND_MATCH_LEN, MATCH_FRAG. -/

namespace Sys2Proof.Machine

/-- `TableBits(n)` (42_hash_matcher.md R161): log2 of the smallest power of two that is at least `n`, between 8 and 14;
the loop with a bound on its passes. -/
def growTable : Nat → Nat → Nat → Nat
  | 0, tbits, _ => tbits
  | fuel + 1, tbits, n =>
    if tbits < Config.htMaxBits ∧ 2 ^ tbits < n then growTable fuel (tbits + 1) n else tbits

/-- `TableBits(n)` (42_hash_matcher.md R161). -/
def tableBits (n : Nat) : Nat := growTable (Config.htMaxBits - Config.htMinBits) Config.htMinBits n

/-- The spec's form of `Hash` (42_hash_matcher.md R162): the top `tbits` bits of the low 32 bits of the product. The form
and the default multiplier are the spec's general knowledge (92_eei_decisions.md D12), log entry 9. -/
def hashMultiply (mul : BitVec 32) (w tbits : Nat) : Nat := (w * mul.toNat % 2 ^ 32) >>> (32 - tbits)

/-- The value of a hash function that is written out row by row: the first row of the pair decides. -/
def hashLookup : List HashRow → Nat → Nat → Nat
  | [], _, _ => 0
  | r :: rows, w, tbits => if r.w.toNat = w ∧ r.tbits = tbits then r.h else hashLookup rows w tbits

/-- `Hash(w, tbits)` of the instance, `tbits` bits wide (42_hash_matcher.md R162; 93_implementation_defined.md U3). -/
def hashWord (hash : HashFn) (w tbits : Nat) : Nat :=
  match hash with
  | .multiplicative mul => hashMultiply mul w tbits
  | .table rows => hashLookup rows w tbits % 2 ^ tbits

/-- `Load32` at an address of `IN`, little-endian (42_hash_matcher.md R162). -/
def load32 (s : State) (a : Nat) : Nat := leNat (readInRange s a 4)

/-- `FindMatchLength` (42_hash_matcher.md R163), the first argument being the number of bytes left before `q_end`. -/
def matchLength (s : State) : Nat → Nat → Nat → Nat
  | 0, _, _ => 0
  | left + 1, p, q => if readIn s p = readIn s q then matchLength s left (p + 1) (q + 1) + 1 else 0

/-- `FindMatchLength(p, q, q_end)` (42_hash_matcher.md R163). -/
def findMatchLength (s : State) (p q qEnd : Nat) : Nat := matchLength s (qEnd - q) p q

/-- The probe step after a miss (42_hash_matcher.md R166, R169). -/
def skipStep (skip : Nat) : Nat := min (skip >>> Config.skipShift) Config.skipCap

/-- The pending literal run, if it is not empty (42_hash_matcher.md R166). -/
def pendingLiteral (nextEmit upTo : Nat) : List Event :=
  if nextEmit < upTo then [.lit nextEmit (upTo - nextEmit)] else []

/-- What a matching pass leaves: its events, its cursor registers and the table. -/
structure MatchPass where
  events : List Event
  ip : Nat
  nextEmit : Nat
  skip : Nat
  ht : Cells 16
deriving DecidableEq, Repr

/-- The loop of `MatchFragment` (42_hash_matcher.md R166) over the fragment `IN[base .. base+n)`; the first number
bounds its passes. -/
def matchLoop (s : State) (base n tbits : Nat) : Nat → MatchPass → MatchPass
  | 0, m => m
  | fuel + 1, m =>
    if m.ip + Config.tailGuard + 1 ≤ n then
      let w := load32 s (base + m.ip)
      let h := hashWord s.params.hash w tbits
      let cand := (cellGet m.ht h).toNat
      let ht := cellSet m.ht h (BitVec.ofNat 16 m.ip)
      if load32 s (base + cand) = w then
        let len := 4 + findMatchLength s (base + cand + 4) (base + m.ip + 4) (base + n)
        matchLoop s base n tbits fuel
          { events := m.events ++ pendingLiteral m.nextEmit m.ip ++ [.copy (m.ip - cand) len]
            ip := m.ip + len, nextEmit := m.ip + len, skip := Config.skipInit, ht := ht }
      else matchLoop s base n tbits fuel { m with ip := m.ip + skipStep m.skip, skip := m.skip + 1, ht := ht }
    else m

/-- `MatchFragment(base, n)` (42_hash_matcher.md R166): the part of `HT` in use is zeroed, the pass runs from position 4,
and what is left uncovered is the final literal. -/
def matchFragment (s : State) (base n : Nat) : MatchPass :=
  let m :=
    matchLoop s base n (tableBits n) n
      { events := [], ip := Config.headGuard, nextEmit := 0, skip := Config.skipInit
        ht := cellsFrom s.ht (2 ^ tableBits n) }
  { m with events := m.events ++ pendingLiteral m.nextEmit n }

/-- `hash_matcher` runs over a fragment: its registers and `HT` after the pass (42_hash_matcher.md R166). -/
def afterPass (base n : Nat) (m : MatchPass) (s : State) : State :=
  { s with
      hm := ⟨BitVec.ofNat _ base, BitVec.ofNat _ n, BitVec.ofNat _ (tableBits n), BitVec.ofNat _ m.ip,
        BitVec.ofNat _ m.nextEmit, BitVec.ofNat _ m.skip⟩
      ht := m.ht }

/-- An event of the fragment at `base` goes through tag_codec_encoder (42_hash_matcher.md R165, R170). -/
def emitEvent (base : Nat) (s : State) : Event → State
  | .lit start len => emitLiteral len (base + start) s
  | .copy offset len => emitCopy offset len s

/-- A fragment is matched and its events are emitted in order (42_hash_matcher.md R170, 43_lz_encoder.md R191). -/
def emitFragment (base n : Nat) (s : State) : State :=
  let m := matchFragment s base n
  m.events.foldl (emitEvent base) (afterPass base n m s)

/-- `FIND_MATCH_LEN` (42_hash_matcher.md R164). -/
def execFindMatchLen (s : State) : Result :=
  let s := beginCommand 6#4 s
  if findMatchLenArgs s.cmd then
    .next (completeNormal (findMatchLength s s.cmd.a0 s.cmd.a1 s.cmd.a2) 0 0 0 s)
  else .next (completeBadCommand s)

/-- `MATCH_FRAG` (42_hash_matcher.md R170). -/
def execMatchFrag (s : State) : Result :=
  let s := beginCommand 7#4 s
  if matchFragArgs s.cmd then .next (completePushed (emitFragment s.cmd.a0 s.cmd.a1 (clearCount s)))
  else .next (completeBadCommand s)

end Sys2Proof.Machine
end

