-- ==== Sys2Proof/Machine/Varint.lean ====
section
/-! DEFINITION. varint_encoder and varint_decoder (40_varint.md): VCONT, VLAST, VARINT_ENC, VARINT_DEC. -/

namespace Sys2Proof.Machine

/-- The loop of `VarintEncode` (40_varint.md R110) with a bound on its passes: seven bits a byte, bit 7 set on all but
the last. -/
def varintBytes : Nat → Nat → List Byte
  | 0, v => [BitVec.ofNat 8 (v % 128)]
  | fuel + 1, v => if v < 128 then [BitVec.ofNat 8 v] else BitVec.ofNat 8 (128 + v % 128) :: varintBytes fuel (v / 128)

/-- `VarintEncode(v)` (40_varint.md R110): 1 to 5 bytes, minimal. -/
def varintEncode (v : Nat) : List Byte := varintBytes (Config.varintMaxBytes - 1) v

/-- `varint_encoder` pushes a value (40_varint.md R110): at the end `VE.v` holds the last group and `VE.n` the byte
count. -/
def pushVarint (v : Nat) (s : State) : State :=
  let bs := varintEncode v
  pushBytes bs { s with ve := ⟨BitVec.ofNat _ (v / 128 ^ (bs.length - 1)), BitVec.ofNat _ bs.length⟩ }

/-- The start of a varint decode (40_varint.md R111). -/
def startVarint (s : State) : State := { s with vd := ⟨0, 0⟩ }

/-- One value group goes into `VD.val` at byte index `VD.i` (40_varint.md R112, R114). -/
def takeGroup (g : BitVec 7) (s : State) : State :=
  { s with vd := ⟨s.vd.val ||| BitVec.ofNat 32 (g.toNat <<< (7 * s.vd.i.toNat)), BitVec.ofNat _ (s.vd.i.toNat + 1)⟩ }

/-- The preamble of a walk is decoded (44_lz_decoder.md R211): the cap, then `declared`, `produced`, `pc` and
`EXPECTING_TAG`. -/
def preambleDone (u : WalkUnit) (s : State) : State :=
  if s.params.maxOutputLen.toNat < s.vd.val.toNat then raiseMalformed .lengthCap s
  else
    setWalk u
      { walkRegs u s with
          state := .expectingTag, declared := s.vd.val, produced := 0, pc := s.vd.i.toNat } s

/-- What the end of the varint does for the command in progress: `VARINT_DEC` and `GET_ULEN` complete with it
(40_varint.md R116, 44_lz_decoder.md R225), a walk goes on to its tags (R211). -/
def varintDone (s : State) : State :=
  if s.cmd.op = 2#4 then completeNormal s.vd.val.toNat s.vd.i.toNat 0 0 s
  else if s.cmd.op = 11#4 then completeNormal s.vd.val.toNat 0 0 0 s
  else preambleDone (activeUnit s) s

/-- `VCONT` (40_varint.md R112): at byte index 4 `VARINT_TOO_LONG`, with no other effect; before it one group.
The index never exceeds 4 here (log entry 13). -/
def execVcont (g : BitVec 7) (s : State) : Result :=
  if 4 ≤ s.vd.i.toNat then .next (raiseMalformed .varintTooLong s) else .next (takeGroup g s)

/-- `VLAST` (40_varint.md R114): at byte index 4 a group above 0F is `VARINT_OVERFLOW`; otherwise the last group is
taken and the varint ends. -/
def execVlast (g : BitVec 7) (s : State) : Result :=
  if 4 ≤ s.vd.i.toNat ∧ Config.varintLastMax < g.toNat then .next (raiseMalformed .varintOverflow s)
  else .next (varintDone (takeGroup g s))

/-- `VARINT_ENC` (40_varint.md R117). -/
def execVarintEnc (s : State) : Result :=
  let s := beginCommand 1#4 s
  if varintEncArgs s.cmd then .next (completePushed (pushVarint s.cmd.a0 (clearCount s)))
  else .next (completeBadCommand s)

/-- `VARINT_DEC` (40_varint.md R116): the command starts; its bytes `FRAME[pos .. end)` then execute one a step as
`VCONT` and `VLAST`, the last of which completes it (log entry 1). -/
def execVarintDec (s : State) : Result :=
  let s := beginCommand 2#4 s
  if rangeArgs s.cmd then .next (startVarint s) else .next (completeBadCommand s)

end Sys2Proof.Machine
end

