-- ==== Sys2Proof/Machine/Encoder.lean ====
section
/-! DEFINITION. lz_encoder_pipeline (43_lz_encoder.md): COMPRESS, MAX_CLEN. -/

namespace Sys2Proof.Machine

/-- `EP.in_len`, `EP.frag_base` and `EP.count` at the start of `Compress(n)` (43_lz_encoder.md R191). -/
def startCompress (n : Nat) (s : State) : State :=
  { s with ep := { s.ep with inLen := BitVec.ofNat _ n, fragBase := 0, count := 0 } }

/-- `EP.frag_len` for the next fragment (43_lz_encoder.md R191). -/
def noteFragLen (len : Nat) (s : State) : State := { s with ep := { s.ep with fragLen := BitVec.ofNat _ len } }

/-- `EP.frag_base` moves on (43_lz_encoder.md R191). -/
def noteFragBase (base : Nat) (s : State) : State := { s with ep := { s.ep with fragBase := BitVec.ofNat _ base } }

/-- The length of the fragment at `EP.frag_base`: what is left, up to `ENC_FRAGMENT` (43_lz_encoder.md R191). -/
def fragLenAt (s : State) : Nat := min (s.ep.inLen.toNat - s.ep.fragBase.toNat) Config.encFragment

/-- One fragment of `Compress` (43_lz_encoder.md R191): it is matched and emitted, and the base moves past it. -/
def compressFragment (s : State) : State :=
  let base := s.ep.fragBase.toNat
  let len := fragLenAt s
  noteFragBase (base + len) (emitFragment base len (noteFragLen len s))

/-- The fragment loop of `Compress` (43_lz_encoder.md R191); the first argument bounds its passes. -/
def compressFragments : Nat → State → State
  | 0, s => s
  | fuel + 1, s =>
    if s.ep.fragBase.toNat < s.ep.inLen.toNat then compressFragments fuel (compressFragment s) else s

/-- `Compress(n)` (43_lz_encoder.md R191): the preamble, then every fragment. -/
def compressFrame (n : Nat) (s : State) : State :=
  compressFragments (n / Config.encFragment + 1) (pushVarint n (startCompress n s))

/-- `MaxCompressedLength(n)` (43_lz_encoder.md R193), exact. -/
def maxCompressedLength (n : Nat) : Nat := 32 + n + n / 6

/-- `COMPRESS` (43_lz_encoder.md R192). -/
def execCompress (s : State) : Result :=
  let s := beginCommand 8#4 s
  if compressArgs s.cmd then .next (completePushed (compressFrame s.cmd.a0 s))
  else .next (completeBadCommand s)

/-- `MAX_CLEN` (43_lz_encoder.md R193). -/
def execMaxClen (s : State) : Result :=
  let s := beginCommand 9#4 s
  if maxClenArgs s.cmd then .next (completeNormal (maxCompressedLength s.cmd.a0) 0 0 0 s)
  else .next (completeBadCommand s)

end Sys2Proof.Machine
end

