-- ==== Sys2Proof/Machine/Reserved.lean ====
section
/-! DEFINITION. The reserved operation codes (60_exceptions.md R266): each completes at once with BadCommand. -/

namespace Sys2Proof.Machine

/-- Op code 0 (60_exceptions.md R266). -/
def execReserved0 (s : State) : Result := .next (completeBadCommand (beginCommand 0#4 s))

/-- Op code 13 (60_exceptions.md R266). -/
def execReserved13 (s : State) : Result := .next (completeBadCommand (beginCommand 13#4 s))

/-- Op code 14 (60_exceptions.md R266). -/
def execReserved14 (s : State) : Result := .next (completeBadCommand (beginCommand 14#4 s))

/-- Op code 15 (60_exceptions.md R266). -/
def execReserved15 (s : State) : Result := .next (completeBadCommand (beginCommand 15#4 s))

end Sys2Proof.Machine
end

