-- ==== Sys2Proof/Machine/TagDecoder.lean ====
section
/-! DEFINITION. tag_codec_decoder (41_tag_codec.md): the tag parser and TAG_PARSE. -/

namespace Sys2Proof.Machine

/-- What the tag parser finds at a position (41_tag_codec.md R140). -/
inductive TagFetch where
  /-- A tag whose whole header is there. -/
  | instr (i : Instr)
  /-- `TAG_TRUNCATED`, with the tag byte if that one is there. -/
  | truncated (T : Option Byte)
deriving DecidableEq, Repr

/-- `TagParse(pos, end)` (41_tag_codec.md R140): the tag byte, then, if the whole header lies before the end, its other
bytes. No byte at or past the end is read (20_memory.md R51). -/
def fetchTag (s : State) (pos endPos : Nat) : Except Fault TagFetch :=
  if endPos ≤ pos then .ok (.truncated none)
  else
    match readFrame s endPos pos 1 with
    | .error f => .error f
    | .ok first =>
      let T := first.headD 0
      if endPos < pos + headerLen T then .ok (.truncated (some T))
      else
        match readFrame s endPos (pos + 1) (headerLen T - 1) with
        | .error f => .error f
        | .ok rest =>
          match decodeTag (T :: rest) with
          | .ok (i, _) => .ok (.instr i)
          | .error _ => .ok (.truncated (some T))

/-- The parser's registers after a tag whose header is cut: `TD.kind` if the tag byte was there (41_tag_codec.md R140,
where `TD.kind` is written before the availability test). -/
def noteKind (T : Option Byte) (s : State) : State :=
  match T with
  | none => s
  | some T => { s with td := { s.td with kind := tagKind T } }

/-- The parser's registers after a tag (41_tag_codec.md R140). -/
def noteTag (f : TagFields) (s : State) : State := { s with td := tagRegs f }

/-- `TAG_PARSE` (41_tag_codec.md R141): kind, length, offset and header bytes in `RSP_R0..RSP_R3`. Offsets and lengths
are not judged. -/
def execTagParse (s : State) : Result :=
  let s := beginCommand 5#4 s
  if rangeArgs s.cmd then
    match fetchTag s s.cmd.a0 s.cmd.a1 with
    | .error f => .fault f
    | .ok (.truncated T) => .next (raiseMalformed .tagTruncated (noteKind T s))
    | .ok (.instr i) =>
      let f := (tagFields i).getD ⟨0, 0, 0, 0⟩
      .next (completeNormal f.kind f.len f.off f.hdr (noteTag f s))
  else .next (completeBadCommand s)

end Sys2Proof.Machine
end

