-- ==== Sys2Proof/Machine/Walk.lean ====
section
/-! DEFINITION. The execution of tags by lz_decoder_pipeline and frame_validator (44_lz_decoder.md R212 to R222). -/

namespace Sys2Proof.Machine

/-- The byte moves of a copy (20_memory.md R60): `len` times, in ascending order, one byte from `src` to `dst`, so that
a later read sees an earlier write. A read of a byte not yet produced, or a write at or past `limit`, is a fault
(44_lz_decoder.md R226). -/
def copyForward (limit : Nat) : Nat → Nat → Nat → List Host.Cell → Except Fault (List Host.Cell)
  | 0, _, _, out => .ok out
  | len + 1, src, dst, out =>
    if dst ≤ src then .error .outReadNotProduced
    else if limit ≤ dst then .error .outWritePastDeclared
    else copyForward limit len (src + 1) (dst + 1) (cellSet out dst (cellGet out src))

/-- The byte moves of a literal (20_memory.md R61): the payload `FRAME[src .. src+len)` to `OUT` at `produced`. The
validator moves nothing (45_frame_validator.md R250, R251). -/
def moveLiteral (u : WalkUnit) (src len : Nat) (s : State) : Except Fault State :=
  match u with
  | .fv => .ok s
  | .dp =>
    match readFrame s s.dp.endPos src len with
    | .error f => .error f
    | .ok payload =>
      if s.dp.produced.toNat + len ≤ outLimit s then
        .ok { s with out := cellSetRange s.out s.dp.produced.toNat payload }
      else .error .outWritePastDeclared

/-- The byte moves of a copy from `offset` back in `OUT` (20_memory.md R60). The validator moves nothing. -/
def moveCopy (u : WalkUnit) (offset len : Nat) (s : State) : Except Fault State :=
  match u with
  | .fv => .ok s
  | .dp =>
    let P := s.dp.produced.toNat
    match copyForward (outLimit s) len (P - offset) P s.out with
    | .error f => .error f
    | .ok out => .ok { s with out := out }

/-- `produced` and `pc` after a tag (44_lz_decoder.md R212); the checks before it put `pc` at or below the frame end, which
fits in `POS_W` bits. -/
def advance (u : WalkUnit) (len pc : Nat) (s : State) : State :=
  let w := walkRegs u s
  setWalk u { w with produced := BitVec.ofNat _ (w.produced.toNat + len), pc := pc } s

/-- `ExecLiteral(len, hdr, write)` (44_lz_decoder.md R212): the payload inside the frame, the output inside the declared
length, then the moves. -/
def literalBody (f : TagFields) (s : State) : Result :=
  let u := activeUnit s
  let w := walkRegs u s
  let src := w.pc + f.hdr
  if w.endPos < src + f.len then .next (raiseMalformed .literalTruncated s)
  else if w.declared.toNat < w.produced.toNat + f.len then .next (raiseMalformed .literalOverflow s)
  else
    match moveLiteral u src f.len s with
    | .error r => .fault r
    | .ok t => .next (advance u f.len (src + f.len) t)

/-- `ExecCopy(len, offset, hdr, write)` (44_lz_decoder.md R212): offset not 0, not beyond what is produced, the output
inside the declared length, then the moves. -/
def copyBody (f : TagFields) (s : State) : Result :=
  let u := activeUnit s
  let w := walkRegs u s
  if f.off = 0 then .next (raiseMalformed .copyOffsetZero s)
  else if w.produced.toNat < f.off then .next (raiseMalformed .copyOffsetTooFar s)
  else if w.declared.toNat < w.produced.toNat + f.len then .next (raiseMalformed .copyOverflow s)
  else
    match moveCopy u f.off f.len s with
    | .error r => .fault r
    | .ok t => .next (advance u f.len (w.pc + f.hdr) t)

/-- The header of the tag at `pc` does not lie wholly before the frame end (60_exceptions.md R261, code 5). -/
def headerCut (hdr : Nat) (s : State) : Bool :=
  let w := walkRegs (activeUnit s) s
  decide (w.endPos < w.pc + hdr)

/-- The first check of every tag (44_lz_decoder.md R214 to R221): `TAG_TRUNCATED`, with `TD.kind` written. -/
def raiseTagTruncated (f : TagFields) (s : State) : State :=
  raiseMalformed .tagTruncated { s with td := { s.td with kind := BitVec.ofNat 2 f.kind } }

/-- A literal tag: its header, the parser's registers, `ExecLiteral` (44_lz_decoder.md R212). -/
def literalTag (f : TagFields) (s : State) : Result :=
  if headerCut f.hdr s then .next (raiseTagTruncated f s) else literalBody f (noteTag f s)

/-- A copy tag: its header, the parser's registers, `ExecCopy` (44_lz_decoder.md R212). -/
def copyTag (f : TagFields) (s : State) : Result :=
  if headerCut f.hdr s then .next (raiseTagTruncated f s) else copyBody f (noteTag f s)

/-- `LIT` (44_lz_decoder.md R214). -/
def execLit (m : BitVec 6) (s : State) : Result := literalTag (literalFields m.toNat 1) s

/-- `LIT1` (44_lz_decoder.md R215). -/
def execLit1 (m : BitVec 8) (s : State) : Result := literalTag (literalFields m.toNat 2) s

/-- `LIT2` (44_lz_decoder.md R216). -/
def execLit2 (m : BitVec 16) (s : State) : Result := literalTag (literalFields m.toNat 3) s

/-- `LIT3` (44_lz_decoder.md R217). -/
def execLit3 (m : BitVec 24) (s : State) : Result := literalTag (literalFields m.toNat 4) s

/-- `LIT4` (44_lz_decoder.md R218). -/
def execLit4 (m : BitVec 32) (s : State) : Result := literalTag (literalFields m.toNat 5) s

/-- `COPY1` (44_lz_decoder.md R219). -/
def execCopy1 (l : BitVec 3) (offset : BitVec 11) (s : State) : Result := copyTag (copy1Fields l offset) s

/-- `COPY2` (44_lz_decoder.md R220). -/
def execCopy2 (l : BitVec 6) (offset : BitVec 16) (s : State) : Result := copyTag (copy2Fields l offset) s

/-- `COPY4` (44_lz_decoder.md R221). -/
def execCopy4 (l : BitVec 6) (offset : BitVec 32) (s : State) : Result := copyTag (copy4Fields l offset) s

/-- The end of a frame whose tags all executed (44_lz_decoder.md R212, R222): `DONE` if exactly the declared length was
produced, else `LENGTH_MISMATCH`. `UNCOMPRESS` returns the declared length (R224), `IS_VALID` returns 1
(45_frame_validator.md R251). -/
def endOfFrame (u : WalkUnit) (s : State) : State :=
  let w := walkRegs u s
  if w.produced = w.declared then
    let t := setWalk u { w with state := .done } s
    match u with
    | .dp => completeNormal w.declared.toNat 0 0 0 t
    | .fv => completeNormal 1 0 0 0 t
  else raiseMalformed .lengthMismatch s

end Sys2Proof.Machine
end

