-- ==== Sys2Proof/Machine/Decoder.lean ====
section
/-! DEFINITION. The commands of lz_decoder_pipeline (44_lz_decoder.md): UNCOMPRESS, GET_ULEN. -/

namespace Sys2Proof.Machine

/-- The start of a walk over `FRAME[0 .. frame_len)` (44_lz_decoder.md R211, R225): `IDLE`, cursor 0, the end, no cause,
and the varint decoder ready for the preamble. -/
def startWalk (u : WalkUnit) (frameLen : Nat) (s : State) : State :=
  startVarint (setWalk u { walkRegs u s with state := .idle, pc := 0, endPos := frameLen, cause := 0 } s)

/-- `UNCOMPRESS` (44_lz_decoder.md R224): the walk starts; its preamble bytes and tags then execute one a step (R213),
and the end of the frame completes it (log entry 1). -/
def execUncompress (s : State) : Result :=
  let s := beginCommand 10#4 s
  .next (startWalk .dp s.cmd.a0 s)

/-- `GET_ULEN` (44_lz_decoder.md R225): the walk starts; its preamble bytes then execute one a step, and the last one
completes it. -/
def execGetUlen (s : State) : Result :=
  let s := beginCommand 11#4 s
  .next (startWalk .dp s.cmd.a0 s)

end Sys2Proof.Machine
end

