-- ==== Sys2Proof/Machine/Validator.lean ====
section
/-! DEFINITION. The command of frame_validator (45_frame_validator.md): IS_VALID. -/

namespace Sys2Proof.Machine

/-- `IS_VALID` (45_frame_validator.md R251): the same walk on the validator's own registers, with writing off. -/
def execIsValid (s : State) : Result :=
  let s := beginCommand 12#4 s
  .next (startWalk .fv s.cmd.a0 s)

end Sys2Proof.Machine
end

