-- ==== Sys2Proof/Machine/Dispatch.lean ====
section
/-! DEFINITION. What each instruction does: one arm per constructor of Instr. -/

namespace Sys2Proof.Machine

/-- The meaning of an instruction. -/
def exec (i : Instr) (s : State) : Host.Outcome State Fault Refusal :=
  match i with
  -- level W, the preamble
  | .vcont g => Sys2Proof.Machine.execVcont g s
  | .vlast g => Sys2Proof.Machine.execVlast g s
  -- level W, the tags
  | .lit m => Sys2Proof.Machine.execLit m s
  | .lit1 m => Sys2Proof.Machine.execLit1 m s
  | .lit2 m => Sys2Proof.Machine.execLit2 m s
  | .lit3 m => Sys2Proof.Machine.execLit3 m s
  | .lit4 m => Sys2Proof.Machine.execLit4 m s
  | .copy1 l offset => Sys2Proof.Machine.execCopy1 l offset s
  | .copy2 l offset => Sys2Proof.Machine.execCopy2 l offset s
  | .copy4 l offset => Sys2Proof.Machine.execCopy4 l offset s
  -- level C, the commands
  | .varintEnc => Sys2Proof.Machine.execVarintEnc s
  | .varintDec => Sys2Proof.Machine.execVarintDec s
  | .emitLit => Sys2Proof.Machine.execEmitLit s
  | .emitCopy => Sys2Proof.Machine.execEmitCopy s
  | .tagParse => Sys2Proof.Machine.execTagParse s
  | .findMatchLen => Sys2Proof.Machine.execFindMatchLen s
  | .matchFrag => Sys2Proof.Machine.execMatchFrag s
  | .compress => Sys2Proof.Machine.execCompress s
  | .maxClen => Sys2Proof.Machine.execMaxClen s
  | .uncompress => Sys2Proof.Machine.execUncompress s
  | .getUlen => Sys2Proof.Machine.execGetUlen s
  | .isValid => Sys2Proof.Machine.execIsValid s
  -- level C, the reserved op codes
  | .reserved0 => Sys2Proof.Machine.execReserved0 s
  | .reserved13 => Sys2Proof.Machine.execReserved13 s
  | .reserved14 => Sys2Proof.Machine.execReserved14 s
  | .reserved15 => Sys2Proof.Machine.execReserved15 s

end Sys2Proof.Machine
end

