-- ==== Sys2Proof/Machine/Fetch.lean ====
section
/-! DEFINITION. What a step does around `exec`: fetching the next varint byte or tag of the command in progress, and
taking the next move of the host. -/

namespace Sys2Proof.Machine

/-- The range of `FRAME` the varint decoder reads for the command in progress, if it is decoding: `VARINT_DEC`'s
arguments (40_varint.md R116), or the frame from 0 to its end while the walk is in its preamble (44_lz_decoder.md
R211, R225). -/
def varintRange (s : State) : Option (Nat × Nat) :=
  if s.cmd.op = 2#4 then some (s.cmd.a0, s.cmd.a1)
  else if (s.cmd.op = 10#4 ∨ s.cmd.op = 11#4) ∧ s.dp.state = .idle then some (0, s.dp.endPos)
  else if s.cmd.op = 12#4 ∧ s.fv.state = .idle then some (0, s.fv.endPos)
  else none

/-- The unit whose tag loop runs for the command in progress, if one does (44_lz_decoder.md R212). -/
def taggingUnit (s : State) : Option WalkUnit :=
  if s.cmd.op = 10#4 ∧ s.dp.state = .expectingTag then some .dp
  else if s.cmd.op = 12#4 ∧ s.fv.state = .expectingTag then some .fv
  else none

/-- One step of the varint decoder (40_varint.md R111): if no byte is available `VARINT_TRUNCATED`, with no byte read;
else the byte executes. -/
def stepVarint (pos endPos : Nat) (s : State) : Result :=
  if endPos ≤ pos + s.vd.i.toNat then .next (raiseMalformed .varintTruncated s)
  else
    match readFrame s endPos (pos + s.vd.i.toNat) 1 with
    | .error f => .fault f
    | .ok bs => exec (decodePreamble (bs.headD 0)) s

/-- One step of the tag loop (44_lz_decoder.md R212, R213): the end of the frame, or the tag at `pc`. -/
def stepTag (u : WalkUnit) (s : State) : Result :=
  let w := walkRegs u s
  if w.pc < w.endPos then
    match fetchTag s w.pc w.endPos with
    | .error f => .fault f
    | .ok (.truncated T) => .next (raiseMalformed .tagTruncated (noteKind T s))
    | .ok (.instr i) => exec i s
  else .next (endOfFrame u s)

/-- A step while a command is in progress. -/
def stepBusy (s : State) : Result :=
  match varintRange s with
  | some (pos, endPos) => stepVarint pos endPos s
  | none =>
    match taggingUnit s with
    | some u => stepTag u s
    | none => .fault .busyWithoutProgram

/-- A move of the host is accepted (10_state.md R22, R23): a write of an argument register, a write of `CMD_OP`, which
starts the command, or a byte the host puts into one of its buffers between commands (70_reset_and_hazards.md R297). -/
def hostMove (h : HostMove) (s : State) : Result :=
  match h with
  | .writeOp op => exec (decodeOp op) s
  | .writeA0 v => .next { s with cmd := { s.cmd with a0 := toPos s.params v } }
  | .writeA1 v => .next { s with cmd := { s.cmd with a1 := toPos s.params v } }
  | .writeA2 v => .next { s with cmd := { s.cmd with a2 := toPos s.params v } }
  | .storeIn a b => .next { s with inMem := cellSet s.inMem a.toNat b }
  | .storeFrame a b =>
    if a < 2 ^ s.params.posW then .next { s with frame := cellSet s.frame a b } else .fault .hostStoreOutsideFrame
  | .storeOut a b =>
    if a.toNat < s.params.maxOutputLen.toNat then .next { s with out := cellSet s.out a.toNat b }
    else .fault .hostStoreOutsideOut

/-- A step while no command is in progress: the oldest move the host presents is accepted; with none the block waits
(10_state.md R23, R26). -/
def stepIdle (s : State) : Result :=
  match s.port with
  | [] => .next s
  | h :: rest => hostMove h { s with port := rest }

end Sys2Proof.Machine
end

