-- ==== Sys2Proof/Machine/Step.lean ====
section
/-! DEFINITION. One step of the machine, and how a word comes to be its next instruction. -/

namespace Sys2Proof.Machine

/-- One step (log entry 1): reset while `rst` is asserted (70_reset_and_hazards.md R290); else the next varint byte, tag
or end-of-frame test of the command in progress (44_lz_decoder.md R213); else the next move of the host, which is held
until then (10_state.md R26). -/
def step (s : State) : Host.Outcome State Fault Refusal :=
  if s.rst then .next (applyReset s)
  else if busy s then stepBusy s
  else stepIdle s

/-- The state in which the very next step fetches and runs the instruction of the table word `w` (log entry 14): a
command word is the host's next write of `CMD_OP` to an idle block; a wire word stands in `FRAME` where an `UNCOMPRESS`
in progress fetches next, five bytes wide with zeros above, inside the frame end. -/
def State.withFetchWord (s : State) (nbits w : Nat) : State :=
  match tableContext nbits w with
  | .command =>
    { s with rst := false, rsp := { s.rsp with status := 0 }, port := .writeOp (BitVec.ofNat 4 w) :: s.port }
  | .preamble =>
    { s with
        rst := false
        rsp := { s.rsp with status := statusBusy }
        cmd := { s.cmd with op := 10#4 }
        dp := { s.dp with state := .idle, endPos := max s.dp.endPos (s.vd.i.toNat + 5) }
        frame := cellSetRange s.frame s.vd.i.toNat (leBytes 5 w) }
  | .tag =>
    let endPos := max s.dp.endPos (s.dp.pc + 5)
    { s with
        rst := false
        rsp := { s.rsp with status := statusBusy }
        cmd := { s.cmd with op := 10#4 }
        dp := { s.dp with state := .expectingTag, endPos := endPos }
        frame := cellSetRange s.frame s.dp.pc (leBytes 5 w) }

end Sys2Proof.Machine
end

