-- ==== Sys2Proof/Safety.lean ====
section
/-! DEFINITION. What counts as a safe run, and the functions of the spec that runs are compared with: the invariant of the
machine, runs, and the decoder side's commands as functions (00_scope.md R12). -/

namespace Sys2Proof.Machine

/-- Running from `s`, where a command has just started, the command ends in `t`: `t` is the first state that is not busy
(10_state.md R24; zero steps where the start itself completes the command). -/
def Completes (s t : State) : Prop :=
  ∃ k, Sys2Proof.core.run k s = .next t ∧ busy t = false ∧
    ∀ j, j < k → ∃ u, Sys2Proof.core.run j s = .next u ∧ busy u = true

/-- Two byte spaces read the same at every address. -/
def SameBytes (m m' : List Host.Cell) : Prop := ∀ a, cellGet m' a = cellGet m a

/-- What no instruction touches: the constants of the instance, the reset input, the moves the host still presents, the
argument registers, and every byte of `IN` and `FRAME` (20_memory.md R50, R51; 10_state.md R21, R26). -/
structure HostKept (s t : State) : Prop where
  params : t.params = s.params
  rst : t.rst = s.rst
  port : t.port = s.port
  a0 : t.cmd.a0 = s.cmd.a0
  a1 : t.cmd.a1 = s.cmd.a1
  a2 : t.cmd.a2 = s.cmd.a2
  inMem : SameBytes s.inMem t.inMem
  frame : SameBytes s.frame t.frame

/-- The decoder side is as before: varint decoder, tag parser, both walk units, every byte of `OUT`. -/
structure DecoderKept (s t : State) : Prop where
  vd : t.vd = s.vd
  td : t.td = s.td
  dp : t.dp = s.dp
  fv : t.fv = s.fv
  out : SameBytes s.out t.out

/-- The encoder side is as before: varint encoder, tag encoder, matcher, pipeline, hash table, sink. -/
structure EncoderKept (s t : State) : Prop where
  ve : t.ve = s.ve
  te : t.te = s.te
  hm : t.hm = s.hm
  ep : t.ep = s.ep
  ht : t.ht = s.ht
  sink : t.sink = s.sink

/-- `t` is `s` after `MalformedInput(c)` for the command in progress (60_exceptions.md R264, 45_frame_validator.md R251):
the response, the unit in `ERROR` with its cause, and nothing else but the parser's own registers. -/
structure Raised (c : Cause) (s t : State) : Prop where
  host : HostKept s t
  encoder : EncoderKept s t
  op : t.cmd.op = s.cmd.op
  vd : t.vd = s.vd
  out : SameBytes s.out t.out
  dp : t.dp = if s.cmd.op = 10#4 ∨ s.cmd.op = 11#4 then { s.dp with state := .error, cause := causeCode c } else s.dp
  fv : t.fv = if s.cmd.op = 12#4 then { s.fv with state := .error, cause := causeCode c } else s.fv
  rsp : t.rsp = ⟨if s.cmd.op = 12#4 then statusDone else statusMalformed, causeCode c, 0, 0, 0, 0⟩

/-- Every piece of storage is in canonical form and inside its space (20_memory.md R50 to R52, 10_state.md R31). -/
structure StorageOk (s : State) : Prop where
  inMem : cellsWf (2 ^ 32) s.inMem = true
  frame : cellsWf (2 ^ s.params.posW) s.frame = true
  out : cellsWf s.params.maxOutputLen.toNat s.out = true
  ht : cellsWf (2 ^ Config.htMaxBits) s.ht = true

/-- The response registers say what 10_state.md R22 to R24 and R29 allow: idle, busy, done, `MalformedInput` with a
cause 1 to 11 and no result, `BadCommand` with neither cause nor result, or `IS_VALID`'s result 0 with its cause. -/
def ResponseOk (s : State) : Prop :=
  ((s.rsp.status = 0 ∨ s.rsp.status = statusBusy ∨ s.rsp.status = statusBadCommand) ∧
      s.rsp.cause = 0 ∧ s.rsp.r0 = 0 ∧ s.rsp.r1 = 0 ∧ s.rsp.r2 = 0 ∧ s.rsp.r3 = 0) ∨
    (s.rsp.status = statusMalformed ∧ 1 ≤ s.rsp.cause.toNat ∧ s.rsp.cause.toNat ≤ 11 ∧
      s.rsp.r0 = 0 ∧ s.rsp.r1 = 0 ∧ s.rsp.r2 = 0 ∧ s.rsp.r3 = 0) ∨
    (s.rsp.status = statusDone ∧ s.rsp.cause = 0) ∨
    (s.rsp.status = statusDone ∧ s.cmd.op = 12#4 ∧ 1 ≤ s.rsp.cause.toNat ∧ s.rsp.cause.toNat ≤ 11 ∧
      s.rsp.r0 = 0 ∧ s.rsp.r1 = 0 ∧ s.rsp.r2 = 0 ∧ s.rsp.r3 = 0)

/-- A walk in progress: in its preamble at byte index 0 to 4, or in its tags with the cursor inside the frame and the
output inside the declared length, which is inside the cap (10_state.md R27, R28; 44_lz_decoder.md R211, R212). -/
def WalkOk (s : State) (w : WalkRegs) : Prop :=
  (w.state = .idle ∧ s.vd.i.toNat ≤ 4) ∨
    (w.state = .expectingTag ∧ w.pc ≤ w.endPos ∧ w.produced.toNat ≤ w.declared.toNat ∧
      w.declared.toNat ≤ s.params.maxOutputLen.toNat)

/-- While a command is in progress between two steps, it is one of the four that fetch from `FRAME`. -/
def ProgramOk (s : State) : Prop :=
  busy s = true →
    (s.cmd.op = 2#4 ∧ s.vd.i.toNat ≤ 4) ∨ (s.cmd.op = 10#4 ∧ WalkOk s s.dp) ∨
      (s.cmd.op = 11#4 ∧ s.dp.state = .idle ∧ s.vd.i.toNat ≤ 4) ∨ (s.cmd.op = 12#4 ∧ WalkOk s s.fv)

/-- Every register of `POS_W` bits holds a value that fits in them (10_state.md R22, R27). -/
structure WidthOk (s : State) : Prop where
  a0 : s.cmd.a0 < 2 ^ s.params.posW
  a1 : s.cmd.a1 < 2 ^ s.params.posW
  a2 : s.cmd.a2 < 2 ^ s.params.posW
  r0 : s.rsp.r0 < 2 ^ s.params.posW
  r1 : s.rsp.r1 < 2 ^ s.params.posW
  r2 : s.rsp.r2 < 2 ^ s.params.posW
  r3 : s.rsp.r3 < 2 ^ s.params.posW
  count : s.ep.count < 2 ^ s.params.posW
  dpPc : s.dp.pc < 2 ^ s.params.posW
  dpEnd : s.dp.endPos < 2 ^ s.params.posW
  fvPc : s.fv.pc < 2 ^ s.params.posW
  fvEnd : s.fv.endPos < 2 ^ s.params.posW

/-- A move the host may make: what it writes fits the register, and a store lies inside the space (10_state.md R22;
20_memory.md R51, R52). -/
def HostMoveOk (s : State) : HostMove → Prop
  | .writeOp _ => True
  | .writeA0 v => v < 2 ^ s.params.posW
  | .writeA1 v => v < 2 ^ s.params.posW
  | .writeA2 v => v < 2 ^ s.params.posW
  | .storeIn _ _ => True
  | .storeFrame a _ => a < 2 ^ s.params.posW
  | .storeOut a _ => a.toNat < s.params.maxOutputLen.toNat

/-- The invariant of the machine. -/
structure Inv (s : State) : Prop where
  storage : StorageOk s
  response : ResponseOk s
  width : WidthOk s
  program : ProgramOk s
  port : ∀ h ∈ s.port, HostMoveOk s h

/-- The loop of `VarintDecode` (40_varint.md R111) over bytes read by `rd`; the first number is how many bytes a varint
may still have, `i` how many were taken, `val` the value so far. -/
def varintFrom (rd : Nat → Byte) (pos endPos : Nat) : Nat → Nat → Nat → Except Cause (Nat × Nat)
  | 0, _, _ => .error .varintTooLong
  | left + 1, i, val =>
    if endPos ≤ pos + i then .error .varintTruncated
    else
      let b := (rd (pos + i)).toNat
      if left = 0 ∧ 128 ≤ b then .error .varintTooLong
      else if left = 0 ∧ Config.varintLastMax < b then .error .varintOverflow
      else if b < 128 then .ok (val + b * 128 ^ i, i + 1)
      else varintFrom rd pos endPos left (i + 1) (val + (b - 128) * 128 ^ i)

/-- `VarintDecode(pos, end)` (40_varint.md R111): the value and the number of bytes, or the cause. -/
def varintDecode (rd : Nat → Byte) (pos endPos : Nat) : Except Cause (Nat × Nat) :=
  varintFrom rd pos endPos Config.varintMaxBytes 0 0

/-- The `n` bytes that `rd` reads from an address upwards. -/
def bytesFrom (rd : Nat → Byte) (a n : Nat) : List Byte := (List.range n).map fun j => rd (a + j)

/-- `TagParse(pos, end)` (41_tag_codec.md R140): the fields of the tag, or nothing if its header is cut. -/
def parseTag (rd : Nat → Byte) (pos endPos : Nat) : Option TagFields :=
  if endPos ≤ pos ∨ endPos < pos + headerLen (rd pos) then none
  else
    match decodeTag (bytesFrom rd pos (headerLen (rd pos))) with
    | .ok (i, _) => tagFields i
    | .error _ => none

/-- The forward-repeating copy (20_memory.md R60) on the output so far: `len` times the byte `offset` back is appended. -/
def repeatCopy (offset : Nat) : Nat → List Byte → List Byte
  | 0, out => out
  | len + 1, out => repeatCopy offset len (out ++ [out.getD (out.length - offset) 0])

/-- The tag loop of `Walk` (44_lz_decoder.md R212) on the output so far; the first number bounds its passes. -/
def walkTags (rd : Nat → Byte) (endPos declared : Nat) : Nat → Nat → List Byte → Except Cause (List Byte)
  | 0, _, _ => .error .lengthMismatch
  | fuel + 1, pc, out =>
    if pc < endPos then
      match parseTag rd pc endPos with
      | none => .error .tagTruncated
      | some f =>
        if f.kind = 0 then
          if endPos < pc + f.hdr + f.len then .error .literalTruncated
          else if declared < out.length + f.len then .error .literalOverflow
          else walkTags rd endPos declared fuel (pc + f.hdr + f.len) (out ++ bytesFrom rd (pc + f.hdr) f.len)
        else if f.off = 0 then .error .copyOffsetZero
        else if out.length < f.off then .error .copyOffsetTooFar
        else if declared < out.length + f.len then .error .copyOverflow
        else walkTags rd endPos declared fuel (pc + f.hdr) (repeatCopy f.off f.len out)
    else if out.length = declared then .ok out
    else .error .lengthMismatch

/-- `Walk(end)` (44_lz_decoder.md R211, R212) as a function of the frame's bytes, its length and the cap: the output,
whose length is the declared one, or the cause. -/
def walk (rd : Nat → Byte) (endPos cap : Nat) : Except Cause (List Byte) :=
  match varintDecode rd 0 endPos with
  | .error c => .error c
  | .ok (declared, k) =>
    if cap < declared then .error .lengthCap else walkTags rd endPos declared (endPos + 1) k []

/-- What the events of a fragment rebuild (42_hash_matcher.md R168): a literal appends its bytes, a copy repeats. -/
def replayEvents (rd : Nat → Byte) : List Event → List Byte → List Byte
  | [], out => out
  | .lit start len :: es, out => replayEvents rd es (out ++ bytesFrom rd start len)
  | .copy offset len :: es, out => replayEvents rd es (repeatCopy offset len out)

/-- The bytes an event becomes (42_hash_matcher.md R165, 41_tag_codec.md R131, R134). -/
def eventBytes (rd : Nat → Byte) (base : Nat) : Event → List Byte
  | .lit start len => literalHeader len ++ bytesFrom rd (base + start) len
  | .copy offset len => copyBytes offset len

end Sys2Proof.Machine
end

