-- ==== Sys2Proof/Certificates/Slice0/Obligations.lean ====
section
/-! DEFINITION. The statements for the provers. Each docstring names the rule of spec/ it is about. -/

open Sys2Proof Sys2Proof.Machine

/-! ## Reset and the invariant -/

/-- 10_state.md R34, 70_reset_and_hazards.md R291: whatever the machine was doing, asserting `rst` leaves every register
the spec gives a reset value at that value, no command in progress (`done` stays 0), and the host's spaces and the pushed
bytes as they were; and `State.reset` has the same register values. `CMD_*` and `HT`, for which the spec gives none, are
not spoken of. That one step is the whole reset, and that it drops every move the host presents, its buffer stores
included, is the model's reading, log entry 3. -/
def Obligations.ResetLeavesTheSpecifiedValues : Prop :=
  (∀ s : State, s.rst = true →
    ∃ t, step s = .next t ∧ t.params = s.params ∧ t.port = [] ∧ t.rsp = ⟨0, 0, 0, 0, 0, 0⟩ ∧ t.ve = ⟨0, 0⟩ ∧
      t.vd = ⟨0, 0⟩ ∧ t.te = ⟨0, 0⟩ ∧ t.td = ⟨0, 0, 0, 0⟩ ∧ t.hm = ⟨0, 0, 0, 0, 0, 0⟩ ∧ t.ep = ⟨0, 0, 0, 0⟩ ∧
      t.dp = ⟨.idle, 0, 0, 0, 0, 0⟩ ∧ t.fv = ⟨.idle, 0, 0, 0, 0, 0⟩ ∧ t.sink = s.sink ∧
      SameBytes s.inMem t.inMem ∧ SameBytes s.frame t.frame ∧ SameBytes s.out t.out) ∧
    State.reset.rsp = ⟨0, 0, 0, 0, 0, 0⟩ ∧ State.reset.ve = ⟨0, 0⟩ ∧ State.reset.vd = ⟨0, 0⟩ ∧
    State.reset.te = ⟨0, 0⟩ ∧ State.reset.td = ⟨0, 0, 0, 0⟩ ∧ State.reset.hm = ⟨0, 0, 0, 0, 0, 0⟩ ∧
    State.reset.ep = ⟨0, 0, 0, 0⟩ ∧ State.reset.dp = ⟨.idle, 0, 0, 0, 0, 0⟩ ∧
    State.reset.fv = ⟨.idle, 0, 0, 0, 0, 0⟩ ∧ State.reset.port = []

/-- The invariant holds after reset, whatever the constants of the instance. The storage it starts from is the model's
choice, log entry 4. -/
def Obligations.ResetMeetsTheInvariant : Prop := ∀ p : Params, Inv (State.resetOf p)

/-- 20_memory.md R51, R52; 44_lz_decoder.md R226; 10_state.md R22, R24, R27 to R29; 00_scope.md R8: for every `POS_W`,
`MAX_OUTPUT_LEN` and `Hash`, from every state that meets the invariant a step answers a next state, which meets it too: no
read of `FRAME` at or past the end, no access of `OUT` outside its bounds, no busy state without a command, storage in
canonical form inside its spaces, every register of `POS_W` bits inside its width, only legal responses. -/
def Obligations.EveryStepAnswersAndKeepsTheInvariant : Prop := ∀ s : State, Inv s → ∃ t, step s = .next t ∧ Inv t

/-! ## Decoding -/

/-- 44_lz_decoder.md R213, 40_varint.md R111, 10_state.md R23: a step runs the decoded instruction. With `rst` low: in an
idle block the op code the host writes, the write being taken from the port, whose list of moves, oldest first, is the
model's choice (log entry 2); in a varint the byte at the decoder's position, if it lies before the end; in the tag stream
the tag whose header stands at `pc`, if it lies before the end. -/
def Obligations.StepRunsTheDecodedInstruction : Prop :=
  ∀ s : State, s.rst = false →
    (∀ op rest i, busy s = false → s.port = .writeOp op :: rest →
      decode .command [BitVec.ofNat 8 op.toNat] = .ok (i, []) → step s = exec i { s with port := rest }) ∧
    (∀ pos endPos i, busy s = true → varintRange s = some (pos, endPos) → pos + s.vd.i.toNat < endPos →
      decode .preamble [cellGet s.frame (pos + s.vd.i.toNat)] = .ok (i, []) → step s = exec i s) ∧
    (∀ u n i, busy s = true → taggingUnit s = some u → 1 ≤ n →
      (walkRegs u s).pc + n ≤ (walkRegs u s).endPos →
      decode .tag (cellRange s.frame (walkRegs u s).pc n) = .ok (i, []) → WellFormed i ∧ step s = exec i s)

/-- Where the three kinds of fetch find their program: `VARINT_DEC` the range of its arguments, a command of the decoder
side the frame from 0 while its unit is idle, `UNCOMPRESS` and `IS_VALID` the tag stream while their unit expects a tag
(40_varint.md R116, 44_lz_decoder.md R211, R212, R225, 45_frame_validator.md R251). -/
def Obligations.EachCommandFetchesFromItsProgram : Prop :=
  ∀ s : State,
    (s.cmd.op = 2#4 → varintRange s = some (s.cmd.a0, s.cmd.a1)) ∧
    (s.cmd.op = 10#4 ∨ s.cmd.op = 11#4 → s.dp.state = .idle → varintRange s = some (0, s.dp.endPos)) ∧
    (s.cmd.op = 12#4 → s.fv.state = .idle → varintRange s = some (0, s.fv.endPos)) ∧
    (s.cmd.op = 10#4 → s.dp.state = .expectingTag → varintRange s = none ∧ taggingUnit s = some .dp) ∧
    (s.cmd.op = 12#4 → s.fv.state = .expectingTag → varintRange s = none ∧ taggingUnit s = some .fv)

/-- Words written out from the encodings of the spec decode to the instructions they stand for (95_test_vectors.md 2.5,
V-E1, V-E2, V-E5; 40_varint.md R110; 30_encoding.md R100). The layout of the copy tags is presumed, log entry 8. -/
def Obligations.SpecifiedWordsDecode : Prop :=
  decode .tag [0x12#8, 0x00#8, 0x00#8] = .ok (.copy2 4 0, []) ∧
    decode .tag [0xFD#8, 0xFF#8] = .ok (.copy1 7 2047, []) ∧
    decode .tag [0x0F#8, 0x01#8, 0x00#8, 0x01#8, 0x00#8] = .ok (.copy4 3 65537, []) ∧
    decode .tag [0x00#8, 0x61#8] = .ok (.lit 0, [0x61#8]) ∧
    decode .tag [0xF8#8, 0x00#8, 0x00#8, 0x01#8] = .ok (.lit3 65536, []) ∧
    decode .preamble [0xAC#8, 0x02#8] = .ok (.vcont 0x2C, [0x02#8]) ∧
    decode .command [0x0A#8] = .ok (.uncompress, [])

/-- Decoding the bytes of a well-formed instruction gives it back, every field at every value, and leaves what follows. -/
def Obligations.DecodeInvertsEncode : Prop :=
  ∀ (i : Instr) (rest : List Byte), WellFormed i → decode (contextOf i) (encode i ++ rest) = .ok (i, rest)

/-- Each word has one meaning: what decodes to an instruction is that instruction's encoding, in its own context, and the
instruction is well-formed. -/
def Obligations.EncodeInvertsDecode : Prop :=
  ∀ (c : FetchContext) (bs rest : List Byte) (i : Instr),
    decode c bs = .ok (i, rest) → WellFormed i ∧ contextOf i = c ∧ encode i ++ rest = bs

/-- 30_encoding.md R82, R84 to R88, R90, R91: which bits of a byte of the preamble or of a tag are which operand, for
every value of the bytes, and what length, offset and header size the operands mean. -/
def Obligations.EncodedFieldsAreTheOperands : Prop :=
  (∀ (b : Byte) (r : List Byte),
    (128 ≤ b.toNat → ∃ g, decode .preamble (b :: r) = .ok (.vcont g, r) ∧ g.toNat = b.toNat - 128) ∧
    (b.toNat < 128 → ∃ g, decode .preamble (b :: r) = .ok (.vlast g, r) ∧ g.toNat = b.toNat)) ∧
  (∀ (T : Byte) (r : List Byte), T.toNat % 4 = 0 → T.toNat / 4 ≤ 59 →
    ∃ m, decode .tag (T :: r) = .ok (.lit m, r) ∧ tagFields (.lit m) = some ⟨0, T.toNat / 4 + 1, 0, 1⟩) ∧
  (∀ (b₁ b₂ b₃ b₄ : Byte) (r : List Byte),
    (∃ m, decode .tag (0xF0#8 :: b₁ :: r) = .ok (.lit1 m, r) ∧ tagFields (.lit1 m) = some ⟨0, b₁.toNat + 1, 0, 2⟩) ∧
    (∃ m, decode .tag (0xF4#8 :: b₁ :: b₂ :: r) = .ok (.lit2 m, r) ∧
      tagFields (.lit2 m) = some ⟨0, b₁.toNat + 256 * b₂.toNat + 1, 0, 3⟩) ∧
    (∃ m, decode .tag (0xF8#8 :: b₁ :: b₂ :: b₃ :: r) = .ok (.lit3 m, r) ∧
      tagFields (.lit3 m) = some ⟨0, b₁.toNat + 256 * b₂.toNat + 65536 * b₃.toNat + 1, 0, 4⟩) ∧
    (∃ m, decode .tag (0xFC#8 :: b₁ :: b₂ :: b₃ :: b₄ :: r) = .ok (.lit4 m, r) ∧
      tagFields (.lit4 m) =
        some ⟨0, b₁.toNat + 256 * b₂.toNat + 65536 * b₃.toNat + 16777216 * b₄.toNat + 1, 0, 5⟩)) ∧
  (∀ (T b₁ b₂ b₃ b₄ : Byte) (r : List Byte),
    (T.toNat % 4 = 1 → ∃ l o, decode .tag (T :: b₁ :: r) = .ok (.copy1 l o, r) ∧
      tagFields (.copy1 l o) = some ⟨1, T.toNat / 4 % 8 + 4, T.toNat / 32 * 256 + b₁.toNat, 2⟩) ∧
    (T.toNat % 4 = 2 → ∃ l o, decode .tag (T :: b₁ :: b₂ :: r) = .ok (.copy2 l o, r) ∧
      tagFields (.copy2 l o) = some ⟨2, T.toNat / 4 + 1, b₁.toNat + 256 * b₂.toNat, 3⟩) ∧
    (T.toNat % 4 = 3 → ∃ l o, decode .tag (T :: b₁ :: b₂ :: b₃ :: b₄ :: r) = .ok (.copy4 l o, r) ∧
      tagFields (.copy4 l o) =
        some ⟨3, T.toNat / 4 + 1, b₁.toNat + 256 * b₂.toNat + 65536 * b₃.toNat + 16777216 * b₄.toNat, 5⟩))

/-- 30_encoding.md R89, R91: the header length is a function of the tag byte alone; with that many bytes every tag byte
decodes, with fewer none does. -/
def Obligations.TagByteGivesTheHeaderLength : Prop :=
  ∀ (T : Byte) (r : List Byte),
    headerLen T =
      (if T.toNat % 4 = 1 then 2 else if T.toNat % 4 = 2 then 3 else if T.toNat % 4 = 3 then 5
        else if T.toNat / 4 ≤ 59 then 1 else 1 + (T.toNat / 4 - 59)) ∧
    (headerLen T ≤ r.length + 1 →
      ∃ i, decode .tag (T :: r) = .ok (i, r.drop (headerLen T - 1)) ∧ (encode i).length = headerLen T) ∧
    (r.length + 1 < headerLen T → decode .tag (T :: r) = .error .headerTruncated)

/-! ## Whole-machine rules -/

/-- 20_memory.md R50, R51, R66; 10_state.md R21, R26: no instruction writes a byte of `IN` or `FRAME`, a constant of the
instance, an argument register or a move the host still presents. -/
def Obligations.NoInstructionWritesWhatTheHostOwns : Prop :=
  ∀ (i : Instr) (s t : State), exec i s = .next t → HostKept s t

/-- 20_memory.md R52 to R54, 10_state.md R27: which instructions may change what. `OUT` is written only by tags, and by
none while the validator runs; the hash table and the matcher's registers only by `MATCH_FRAG` and `COMPRESS`; the sink
and `EP` only by the five commands that push; `VE` only by `VARINT_ENC` and `COMPRESS`; `TE` only by `EMIT_COPY`,
`MATCH_FRAG` and `COMPRESS`; `VD` only by varint bytes and the four commands that start them; `TD` only by tags and
`TAG_PARSE`; `DP` and `FV` only by the commands of their unit and the bytes and tags these fetch. -/
def Obligations.UnitsKeepToTheirOwnState : Prop :=
  ∀ (i : Instr) (s t : State), exec i s = .next t →
    (contextOf i ≠ .tag ∨ s.cmd.op = 12#4 → SameBytes s.out t.out) ∧
    (i ≠ .matchFrag ∧ i ≠ .compress → t.ht = s.ht ∧ t.hm = s.hm) ∧
    (i ≠ .varintEnc ∧ i ≠ .emitLit ∧ i ≠ .emitCopy ∧ i ≠ .matchFrag ∧ i ≠ .compress → t.sink = s.sink ∧ t.ep = s.ep) ∧
    (i ≠ .varintEnc ∧ i ≠ .compress → t.ve = s.ve) ∧
    (i ≠ .emitCopy ∧ i ≠ .matchFrag ∧ i ≠ .compress → t.te = s.te) ∧
    (contextOf i ≠ .preamble ∧ i ≠ .varintDec ∧ i ≠ .uncompress ∧ i ≠ .getUlen ∧ i ≠ .isValid → t.vd = s.vd) ∧
    (contextOf i ≠ .tag ∧ i ≠ .tagParse → t.td = s.td) ∧
    (contextOf i = .command ∧ i ≠ .uncompress ∧ i ≠ .getUlen → t.dp = s.dp) ∧
    (contextOf i = .command ∧ i ≠ .isValid → t.fv = s.fv) ∧
    (contextOf i ≠ .command ∧ s.cmd.op = 12#4 → t.dp = s.dp) ∧
    (contextOf i ≠ .command ∧ s.cmd.op ≠ 12#4 → t.fv = s.fv)

/-- 10_state.md R26: while a command is in progress the port is not read: what the host presents stays presented, and
the op code and the arguments of the running command do not change under it. R26 says so of the register writes; that
the host's buffer stores stand in the same port and are held with them is the model's choice, log entry 2. -/
def Obligations.BusyBlockHoldsThePort : Prop :=
  ∀ s t : State, s.rst = false → busy s = true → step s = .next t → t.port = s.port ∧ t.cmd = s.cmd

/-- 10_state.md R22, R23: an idle block with nothing presented stays as it is, and a value of `POS_W` bits written to an
argument register stands in it after. That a wider value leaves its low `POS_W` bits there is the model's reading, log
entry 6. That the host's moves come in a list, the oldest first and one a step, and that a byte the host puts into one of
its own spaces is such a move, is the model's choice, log entry 2; such a store changes that byte and no other. -/
def Obligations.IdleBlockAcceptsTheOldestMove : Prop :=
  ∀ s : State, s.rst = false → busy s = false →
    (s.port = [] → step s = .next s) ∧
    (∀ v rest, s.port = .writeA0 v :: rest →
      step s = .next { s with port := rest, cmd := { s.cmd with a0 := toPos s.params v } }) ∧
    (∀ v rest, s.port = .writeA1 v :: rest →
      step s = .next { s with port := rest, cmd := { s.cmd with a1 := toPos s.params v } }) ∧
    (∀ v rest, s.port = .writeA2 v :: rest →
      step s = .next { s with port := rest, cmd := { s.cmd with a2 := toPos s.params v } }) ∧
    (∀ a b rest, s.port = .storeIn a b :: rest → ∃ m, step s = .next { s with port := rest, inMem := m } ∧
      cellGet m a.toNat = b ∧ ∀ x, x ≠ a.toNat → cellGet m x = cellGet s.inMem x) ∧
    (∀ a b rest, s.port = .storeFrame a b :: rest → a < 2 ^ s.params.posW →
      ∃ m, step s = .next { s with port := rest, frame := m } ∧
        cellGet m a = b ∧ ∀ x, x ≠ a → cellGet m x = cellGet s.frame x) ∧
    (∀ a b rest, s.port = .storeOut a b :: rest → a.toNat < s.params.maxOutputLen.toNat →
      ∃ m, step s = .next { s with port := rest, out := m } ∧
        cellGet m a.toNat = b ∧ ∀ x, x ≠ a.toNat → cellGet m x = cellGet s.out x)

/-- 10_state.md R22: the host reads the response registers by their numbers 4 to 9; the command registers are write only
and the other numbers absent. -/
def Obligations.HostReadsTheResponseRegisters : Prop :=
  ∀ s : State,
    (∃ v, hostRead 4 s = some v ∧
      v = (busy s).toNat + 2 * (done s).toNat + 4 * (err s).toNat + 8 * (cmdErr s).toNat) ∧
    (∃ v, hostRead 5 s = some v ∧ v = s.rsp.cause.toNat) ∧
    hostRead 6 s = some s.rsp.r0 ∧ hostRead 7 s = some s.rsp.r1 ∧ hostRead 8 s = some s.rsp.r2 ∧
    hostRead 9 s = some s.rsp.r3 ∧ ∀ n, n < 4 ∨ 9 < n → hostRead n s = none

/-! ## Commands turned away -/

/-- 30_encoding.md R100: the sixteen operation codes; a reserved one completes at once with `BadCommand` and changes
nothing else. -/
def Obligations.OperationCodesSelectTheCommands : Prop :=
  ([0, 1, 2, 3, 4, 5, 6, 7, 8, 9, 10, 11, 12, 13, 14, 15] : List (BitVec 4)).map decodeOp =
      [.reserved0, .varintEnc, .varintDec, .emitLit, .emitCopy, .tagParse, .findMatchLen, .matchFrag, .compress,
        .maxClen, .uncompress, .getUlen, .isValid, .reserved13, .reserved14, .reserved15] ∧
    ∀ s : State,
      exec .reserved0 s = .next { s with cmd := { s.cmd with op := 0#4 }, rsp := ⟨0b1010#4, 0, 0, 0, 0, 0⟩ } ∧
      exec .reserved13 s = .next { s with cmd := { s.cmd with op := 13#4 }, rsp := ⟨0b1010#4, 0, 0, 0, 0, 0⟩ } ∧
      exec .reserved14 s = .next { s with cmd := { s.cmd with op := 14#4 }, rsp := ⟨0b1010#4, 0, 0, 0, 0, 0⟩ } ∧
      exec .reserved15 s = .next { s with cmd := { s.cmd with op := 15#4 }, rsp := ⟨0b1010#4, 0, 0, 0, 0, 0⟩ }

/-- 60_exceptions.md R266: a reserved op code, and an argument above its width or outside its precondition, is
`BadCommand`: `cmd_err`, cause 0, results 0, and no working register, byte of memory, pushed byte or table entry changes. -/
def Obligations.BadArgumentsAreBadCommand : Prop :=
  ∀ (i : Instr) (op : BitVec 4) (s : State),
    ((i = .reserved0 ∧ op = 0#4) ∨ (i = .reserved13 ∧ op = 13#4) ∨ (i = .reserved14 ∧ op = 14#4) ∨
      (i = .reserved15 ∧ op = 15#4) ∨ (i = .varintEnc ∧ op = 1#4 ∧ 2 ^ 32 ≤ s.cmd.a0) ∨
      (i = .varintDec ∧ op = 2#4 ∧ s.cmd.a1 < s.cmd.a0) ∨
      (i = .emitLit ∧ op = 3#4 ∧ (2 ^ 32 ≤ s.cmd.a0 ∨ 2 ^ 32 ≤ s.cmd.a1 ∨ s.cmd.a0 = 0 ∨
        2 ^ 32 < s.cmd.a1 + s.cmd.a0)) ∨
      (i = .emitCopy ∧ op = 4#4 ∧ (2 ^ 32 ≤ s.cmd.a0 ∨ 2 ^ 32 ≤ s.cmd.a1 ∨ s.cmd.a0 = 0 ∨
        s.cmd.a1 < 4)) ∨
      (i = .tagParse ∧ op = 5#4 ∧ s.cmd.a1 < s.cmd.a0) ∨
      (i = .findMatchLen ∧ op = 6#4 ∧ (2 ^ 32 ≤ s.cmd.a0 ∨ 2 ^ 32 ≤ s.cmd.a1 ∨
        2 ^ 33 ≤ s.cmd.a2 ∨ s.cmd.a1 < s.cmd.a0 ∨ s.cmd.a2 < s.cmd.a1 ∨
        2 ^ 32 < s.cmd.a2)) ∨
      (i = .matchFrag ∧ op = 7#4 ∧ (2 ^ 32 ≤ s.cmd.a0 ∨ 2 ^ 17 ≤ s.cmd.a1 ∨ s.cmd.a1 = 0 ∨
        65536 < s.cmd.a1 ∨ 2 ^ 32 < s.cmd.a0 + s.cmd.a1)) ∨
      (i = .compress ∧ op = 8#4 ∧ 2 ^ 32 ≤ s.cmd.a0) ∨
      (i = .maxClen ∧ op = 9#4 ∧ 2 ^ 32 ≤ s.cmd.a0)) →
    exec i s = .next { s with cmd := { s.cmd with op := op }, rsp := ⟨0b1010#4, 0, 0, 0, 0, 0⟩ }

/-! ## Varints -/

/-- 40_varint.md R112: at byte index 0 to 3 `VCONT` takes its seven bits and goes on; at index 4 it raises
`VARINT_TOO_LONG` and has no other effect. -/
def Obligations.VcontTakesSevenBitsOrIsTooLong : Prop :=
  ∀ (g : BitVec 7) (s : State),
    (s.vd.i.toNat ≤ 3 → exec (.vcont g) s = .next
      { s with vd := ⟨s.vd.val ||| BitVec.ofNat 32 (g.toNat <<< (7 * s.vd.i.toNat)), s.vd.i + 1⟩ }) ∧
    (s.vd.i.toNat = 4 → ∃ t, exec (.vcont g) s = .next t ∧ Raised .varintTooLong s t ∧ t.td = s.td)

/-- 40_varint.md R114: at byte index 4 a `VLAST` above 0F raises `VARINT_OVERFLOW`; any other takes its seven bits and
ends the varint with `VD.val` and `k = i + 1`, which `VARINT_DEC` (R116) and `GET_ULEN` (44_lz_decoder.md R225) return.
What the end of the varint does in a walk is `PreambleEndsInTagsOrLengthCap`. -/
def Obligations.VlastEndsTheVarint : Prop :=
  ∀ (g : BitVec 7) (s : State), s.vd.i.toNat ≤ 4 →
    (s.vd.i.toNat = 4 ∧ 0x0F < g.toNat → ∃ t, exec (.vlast g) s = .next t ∧ Raised .varintOverflow s t ∧ t.td = s.td) ∧
    (¬ (s.vd.i.toNat = 4 ∧ 0x0F < g.toNat) → ∃ t, exec (.vlast g) s = .next t ∧
      t.vd = ⟨s.vd.val ||| BitVec.ofNat 32 (g.toNat <<< (7 * s.vd.i.toNat)), s.vd.i + 1⟩) ∧
    (¬ (s.vd.i.toNat = 4 ∧ 0x0F < g.toNat) → s.cmd.op = 2#4 ∨ s.cmd.op = 11#4 →
      exec (.vlast g) s = .next
        { s with
            vd := ⟨s.vd.val ||| BitVec.ofNat 32 (g.toNat <<< (7 * s.vd.i.toNat)), s.vd.i + 1⟩
            rsp :=
              ⟨0b0010#4, 0, (s.vd.val ||| BitVec.ofNat 32 (g.toNat <<< (7 * s.vd.i.toNat))).toNat,
                if s.cmd.op = 2#4 then (s.vd.i + 1).toNat else 0, 0, 0⟩ })

/-- 44_lz_decoder.md R211, R223: the end of the preamble of a walk: within the cap the unit holds the declared length, no
output, the cursor after the preamble, and expects a tag; above it `LENGTH_CAP`, before any access to `OUT`. -/
def Obligations.PreambleEndsInTagsOrLengthCap : Prop :=
  ∀ (g : BitVec 7) (s : State) (u : WalkUnit), s.vd.i.toNat ≤ 4 → ¬ (s.vd.i.toNat = 4 ∧ 0x0F < g.toNat) →
    (s.cmd.op = 10#4 ∧ u = .dp ∨ s.cmd.op = 12#4 ∧ u = .fv) →
    let L := s.vd.val ||| BitVec.ofNat 32 (g.toNat <<< (7 * s.vd.i.toNat))
    let s₁ := { s with vd := ⟨L, s.vd.i + 1⟩ }
    (L.toNat ≤ s.params.maxOutputLen.toNat → exec (.vlast g) s = .next
      (setWalk u { walkRegs u s with
        state := .expectingTag, declared := L, produced := 0, pc := (s.vd.i + 1).toNat } s₁)) ∧
    (s.params.maxOutputLen.toNat < L.toNat → ∃ t, exec (.vlast g) s = .next t ∧ Raised .lengthCap s₁ t ∧ t.td = s.td)

/-- 40_varint.md R117, R110: `VARINT_ENC` pushes 1 to 5 bytes that carry the value in groups of seven bits, bit 7 set on
all but the last, with no superfluous last group, and returns their number. -/
def Obligations.VarintEncPushesTheMinimalVarint : Prop :=
  ∀ s : State, s.cmd.a0 < 2 ^ 32 →
    ∃ (t : State) (bs : List Byte), exec .varintEnc s = .next t ∧ t.cmd.op = 1#4 ∧ t.sink = s.sink ++ bs ∧
      t.rsp = ⟨0b0010#4, 0, bs.length, 0, 0, 0⟩ ∧ 1 ≤ bs.length ∧ bs.length ≤ 5 ∧
      (∀ j (h : j < bs.length), bs[j].toNat / 128 = if j + 1 = bs.length then 0 else 1) ∧
      s.cmd.a0 = (bs.mapIdx fun j b => b.toNat % 128 * 128 ^ j).sum ∧
      (1 < bs.length → bs.getLast? ≠ some 0#8) ∧
      t.ep = { s.ep with count := bs.length } ∧ HostKept s t ∧ DecoderKept s t ∧ t.te = s.te ∧
      t.hm = s.hm ∧ t.ht = s.ht

/-- 40_varint.md R111, R115: `VarintDecode` as a function succeeds exactly on 1 to 5 bytes before the end whose last alone
has bit 7 clear and whose groups make a value below 2^32, minimal or not, and gives that value and their number. -/
def Obligations.VarintDecodeAcceptsExactlyTheVarints : Prop :=
  ∀ (rd : Nat → Byte) (pos endPos v k : Nat),
    varintDecode rd pos endPos = .ok (v, k) ↔
      1 ≤ k ∧ k ≤ 5 ∧ pos + k ≤ endPos ∧ (∀ j, j < k → ((rd (pos + j)).toNat < 128 ↔ j + 1 = k)) ∧
        v = ((List.range k).map fun j => (rd (pos + j)).toNat % 128 * 128 ^ j).sum ∧ v < 2 ^ 32

/-- 40_varint.md R113: which cause a varint that is no varint has: `VARINT_TRUNCATED` if the end comes within five bytes
before a last byte; otherwise the fifth byte decides, continuation before overflow. -/
def Obligations.VarintErrorsComeInTheirOrder : Prop :=
  ∀ (rd : Nat → Byte) (pos endPos : Nat) (c : Cause),
    varintDecode rd pos endPos = .error c ↔
      (c = .varintTruncated ∧ endPos < pos + 5 ∧ ∀ j, pos + j < endPos → 128 ≤ (rd (pos + j)).toNat) ∨
      (pos + 5 ≤ endPos ∧ (∀ j, j < 4 → 128 ≤ (rd (pos + j)).toNat) ∧
        ((c = .varintTooLong ∧ 128 ≤ (rd (pos + 4)).toNat) ∨
          (c = .varintOverflow ∧ (rd (pos + 4)).toNat < 128 ∧ 0x0F < (rd (pos + 4)).toNat)))

/-- 40_varint.md R118: what `VARINT_ENC` pushes for a value decodes to it with its own length; and the encoding of a
decoded value is no longer than what was decoded, with equality exactly when that was the encoding itself. -/
def Obligations.VarintsRoundTrip : Prop :=
  (∀ (rd : Nat → Byte) (pos endPos v : Nat), v < 2 ^ 32 → pos + (varintEncode v).length ≤ endPos →
    (∀ j (h : j < (varintEncode v).length), rd (pos + j) = (varintEncode v)[j]) →
    varintDecode rd pos endPos = .ok (v, (varintEncode v).length)) ∧
  (∀ (rd : Nat → Byte) (pos endPos v k : Nat), varintDecode rd pos endPos = .ok (v, k) →
    (varintEncode v).length ≤ k ∧
      ((varintEncode v).length = k ↔ bytesFrom rd pos k = varintEncode v))

/-- 40_varint.md R116: `VARINT_DEC` starts, fetches the bytes of its range one a step, and completes with the value and
the number of bytes of `VarintDecode`, or with `MalformedInput` and its cause. -/
def Obligations.VarintDecCompletesWithTheDecodedValue : Prop :=
  ∀ s : State, s.rst = false → s.cmd.a0 ≤ s.cmd.a1 →
    ∃ t₀ t, exec .varintDec s = .next t₀ ∧ Completes t₀ t ∧
      (t.rsp =
        match varintDecode (cellGet s.frame) s.cmd.a0 s.cmd.a1 with
        | .ok (v, k) => ⟨0b0010#4, 0, v, k, 0, 0⟩
        | .error c => ⟨0b0110#4, causeCode c, 0, 0, 0, 0⟩) ∧
      HostKept s t ∧ EncoderKept s t ∧ t.td = s.td ∧ t.dp = s.dp ∧ t.fv = s.fv ∧ SameBytes s.out t.out

/-! ## Tags: emitting and parsing -/

/-- 41_tag_codec.md R132, R131: `EMIT_LIT` pushes the canonical header of the run length, then the bytes of `IN`, and
returns how many it pushed. -/
def Obligations.EmitLitPushesHeaderAndPayload : Prop :=
  ∀ s : State, 1 ≤ s.cmd.a0 → s.cmd.a0 < 2 ^ 32 → s.cmd.a1 + s.cmd.a0 ≤ 2 ^ 32 →
    s.cmd.a1 < 2 ^ 32 →
    ∃ (t : State) (hdr payload : List Byte), exec .emitLit s = .next t ∧ t.cmd.op = 3#4 ∧
      t.sink = s.sink ++ (hdr ++ payload) ∧
      t.rsp = ⟨0b0010#4, 0, (hdr.length + s.cmd.a0), 0, 0, 0⟩ ∧
      payload = bytesFrom (cellGet s.inMem) s.cmd.a1 s.cmd.a0 ∧
      (s.cmd.a0 ≤ 60 → hdr = [BitVec.ofNat 8 ((s.cmd.a0 - 1) * 4)]) ∧
      (60 < s.cmd.a0 → ∃ k ext, 1 ≤ k ∧ k ≤ 4 ∧ hdr = BitVec.ofNat 8 ((59 + k) * 4) :: ext ∧ ext.length = k ∧
        leNat ext = s.cmd.a0 - 1 ∧ (1 < k → 256 ^ (k - 1) ≤ s.cmd.a0 - 1)) ∧
      t.ep = { s.ep with count := (hdr.length + s.cmd.a0) } ∧ HostKept s t ∧ DecoderKept s t ∧
      t.ve = s.ve ∧ t.te = s.te ∧ t.hm = s.hm ∧ t.ht = s.ht

/-- 41_tag_codec.md R135, R134: `EMIT_COPY` pushes pieces that all carry the offset and add up to the length: 64 each
while at least 68 remain, then 60 and the rest when 65 to 67 remain, else the rest. -/
def Obligations.EmitCopyPushesThePieces : Prop :=
  ∀ s : State, 1 ≤ s.cmd.a0 → s.cmd.a0 < 2 ^ 32 → 4 ≤ s.cmd.a1 → s.cmd.a1 < 2 ^ 32 →
    ∃ (t : State) (q r : Nat) (tail : List Nat), exec .emitCopy s = .next t ∧ t.cmd.op = 4#4 ∧
      (tail = [r] ∧ 4 ≤ r ∧ r ≤ 64 ∨ tail = [60, r] ∧ 5 ≤ r ∧ r ≤ 7) ∧
      64 * q + tail.sum = s.cmd.a1 ∧
      (let bs := (List.replicate q 64 ++ tail).flatMap (oneCopyBytes s.cmd.a0)
       t.sink = s.sink ++ bs ∧ t.rsp = ⟨0b0010#4, 0, bs.length, 0, 0, 0⟩ ∧
         t.ep = { s.ep with count := bs.length }) ∧
      HostKept s t ∧ DecoderKept s t ∧ t.ve = s.ve ∧ t.hm = s.hm ∧ t.ht = s.ht

/-- 41_tag_codec.md R142, R133: parsing inverts emitting. The header of a literal parses back to its run length, one copy
to its offset and length, in the tightest of the three forms; the parser leaves what follows. -/
def Obligations.ParseInvertsEmit : Prop :=
  (∀ (runLen : Nat) (rest : List Byte), 1 ≤ runLen → runLen < 2 ^ 32 →
    ∃ i, decode .tag (literalHeader runLen ++ rest) = .ok (i, rest) ∧
      tagFields i = some ⟨0, runLen, 0, (literalHeader runLen).length⟩) ∧
  (∀ (offset len : Nat) (rest : List Byte), 1 ≤ offset → offset < 2 ^ 32 → 4 ≤ len → len ≤ 64 →
    ∃ i, decode .tag (oneCopyBytes offset len ++ rest) = .ok (i, rest) ∧
      tagFields i = some
        (if len ≤ 11 ∧ offset < 2048 then ⟨1, len, offset, 2⟩
          else if offset < 65536 then ⟨2, len, offset, 3⟩ else ⟨3, len, offset, 5⟩) ∧
      (oneCopyBytes offset len).length =
        (if len ≤ 11 ∧ offset < 2048 then 2 else if offset < 65536 then 3 else 5))

/-- 41_tag_codec.md R141, R140: `TAG_PARSE` returns kind, length, offset and header bytes of the tag whose header lies in
the range, judging none of them; a header that does not, and an empty range, is `TAG_TRUNCATED`. -/
def Obligations.TagParseReturnsTheFields : Prop :=
  ∀ s : State, s.cmd.a0 ≤ s.cmd.a1 →
    let pos := s.cmd.a0
    let endPos := s.cmd.a1
    let T := cellGet s.frame pos
    (∀ i f, pos + headerLen T ≤ endPos → decode .tag (cellRange s.frame pos (headerLen T)) = .ok (i, []) →
      tagFields i = some f →
      ∃ t, exec .tagParse s = .next t ∧ t.cmd.op = 5#4 ∧
        t.rsp = ⟨0b0010#4, 0, f.kind, f.len, f.off, f.hdr⟩ ∧
        t.td = tagRegs f ∧ HostKept s t ∧ EncoderKept s t ∧ t.vd = s.vd ∧ t.dp = s.dp ∧ t.fv = s.fv ∧ SameBytes s.out t.out) ∧
    (endPos < pos + headerLen T →
      ∃ t, exec .tagParse s = .next t ∧ Raised .tagTruncated { s with cmd := { s.cmd with op := 5#4 } } t)

/-! ## Matcher and encoder -/

/-- 42_hash_matcher.md R164, R163: `FIND_MATCH_LEN` returns the one ℓ up to `q_end - q` such that the bytes agree before ℓ
and either the bound is met or they differ at ℓ; nothing else changes. -/
def Obligations.FindMatchLenReturnsTheCommonPrefix : Prop :=
  ∀ s : State, s.cmd.a0 ≤ s.cmd.a1 → s.cmd.a1 < 2 ^ 32 → s.cmd.a1 ≤ s.cmd.a2 →
    s.cmd.a2 ≤ 2 ^ 32 →
    ∃ l, exec .findMatchLen s =
        .next { s with cmd := { s.cmd with op := 6#4 }, rsp := ⟨0b0010#4, 0, l, 0, 0, 0⟩ } ∧
      s.cmd.a1 + l ≤ s.cmd.a2 ∧
      (∀ j, j < l → cellGet s.inMem (s.cmd.a0 + j) = cellGet s.inMem (s.cmd.a1 + j)) ∧
      (s.cmd.a1 + l = s.cmd.a2 ∨
        cellGet s.inMem (s.cmd.a0 + l) ≠ cellGet s.inMem (s.cmd.a1 + l))

/-- 42_hash_matcher.md R162, 00_scope.md R8: `Hash` is a configuration function of `(w, tbits)`. Every function with
values of `tbits` bits is the hash of some instance; the instance of `State.reset` has the spec's default form and
multiplier, which are the spec's general knowledge (log entry 9). -/
def Obligations.HashIsAConfigurationFunction : Prop :=
  (∀ w tbits, hashWord State.reset.params.hash w tbits = (w * 0x1E35A7BD % 2 ^ 32) >>> (32 - tbits)) ∧
  ∀ f : BitVec 32 → Nat → Nat, (∀ w tbits, f w tbits < 2 ^ tbits) →
    ∃ hash, ∀ w tbits, 8 ≤ tbits → tbits ≤ 14 → hashWord hash w.toNat tbits = f w tbits

/-- 42_hash_matcher.md R161, R167: the table of a fragment has the least power of two of entries that is at least its
length, between 256 and 16384. The pass starts from zeros: after it every entry in use is 0 or a position it probed, so
one from 4 to `n - 5`, and 0 throughout in a fragment of at most 8 bytes, whatever the table held before. That the entries
not in use stay as they were is the spec's decision D16 (log entry 9). -/
def Obligations.TableIsSizedAndZeroedPerFragment : Prop :=
  (∀ n, n ≤ 65536 → 8 ≤ tableBits n ∧ tableBits n ≤ 14 ∧ (n ≤ 2 ^ tableBits n ∨ tableBits n = 14) ∧
    (tableBits n = 8 ∨ 2 ^ (tableBits n - 1) < n)) ∧
  ∀ (s : State) (base n h : Nat), n ≤ 65536 →
    let entry := cellGet (matchFragment s base n).ht h
    (h < 2 ^ tableBits n → entry = 0 ∨ 4 ≤ entry.toNat ∧ entry.toNat + 5 ≤ n) ∧
    (h < 2 ^ tableBits n → n ≤ 8 → entry = 0) ∧
    (2 ^ tableBits n ≤ h → entry = cellGet s.ht h)

/-- 42_hash_matcher.md R170: `MATCH_FRAG` completes; what it pushes is the events of the pass, in order, as tags, and the
table is the one the pass leaves (`TableIsSizedAndZeroedPerFragment` says what stands in it). The pass is the spec's
decided one, log entry 9. -/
def Obligations.MatchFragPushesTheEvents : Prop :=
  ∀ s : State, s.cmd.a0 < 2 ^ 32 → 1 ≤ s.cmd.a1 → s.cmd.a1 ≤ 65536 →
    s.cmd.a0 + s.cmd.a1 ≤ 2 ^ 32 →
    let bs := (matchFragment s s.cmd.a0 s.cmd.a1).events.flatMap (eventBytes (cellGet s.inMem) s.cmd.a0)
    ∃ t, exec .matchFrag s = .next t ∧ t.cmd.op = 7#4 ∧ t.sink = s.sink ++ bs ∧
      t.rsp = ⟨0b0010#4, 0, toPos s.params bs.length, 0, 0, 0⟩ ∧
      t.ht = (matchFragment s s.cmd.a0 s.cmd.a1).ht ∧
      t.ep = { s.ep with count := toPos s.params bs.length } ∧ HostKept s t ∧ DecoderKept s t ∧ t.ve = s.ve

/-- 42_hash_matcher.md R168, R167: the contract of the matcher. Replaying the events rebuilds the fragment; a literal is
not empty and starts where the events before it end; a copy is at least 4 long, its offset is at least 1, at most 65531
and at most what is covered, and it starts neither in the first four positions nor in the last four; two literals are
never adjacent. -/
def Obligations.MatcherMeetsItsContract : Prop :=
  ∀ (s : State) (base n : Nat), 1 ≤ n → n ≤ 65536 →
    let rd := fun j => cellGet s.inMem (base + j)
    let events := (matchFragment s base n).events
    replayEvents rd events [] = bytesFrom rd 0 n ∧
    (∀ before after start len, events = before ++ .lit start len :: after →
      1 ≤ len ∧ start = (replayEvents rd before []).length) ∧
    (∀ before after offset len, events = before ++ .copy offset len :: after →
      4 ≤ len ∧ 1 ≤ offset ∧ offset ≤ 65531 ∧ offset ≤ (replayEvents rd before []).length ∧
        4 ≤ (replayEvents rd before []).length ∧ (replayEvents rd before []).length + 5 ≤ n) ∧
    (∀ before after start₁ len₁ start₂ len₂, events ≠ before ++ .lit start₁ len₁ :: .lit start₂ len₂ :: after)

/-- 43_lz_encoder.md R192, R191: `COMPRESS` completes for every 32-bit length; it pushes the varint of the length, then
for each fragment of 32768 bytes (the last the remainder) the tags of the matcher's events over that fragment alone, and
returns the number of bytes. That every fragment but the last has exactly 32768 bytes is the spec's decision D15 (log
entry 9). -/
def Obligations.CompressPushesPreambleAndFragments : Prop :=
  ∀ s : State, s.cmd.a0 < 2 ^ 32 →
    let n := s.cmd.a0
    let bs := varintEncode n ++ (List.range ((n + 32767) / 32768)).flatMap fun q =>
      (matchFragment s (q * 32768) (min 32768 (n - q * 32768))).events.flatMap
        (eventBytes (cellGet s.inMem) (q * 32768))
    ∃ t, exec .compress s = .next t ∧ t.cmd.op = 8#4 ∧ t.sink = s.sink ++ bs ∧
      t.rsp = ⟨0b0010#4, 0, toPos s.params bs.length, 0, 0, 0⟩ ∧ HostKept s t ∧ DecoderKept s t

/-- 43_lz_encoder.md R197, R191; 20_memory.md R50: the frame `COMPRESS` pushes is a function of `IN[0 .. n)` and the
parameters: it depends on no table entry, no earlier command, no other byte of `IN`. -/
def Obligations.CompressDependsOnItsInputAlone : Prop :=
  ∀ s s' : State, s.params.hash = s'.params.hash → s.cmd.a0 = s'.cmd.a0 → s.cmd.a0 < 2 ^ 32 →
    (∀ a, a < s.cmd.a0 → cellGet s.inMem a = cellGet s'.inMem a) →
    ∃ t t' bs, exec .compress s = .next t ∧ exec .compress s' = .next t' ∧ t.sink = s.sink ++ bs ∧
      t'.sink = s'.sink ++ bs ∧ t.rsp = t'.rsp

/-- 43_lz_encoder.md R193: `MAX_CLEN` returns 32 + n + floor(n / 6) exactly, with no wrap, and changes nothing else. -/
def Obligations.MaxClenIsExact : Prop :=
  ∀ s : State, s.cmd.a0 < 2 ^ 32 →
    exec .maxClen s = .next
      { s with cmd := { s.cmd with op := 9#4 }, rsp := ⟨0b0010#4, 0, 32 + s.cmd.a0 + s.cmd.a0 / 6, 0, 0, 0⟩ }

/-- 43_lz_encoder.md R196: what `COMPRESS(n)` pushes, and returns the count of, is at most 32 + n + floor(n / 6) bytes. -/
def Obligations.CompressedLengthIsBounded : Prop :=
  ∀ s : State, s.cmd.a0 < 2 ^ 32 →
    ∃ t, exec .compress s = .next t ∧ t.sink.length = s.sink.length + t.rsp.r0 ∧
      t.rsp.r0 ≤ 32 + s.cmd.a0 + s.cmd.a0 / 6

/-- 43_lz_encoder.md R194: the round trip. If `FRAME` of any instance holds the bytes that `COMPRESS(n)` pushed,
`UNCOMPRESS` on them completes: where its cap admits `n`, normally, returning `n`, with the input in `OUT[0 .. n)`; where
it does not, with `LENGTH_CAP` and no byte of `OUT` changed. -/
def Obligations.UncompressInvertsCompress : Prop :=
  ∀ (s t u : State) (bs : List Byte), s.cmd.a0 < 2 ^ 32 → exec .compress s = .next t →
    t.sink = s.sink ++ bs → u.rst = false → u.cmd.a0 = bs.length →
    (∀ j (h : j < bs.length), cellGet u.frame j = bs[j]) →
    ∃ u₀ v, exec .uncompress u = .next u₀ ∧ Completes u₀ v ∧
      (s.cmd.a0 ≤ u.params.maxOutputLen.toNat →
        v.rsp = ⟨0b0010#4, 0, s.cmd.a0, 0, 0, 0⟩ ∧ ∀ j, j < s.cmd.a0 → cellGet v.out j = cellGet s.inMem j) ∧
      (u.params.maxOutputLen.toNat < s.cmd.a0 →
        v.rsp = ⟨0b0110#4, causeCode .lengthCap, 0, 0, 0, 0⟩ ∧ SameBytes u.out v.out)

/-- 43_lz_encoder.md R195: `GET_ULEN` on the frame of `COMPRESS(n)` returns `n`. -/
def Obligations.GetUlenOfCompressIsTheLength : Prop :=
  ∀ (s t u : State) (bs : List Byte), s.cmd.a0 < 2 ^ 32 → exec .compress s = .next t →
    t.sink = s.sink ++ bs → u.rst = false → u.cmd.a0 = bs.length →
    (∀ j (h : j < bs.length), cellGet u.frame j = bs[j]) →
    ∃ u₀ v, exec .getUlen u = .next u₀ ∧ Completes u₀ v ∧ v.rsp = ⟨0b0010#4, 0, s.cmd.a0, 0, 0, 0⟩

/-! ## Executing tags -/

/-- 44_lz_decoder.md R214 to R218, 20_memory.md R61: a literal tag (`LIT`, `LIT1`, `LIT2`, `LIT3`, `LIT4`) of an
`UNCOMPRESS` whose header and payload lie in the frame and whose output fits executes: its payload goes to `OUT` at
`produced`, `produced` and `pc` move past it, and nothing else changes but the parser's registers. -/
def Obligations.LiteralTagsMoveTheirPayload : Prop :=
  ∀ (i : Instr) (f : TagFields) (s : State), tagFields i = some f → f.kind = 0 → s.cmd.op = 10#4 →
    s.dp.pc + f.hdr + f.len ≤ s.dp.endPos → s.dp.produced.toNat + f.len ≤ s.dp.declared.toNat →
    s.dp.declared.toNat ≤ s.params.maxOutputLen.toNat →
    ∃ t, exec i s = .next t ∧
      t.dp = { s.dp with produced := BitVec.ofNat 32 (s.dp.produced.toNat + f.len), pc := s.dp.pc + f.hdr + f.len } ∧
      t.dp.produced.toNat = s.dp.produced.toNat + f.len ∧
      (∀ j, j < f.len → cellGet t.out (s.dp.produced.toNat + j) = cellGet s.frame (s.dp.pc + f.hdr + j)) ∧
      (∀ a, a < s.dp.produced.toNat ∨ s.dp.produced.toNat + f.len ≤ a → cellGet t.out a = cellGet s.out a) ∧
      t.td = tagRegs f ∧ t.rsp = s.rsp ∧ t.cmd = s.cmd ∧ t.vd = s.vd ∧ t.fv = s.fv ∧ HostKept s t ∧ EncoderKept s t

/-- 44_lz_decoder.md R219 to R221, 20_memory.md R60: a copy tag (`COPY1`, `COPY2`, `COPY4`) of an `UNCOMPRESS` that passes
its checks executes: byte `j` of its output is the byte `offset` back, repeating when the offset is shorter than the
length, as `OUT` stood before; `produced` and `pc` move, and nothing else changes but the parser's registers. -/
def Obligations.CopyTagsRepeatForward : Prop :=
  ∀ (i : Instr) (f : TagFields) (s : State), tagFields i = some f → f.kind ≠ 0 → s.cmd.op = 10#4 →
    s.dp.pc + f.hdr ≤ s.dp.endPos → 1 ≤ f.off → f.off ≤ s.dp.produced.toNat →
    s.dp.produced.toNat + f.len ≤ s.dp.declared.toNat → s.dp.declared.toNat ≤ s.params.maxOutputLen.toNat →
    ∃ t, exec i s = .next t ∧
      t.dp = { s.dp with produced := BitVec.ofNat 32 (s.dp.produced.toNat + f.len), pc := s.dp.pc + f.hdr } ∧
      t.dp.produced.toNat = s.dp.produced.toNat + f.len ∧
      (∀ j, j < f.len →
        cellGet t.out (s.dp.produced.toNat + j) = cellGet s.out (s.dp.produced.toNat - f.off + j % f.off)) ∧
      (∀ a, a < s.dp.produced.toNat ∨ s.dp.produced.toNat + f.len ≤ a → cellGet t.out a = cellGet s.out a) ∧
      t.td = tagRegs f ∧ t.rsp = s.rsp ∧ t.cmd = s.cmd ∧ t.vd = s.vd ∧ t.fv = s.fv ∧ HostKept s t ∧ EncoderKept s t

/-- 45_frame_validator.md R250, 44_lz_decoder.md R212: a tag of an `IS_VALID` that passes the same checks moves the
validator's own `produced` and `pc` the same way and touches no byte of `OUT`. -/
def Obligations.ValidatorMovesNoByte : Prop :=
  ∀ (i : Instr) (f : TagFields) (s : State), tagFields i = some f → s.cmd.op = 12#4 →
    s.fv.pc + f.hdr + (if f.kind = 0 then f.len else 0) ≤ s.fv.endPos →
    (f.kind ≠ 0 → 1 ≤ f.off ∧ f.off ≤ s.fv.produced.toNat) →
    s.fv.produced.toNat + f.len ≤ s.fv.declared.toNat →
    ∃ t, exec i s = .next t ∧
      t.fv = { s.fv with
        produced := BitVec.ofNat 32 (s.fv.produced.toNat + f.len)
        pc := s.fv.pc + f.hdr + if f.kind = 0 then f.len else 0 } ∧
      t.fv.produced.toNat = s.fv.produced.toNat + f.len ∧
      SameBytes s.out t.out ∧ t.td = tagRegs f ∧ t.rsp = s.rsp ∧ t.cmd = s.cmd ∧ t.vd = s.vd ∧ t.dp = s.dp ∧
      HostKept s t ∧ EncoderKept s t

/-- 60_exceptions.md R262, R261, R264; 44_lz_decoder.md R214 to R221: which cause a tag of either walk raises, in the order
of its checks, with no other effect but on the registers of the parser, which 41_tag_codec.md R140 writes before the
checks of the execution (log entry 15): all of them once the header is there, `TD.kind` alone where it is cut. -/
def Obligations.TagErrorsComeInTheirOrder : Prop :=
  ∀ (i : Instr) (f : TagFields) (s : State) (u : WalkUnit), tagFields i = some f →
    (s.cmd.op = 10#4 ∧ u = .dp ∨ s.cmd.op = 12#4 ∧ u = .fv) →
    let w := walkRegs u s
    let raises := fun c : Cause => ∃ t, exec i s = .next t ∧ Raised c s t ∧ t.td = tagRegs f
    (w.endPos < w.pc + f.hdr → ∃ t, exec i s = .next t ∧ Raised .tagTruncated s t ∧
      t.td = { s.td with kind := (tagRegs f).kind }) ∧
    (w.pc + f.hdr ≤ w.endPos → f.kind = 0 →
      (w.endPos < w.pc + f.hdr + f.len → raises .literalTruncated) ∧
      (w.pc + f.hdr + f.len ≤ w.endPos → w.declared.toNat < w.produced.toNat + f.len →
        raises .literalOverflow)) ∧
    (w.pc + f.hdr ≤ w.endPos → f.kind ≠ 0 →
      (f.off = 0 → raises .copyOffsetZero) ∧
      (1 ≤ f.off → w.produced.toNat < f.off → raises .copyOffsetTooFar) ∧
      (1 ≤ f.off → f.off ≤ w.produced.toNat → w.declared.toNat < w.produced.toNat + f.len → raises .copyOverflow))

/-- 60_exceptions.md R261 codes 1 and 5, 40_varint.md R111, 41_tag_codec.md R140: where the byte or the header a step
would fetch does not lie before the end, the step raises `VARINT_TRUNCATED` or `TAG_TRUNCATED`. -/
def Obligations.MissingBytesAreTruncation : Prop :=
  ∀ s : State, s.rst = false → busy s = true →
    (∀ pos endPos, varintRange s = some (pos, endPos) → endPos ≤ pos + s.vd.i.toNat →
      ∃ t, step s = .next t ∧ Raised .varintTruncated s t ∧ t.td = s.td) ∧
    (∀ u, varintRange s = none → taggingUnit s = some u → (walkRegs u s).pc < (walkRegs u s).endPos →
      (walkRegs u s).endPos <
        (walkRegs u s).pc + headerLen (cellGet s.frame (walkRegs u s).pc) →
      ∃ t, step s = .next t ∧ Raised .tagTruncated s t)

/-- 44_lz_decoder.md R222, R224; 45_frame_validator.md R251: the step at the frame end. With exactly the declared length
produced the unit is `DONE` and the command completes, `UNCOMPRESS` with the declared length, `IS_VALID` with 1;
otherwise `LENGTH_MISMATCH`. -/
def Obligations.FrameEndCompletesOrMismatches : Prop :=
  ∀ (s : State) (u : WalkUnit), s.rst = false → busy s = true →
    (s.cmd.op = 10#4 ∧ u = .dp ∨ s.cmd.op = 12#4 ∧ u = .fv) → (walkRegs u s).state = .expectingTag →
    (walkRegs u s).endPos ≤ (walkRegs u s).pc →
    ((walkRegs u s).produced = (walkRegs u s).declared → step s = .next
      { setWalk u { walkRegs u s with state := .done } s with
          rsp := ⟨0b0010#4, 0, if u = .dp then (walkRegs u s).declared.toNat else 1, 0, 0, 0⟩ }) ∧
    ((walkRegs u s).produced ≠ (walkRegs u s).declared → ∃ t, step s = .next t ∧ Raised .lengthMismatch s t)

/-- 44_lz_decoder.md R213: a step of a walk that finds a tag either raises `MalformedInput` or leaves the unit expecting a
tag, still busy, with `pc` and `produced` both strictly larger and within their bounds. -/
def Obligations.EveryTagMovesTheWalkForward : Prop :=
  ∀ (s : State) (u : WalkUnit), Inv s → s.rst = false → busy s = true → taggingUnit s = some u →
    (walkRegs u s).pc < (walkRegs u s).endPos →
    ∃ t, step s = .next t ∧
      ((∃ c, c ≠ .none ∧ Raised c s t) ∨
        ((walkRegs u t).state = .expectingTag ∧ busy t = true ∧
          (walkRegs u s).pc < (walkRegs u t).pc ∧
          (walkRegs u t).pc ≤ (walkRegs u t).endPos ∧ (walkRegs u t).endPos = (walkRegs u s).endPos ∧
          (walkRegs u s).produced.toNat < (walkRegs u t).produced.toNat ∧
          (walkRegs u t).produced.toNat ≤ (walkRegs u t).declared.toNat ∧
          (walkRegs u t).declared = (walkRegs u s).declared))

/-- 44_lz_decoder.md R213, 70_reset_and_hazards.md R303: from where it stands in its tags a walk ends within
`min(end - pc, declared - produced) + 1` steps. -/
def Obligations.WalkEndsWithinItsBound : Prop :=
  ∀ (s : State) (u : WalkUnit), Inv s → s.rst = false → busy s = true → taggingUnit s = some u →
    ∃ k t, k ≤ min ((walkRegs u s).endPos - (walkRegs u s).pc)
        ((walkRegs u s).declared.toNat - (walkRegs u s).produced.toNat) + 1 ∧
      Sys2Proof.core.run k s = .next t ∧ busy t = false ∧ done t = true

/-! ## Commands of the decoder side -/

/-- 10_state.md R23, 44_lz_decoder.md R211, R225, 40_varint.md R111: how the four commands that fetch from `FRAME` start:
`busy` alone, cause and results cleared, the varint decoder and the walk unit ready, nothing else changed. That the
start is a step of its own is the model's reading (log entry 1), and that `GET_ULEN` clears `DP.cause` is read from
10_state.md R27 (log entry 21). -/
def Obligations.FetchingCommandsStart : Prop :=
  ∀ s : State,
    exec .uncompress s = .next
      { s with
          cmd := { s.cmd with op := 10#4 }, rsp := ⟨0b0001#4, 0, 0, 0, 0, 0⟩, vd := ⟨0, 0⟩
          dp := { s.dp with state := .idle, pc := 0, endPos := s.cmd.a0, cause := 0 } } ∧
    exec .getUlen s = .next
      { s with
          cmd := { s.cmd with op := 11#4 }, rsp := ⟨0b0001#4, 0, 0, 0, 0, 0⟩, vd := ⟨0, 0⟩
          dp := { s.dp with state := .idle, pc := 0, endPos := s.cmd.a0, cause := 0 } } ∧
    exec .isValid s = .next
      { s with
          cmd := { s.cmd with op := 12#4 }, rsp := ⟨0b0001#4, 0, 0, 0, 0, 0⟩, vd := ⟨0, 0⟩
          fv := { s.fv with state := .idle, pc := 0, endPos := s.cmd.a0, cause := 0 } } ∧
    (s.cmd.a0 ≤ s.cmd.a1 → exec .varintDec s = .next
      { s with cmd := { s.cmd with op := 2#4 }, rsp := ⟨0b0001#4, 0, 0, 0, 0, 0⟩, vd := ⟨0, 0⟩ })

/-- 44_lz_decoder.md R224, R212, R227: `UNCOMPRESS` starts, and its steps complete it as `Walk` says: normally with the
declared length, `OUT` holding the output below it and unchanged above; or with `MalformedInput` and the cause, `OUT`
unchanged at and above the declared length, and everywhere if the preamble or the cap failed. -/
def Obligations.UncompressCompletesAsTheWalk : Prop :=
  ∀ s : State, s.rst = false →
    ∃ t₀ t, exec .uncompress s = .next t₀ ∧ Completes t₀ t ∧
      (match walk (cellGet s.frame) s.cmd.a0 s.params.maxOutputLen.toNat with
        | .ok out => t.rsp = ⟨0b0010#4, 0, out.length, 0, 0, 0⟩ ∧ out.length < 2 ^ 32 ∧
            (∀ j (h : j < out.length), cellGet t.out j = out[j]) ∧
            ∀ a, out.length ≤ a → cellGet t.out a = cellGet s.out a
        | .error c => t.rsp = ⟨0b0110#4, causeCode c, 0, 0, 0, 0⟩ ∧
            ∀ a, (∀ L k, varintDecode (cellGet s.frame) 0 s.cmd.a0 = .ok (L, k) →
              L ≤ s.params.maxOutputLen.toNat → L ≤ a) → cellGet t.out a = cellGet s.out a) ∧
      HostKept s t ∧ EncoderKept s t ∧ t.fv = s.fv

/-- 44_lz_decoder.md R225: `GET_ULEN` starts, and its steps complete it with the value of the leading varint, whatever the
cap, or with `MalformedInput` and the varint's cause. -/
def Obligations.GetUlenCompletesWithTheLength : Prop :=
  ∀ s : State, s.rst = false →
    ∃ t₀ t, exec .getUlen s = .next t₀ ∧ Completes t₀ t ∧
      (t.rsp =
        match varintDecode (cellGet s.frame) 0 s.cmd.a0 with
        | .ok (v, _) => ⟨0b0010#4, 0, v, 0, 0, 0⟩
        | .error c => ⟨0b0110#4, causeCode c, 0, 0, 0, 0⟩) ∧
      t.dp.pc = 0 ∧ HostKept s t ∧ EncoderKept s t ∧ t.td = s.td ∧ t.fv = s.fv ∧ SameBytes s.out t.out

/-- 45_frame_validator.md R251: `IS_VALID` starts, and its steps complete it normally, never with `err`: result 1 and cause
0 where `Walk` accepts, result 0 and the cause where it does not; no byte of `OUT` and no register of the decoder
changes. -/
def Obligations.IsValidCompletesWithTheVerdict : Prop :=
  ∀ s : State, s.rst = false →
    ∃ t₀ t, exec .isValid s = .next t₀ ∧ Completes t₀ t ∧
      (t.rsp =
        match walk (cellGet s.frame) s.cmd.a0 s.params.maxOutputLen.toNat with
        | .ok _ => ⟨0b0010#4, 0, 1, 0, 0, 0⟩
        | .error c => ⟨0b0010#4, causeCode c, 0, 0, 0, 0⟩) ∧
      HostKept s t ∧ EncoderKept s t ∧ t.dp = s.dp ∧ SameBytes s.out t.out

/-- 45_frame_validator.md R252: for every frame and length `IS_VALID` returns 1 exactly when `UNCOMPRESS` completes without
`MalformedInput`, and when both reject `RSP_CAUSE` is the same. -/
def Obligations.ValidatorAgreesWithDecoder : Prop :=
  ∀ s : State, s.rst = false →
    ∃ d₀ d v₀ v, exec .uncompress s = .next d₀ ∧ Completes d₀ d ∧ exec .isValid s = .next v₀ ∧ Completes v₀ v ∧
      (v.rsp.r0 = 1 ∨ v.rsp.r0 = 0) ∧ (v.rsp.r0 = 1 ↔ err d = false) ∧ v.rsp.cause = d.rsp.cause ∧
      err v = false ∧ cmdErr v = false ∧ cmdErr d = false

/-- 10_state.md R24, R27, R33; 60_exceptions.md R265; 70_reset_and_hazards.md R293: every command ends, and neither its
response nor what it pushes depends on anything an earlier command left: not on a working register, a response, the
hash table, the sink or `OUT`; only on the constants, the arguments and the bytes of `IN` and `FRAME`. -/
def Obligations.CommandsDependOnNothingLeftBehind : Prop :=
  ∀ (op : BitVec 4) (s s' : State), s.rst = false → s'.rst = false → s.params = s'.params →
    s.cmd.a0 = s'.cmd.a0 → s.cmd.a1 = s'.cmd.a1 → s.cmd.a2 = s'.cmd.a2 → SameBytes s.inMem s'.inMem →
    SameBytes s.frame s'.frame →
    ∃ s₀ t s₀' t' bs, exec (decodeOp op) s = .next s₀ ∧ Completes s₀ t ∧ exec (decodeOp op) s' = .next s₀' ∧
      Completes s₀' t' ∧ t.rsp = t'.rsp ∧ t.sink = s.sink ++ bs ∧ t'.sink = s'.sink ++ bs
end

