-- ==== Sys2Proof/Laws/Decode.lean ====
section
/-! SUPPORT. The pieces of the decoder and the encoder, as arithmetic on the value of a byte. -/

namespace Sys2Proof

theorem tagKind_toNat (T : Byte) : (tagKind T).toNat = T.toNat % 4 := by simp [tagKind]

theorem tagUpper_toNat (T : Byte) : (tagUpper T).toNat = T.toNat / 4 := by
  have := T.isLt
  simp [tagUpper, Nat.shiftRight_eq_div_pow]; omega

theorem headerLen_eq (T : Byte) :
    headerLen T =
      if T.toNat % 4 = 1 then 2 else if T.toNat % 4 = 2 then 3 else if T.toNat % 4 = 3 then 5
      else if T.toNat / 4 ≤ 59 then 1 else 1 + (T.toNat / 4 - 59) := by
  have h : T.toNat % 4 = 0 ∨ T.toNat % 4 = 1 ∨ T.toNat % 4 = 2 ∨ T.toNat % 4 = 3 := by omega
  unfold headerLen
  rw [tagKind_toNat, tagUpper_toNat]
  rcases h with h | h | h | h <;> simp [h]

theorem headerLen_pos (T : Byte) : 1 ≤ headerLen T := by
  rw [headerLen_eq]; repeat' split
  all_goals omega

theorem headerLen_le (T : Byte) : headerLen T ≤ 5 := by
  have := T.isLt
  rw [headerLen_eq]; repeat' split
  all_goals omega

theorem decodeTag_eq (T : Byte) (r : List Byte) :
    decodeTag (T :: r) =
      if T.toNat % 4 = 1 then decodeCopy1 T r else if T.toNat % 4 = 2 then decodeCopy2 T r
      else if T.toNat % 4 = 3 then decodeCopy4 T r
      else if T.toNat / 4 ≤ 59 then .ok (.lit (tagUpper T), r)
      else if T.toNat / 4 = 60 then decodeLit1 r else if T.toNat / 4 = 61 then decodeLit2 r
      else if T.toNat / 4 = 62 then decodeLit3 r else decodeLit4 r := by
  have h : T.toNat % 4 = 0 ∨ T.toNat % 4 = 1 ∨ T.toNat % 4 = 2 ∨ T.toNat % 4 = 3 := by omega
  unfold decodeTag
  rcases h with h | h | h | h <;> simp [tagKind_toNat, h, decodeLiteral, tagUpper_toNat]

theorem decodePreamble_eq (b : Byte) :
    decodePreamble b = if 128 ≤ b.toNat then .vcont (b.extractLsb' 0 7) else .vlast (b.extractLsb' 0 7) := by
  have hb := b.isLt
  unfold decodePreamble
  congr 1
  simp [BitVec.getLsbD, Nat.testBit, Nat.shiftRight_eq_div_pow, Nat.one_and_eq_mod_two]
  omega

@[simp] theorem leBytes_length (k v : Nat) : (leBytes k v).length = k := by
  induction k generalizing v with
  | zero => rfl
  | succ k ih => simp [leBytes, ih]

theorem leNat_lt (bs : List Byte) : leNat bs < 256 ^ bs.length := by
  induction bs with
  | nil => simp [leNat]
  | cons b r ih => have := b.isLt; simp only [leNat, List.length_cons, Nat.pow_succ]; omega

theorem leNat_leBytes (k v : Nat) : leNat (leBytes k v) = v % 256 ^ k := by
  induction k generalizing v with
  | zero => simp [leBytes, leNat, Nat.mod_one]
  | succ k ih =>
    rw [Nat.pow_succ 256, Nat.mul_comm (256 ^ k) 256, Nat.mod_mul]
    simp [leBytes, leNat, ih]

theorem leBytes_leNat (bs : List Byte) : leBytes bs.length (leNat bs) = bs := by
  induction bs with
  | nil => rfl
  | cons b r ih =>
    have hb := b.isLt
    have h : (b.toNat + 256 * leNat r) / 256 = leNat r := by omega
    simp only [List.length_cons, leBytes, leNat, h, ih, List.cons.injEq, and_true]
    apply BitVec.eq_of_toNat_eq
    simpa using hb

/-- A decoded header is as long as its tag byte says; with that many bytes every tag decodes. -/
theorem decodeTag_ok (T : Byte) (rest : List Byte) (h : rest.length = headerLen T - 1) :
    ∃ i, decodeTag (T :: rest) = .ok (i, []) ∧ contextOf i = .tag := by
  rw [headerLen_eq] at h
  rw [decodeTag_eq]
  have hT := T.isLt
  split
  · simp only [*, if_true] at h
    match rest, h with
    | [_], _ => exact ⟨_, rfl, rfl⟩
  split
  · simp [*] at h
    match rest, h with
    | [_, _], _ => exact ⟨_, rfl, rfl⟩
  split
  · simp [*] at h
    match rest, h with
    | [_, _, _, _], _ => exact ⟨_, rfl, rfl⟩
  split
  · simp [*] at h
    subst h; exact ⟨_, rfl, rfl⟩
  split
  · simp [*] at h
    match rest, h with
    | [_], _ => exact ⟨_, rfl, rfl⟩
  split
  · simp [*] at h
    match rest, h with
    | [_, _], _ => exact ⟨_, rfl, rfl⟩
  split
  · simp [*] at h
    match rest, h with
    | [_, _, _], _ => exact ⟨_, rfl, rfl⟩
  · have h6 : T.toNat / 4 = 63 := by omega
    simp [*] at h
    match rest, h with
    | [_, _, _, _], _ => exact ⟨_, rfl, rfl⟩

end Sys2Proof
end

