-- ==== Sys2Proof/Laws/Memory.lean ====
section
/-! SUPPORT. Sparse storage: read after write, and that every operation keeps the canonical form. -/

namespace Sys2Proof.Machine

variable {w : Nat}

@[simp] theorem cellGet_nil (a : Nat) : cellGet ([] : Cells w) a = 0#w := rfl

theorem cellGet_erase (m : Cells w) (a b : Nat) : cellGet (cellErase m a) b = if b = a then 0#w else cellGet m b := by
  unfold cellErase
  induction m with
  | nil => simp
  | cons c m ih =>
    rw [List.filter_cons]
    by_cases h : c.1 = a
    · rw [if_neg (by simp [h]), ih]
      by_cases hb : b = a
      · simp [hb]
      · simp only [if_neg hb, cellGet]
        rw [if_neg (by omega)]
    · rw [if_pos (by simp [h])]
      simp only [cellGet, ih]
      by_cases hc : c.1 = b
      · subst hc
        simp [h]
      · simp [hc]

theorem cellGet_insert (m : Cells w) (a b : Nat) (v : BitVec w) (h : ∀ c ∈ m, c.1 ≠ a) :
    cellGet (cellInsert a v m) b = if b = a then v else cellGet m b := by
  induction m with
  | nil =>
    by_cases hb : b = a
    · simp [cellInsert, cellGet, hb]
    · simp [cellInsert, cellGet, hb, Ne.symm hb]
  | cons c m ih =>
    have hc : c.1 ≠ a := h c List.mem_cons_self
    have hm := ih fun d hd => h d (List.mem_cons_of_mem c hd)
    unfold cellInsert
    split
    · by_cases hb : b = a
      · simp [cellGet, hb]
      · simp [cellGet, hb, Ne.symm hb]
    · simp only [cellGet, hm]
      by_cases hb : c.1 = b
      · subst hb
        simp [hc]
      · simp [hb]

theorem mem_cellErase {m : Cells w} {a : Nat} {c : Nat × BitVec w} : c ∈ cellErase m a ↔ c ∈ m ∧ c.1 ≠ a := by
  simp [cellErase]

/-- Read after write, at the address written and at every other. -/
theorem cellGet_set (m : Cells w) (a b : Nat) (v : BitVec w) :
    cellGet (cellSet m a v) b = if b = a then v else cellGet m b := by
  unfold cellSet
  split
  · next h =>
    rw [cellGet_erase]
    simp [h, unlisted]
  · rw [cellGet_insert _ _ _ _ fun c hc => (mem_cellErase.1 hc).2, cellGet_erase]
    split <;> simp_all

@[simp] theorem cellGet_set_same (m : Cells w) (a : Nat) (v : BitVec w) : cellGet (cellSet m a v) a = v := by
  simp [cellGet_set]

theorem cellGet_set_other (m : Cells w) {a b : Nat} (v : BitVec w) (h : b ≠ a) :
    cellGet (cellSet m a v) b = cellGet m b := by
  simp [cellGet_set, h]

@[simp] theorem cellRange_length (m : Cells w) (a n : Nat) : (cellRange m a n).length = n := by
  induction n generalizing a with
  | zero => rfl
  | succ n ih => simp [cellRange, ih]

theorem cellRange_getElem (m : Cells w) (a n j : Nat) (h : j < (cellRange m a n).length) :
    (cellRange m a n)[j] = cellGet m (a + j) := by
  induction n generalizing a j with
  | zero => simp [cellRange] at h
  | succ n ih =>
    cases j with
    | zero => rfl
    | succ j =>
      simp only [cellRange, List.getElem_cons_succ]
      rw [ih]
      congr 1
      omega

/-- Reading after writing consecutive values. -/
theorem cellGet_setRange (m : Cells w) (a b : Nat) (vs : List (BitVec w)) :
    cellGet (cellSetRange m a vs) b = if h : a ≤ b ∧ b - a < vs.length then vs[b - a] else cellGet m b := by
  induction vs generalizing m a with
  | nil => simp [cellSetRange]
  | cons v vs ih =>
    rw [cellSetRange, ih]
    by_cases h1 : a + 1 ≤ b ∧ b - (a + 1) < vs.length
    · rw [dif_pos h1, dif_pos (by simp only [List.length_cons]; omega)]
      have : b - a = b - (a + 1) + 1 := by omega
      simp only [this, List.getElem_cons_succ]
    · rw [dif_neg h1, cellGet_set]
      by_cases h2 : b = a
      · subst h2
        simp
      · rw [if_neg h2, dif_neg (by simp only [List.length_cons]; omega)]

theorem cellGet_from (m : Cells w) (a b : Nat) : cellGet (cellsFrom m a) b = if a ≤ b then cellGet m b else 0#w := by
  unfold cellsFrom
  induction m with
  | nil => simp
  | cons c m ih =>
    rw [List.filter_cons]
    by_cases h : a ≤ c.1
    · rw [if_pos (by simp [h])]
      simp only [cellGet, ih]
      by_cases hc : c.1 = b
      · subst hc
        simp [h]
      · simp [hc]
    · rw [if_neg (by simp [h]), ih]
      simp only [cellGet]
      by_cases hb : a ≤ b
      · rw [if_pos hb, if_pos hb, if_neg (by omega)]
      · simp [hb]

/-- The canonical form, as a proposition. -/
theorem cellsWf_iff (limit : Nat) (m : Cells w) :
    cellsWf limit m = true ↔ m.Pairwise (fun c d => c.1 < d.1) ∧ ∀ c ∈ m, c.1 < limit ∧ c.2 ≠ 0#w := by
  simp only [cellsWf, Bool.and_eq_true, decide_eq_true_eq, List.all_eq_true]
  exact Iff.rfl

theorem cellsWf_nil (limit : Nat) : cellsWf limit ([] : Cells w) = true := by simp [cellsWf]

theorem cellsWf_filter {limit : Nat} {m : Cells w} (p : Nat × BitVec w → Bool) (h : cellsWf limit m = true) :
    cellsWf limit (m.filter p) = true := by
  rw [cellsWf_iff] at h ⊢
  exact ⟨h.1.filter p, fun c hc => h.2 c (List.mem_of_mem_filter hc)⟩

theorem mem_cellInsert {m : Cells w} {a : Nat} {v : BitVec w} {c : Nat × BitVec w} :
    c ∈ cellInsert a v m ↔ c = (a, v) ∨ c ∈ m := by
  induction m with
  | nil => simp [cellInsert]
  | cons d m ih =>
    unfold cellInsert
    split
    · simp
    · simp only [List.mem_cons, ih]
      tauto

theorem pairwise_cellInsert {m : Cells w} (a : Nat) (v : BitVec w) (h : m.Pairwise fun c d => c.1 < d.1)
    (hne : ∀ c ∈ m, c.1 ≠ a) : (cellInsert a v m).Pairwise fun c d => c.1 < d.1 := by
  induction m with
  | nil => simp [cellInsert]
  | cons d m ih =>
    have hd := List.pairwise_cons.1 h
    have hda : d.1 ≠ a := hne d List.mem_cons_self
    unfold cellInsert
    split
    · next hlt =>
      refine List.pairwise_cons.2 ⟨fun c hc => ?_, h⟩
      rcases List.mem_cons.1 hc with rfl | hc
      · exact hlt
      · exact Nat.lt_trans hlt (hd.1 c hc)
    · next hlt =>
      refine List.pairwise_cons.2 ⟨fun c hc => ?_, ih hd.2 fun c hc => hne c (List.mem_cons_of_mem d hc)⟩
      rcases mem_cellInsert.1 hc with rfl | hc
      · simp only
        omega
      · exact hd.1 c hc

/-- A write inside the limit keeps the canonical form. -/
theorem cellsWf_set {limit : Nat} {m : Cells w} {a : Nat} (v : BitVec w) (h : cellsWf limit m = true) (ha : a < limit) :
    cellsWf limit (cellSet m a v) = true := by
  have he : cellsWf limit (cellErase m a) = true := cellsWf_filter _ h
  unfold cellSet
  split
  · exact he
  · next hv =>
    rw [cellsWf_iff] at he ⊢
    refine ⟨pairwise_cellInsert a v he.1 fun c hc => (mem_cellErase.1 hc).2, fun c hc => ?_⟩
    rcases mem_cellInsert.1 hc with rfl | hc
    · exact ⟨ha, hv⟩
    · exact he.2 c hc

theorem cellsWf_setRange {limit : Nat} {m : Cells w} {a : Nat} (vs : List (BitVec w)) (h : cellsWf limit m = true)
    (ha : a + vs.length ≤ limit) : cellsWf limit (cellSetRange m a vs) = true := by
  induction vs generalizing m a with
  | nil => exact h
  | cons v vs ih =>
    simp only [List.length_cons] at ha
    exact ih (cellsWf_set v h (by omega)) (by omega)

theorem cellsWf_from {limit : Nat} {m : Cells w} (a : Nat) (h : cellsWf limit m = true) :
    cellsWf limit (cellsFrom m a) = true := cellsWf_filter _ h

theorem cellGet_of_not_mem {m : Cells w} {a : Nat} (h : ∀ c ∈ m, c.1 ≠ a) : cellGet m a = 0#w := by
  induction m with
  | nil => rfl
  | cons c m ih =>
    simp only [cellGet, if_neg (h c List.mem_cons_self)]
    exact ih fun d hd => h d (List.mem_cons_of_mem c hd)

/-- In canonical form, storage that reads the same everywhere is the same data. -/
theorem cells_ext {limit : Nat} {m m' : Cells w} (h : cellsWf limit m = true) (h' : cellsWf limit m' = true)
    (he : ∀ a, cellGet m a = cellGet m' a) : m = m' := by
  rw [cellsWf_iff] at h h'
  obtain ⟨hp, hv⟩ := h
  obtain ⟨hp', hv'⟩ := h'
  induction m generalizing m' with
  | nil =>
    cases m' with
    | nil => rfl
    | cons d m' =>
      have h1 := he d.1
      simp only [cellGet, if_true] at h1
      exact absurd h1.symm (hv' d List.mem_cons_self).2
  | cons c m ih =>
    cases m' with
    | nil =>
      have h1 := he c.1
      simp only [cellGet, if_true] at h1
      exact absurd h1 (hv c List.mem_cons_self).2
    | cons d m' =>
      rw [List.pairwise_cons] at hp hp'
      have hc : cellGet m c.1 = 0#w := cellGet_of_not_mem fun e he => by have := hp.1 e he; omega
      have hd : cellGet m' d.1 = 0#w := cellGet_of_not_mem fun e he => by have := hp'.1 e he; omega
      have hkey : c.1 = d.1 := by
        rcases Nat.lt_trichotomy c.1 d.1 with hlt | heq | hgt
        · have h1 := he c.1
          simp only [cellGet, if_true, if_neg (show d.1 ≠ c.1 by omega)] at h1
          rw [cellGet_of_not_mem (m := m') fun e he' => by have := hp'.1 e he'; omega] at h1
          exact absurd h1 (hv c List.mem_cons_self).2
        · exact heq
        · have h1 := he d.1
          simp only [cellGet, if_true, if_neg (show c.1 ≠ d.1 by omega)] at h1
          rw [cellGet_of_not_mem (m := m) fun e he' => by have := hp.1 e he'; omega] at h1
          exact absurd h1.symm (hv' d List.mem_cons_self).2
      have hval : c.2 = d.2 := by
        have h1 := he c.1
        simpa [cellGet, hkey] using h1
      have htail : m = m' := by
        refine ih (fun a => ?_) hp.2 (fun e he' => hv e (List.mem_cons_of_mem c he')) hp'.2
          fun e he' => hv' e (List.mem_cons_of_mem d he')
        by_cases ha : a = c.1
        · rw [ha, hc, hkey, hd]
        · have h1 := he a
          simpa [cellGet, Ne.symm ha, hkey ▸ Ne.symm ha] using h1
      rw [htail, Prod.ext hkey hval]

end Sys2Proof.Machine
end

