-- ==== Sys2Proof/Laws/State.lean ====
section
/-! SUPPORT. What each update of the state leaves in each field: one lemma per field per update. -/

namespace Sys2Proof.Machine

@[simp] theorem beginCommand_params (op : BitVec 4) (s : State) : (beginCommand op s).params = s.params := rfl
@[simp] theorem beginCommand_rst (op : BitVec 4) (s : State) : (beginCommand op s).rst = s.rst := rfl
@[simp] theorem beginCommand_port (op : BitVec 4) (s : State) : (beginCommand op s).port = s.port := rfl
@[simp] theorem beginCommand_cmd (op : BitVec 4) (s : State) :
    (beginCommand op s).cmd = { s.cmd with op := op } := rfl
@[simp] theorem beginCommand_rsp (op : BitVec 4) (s : State) :
    (beginCommand op s).rsp = ⟨statusBusy, 0, 0, 0, 0, 0⟩ := rfl
@[simp] theorem beginCommand_ve (op : BitVec 4) (s : State) : (beginCommand op s).ve = s.ve := rfl
@[simp] theorem beginCommand_vd (op : BitVec 4) (s : State) : (beginCommand op s).vd = s.vd := rfl
@[simp] theorem beginCommand_te (op : BitVec 4) (s : State) : (beginCommand op s).te = s.te := rfl
@[simp] theorem beginCommand_td (op : BitVec 4) (s : State) : (beginCommand op s).td = s.td := rfl
@[simp] theorem beginCommand_hm (op : BitVec 4) (s : State) : (beginCommand op s).hm = s.hm := rfl
@[simp] theorem beginCommand_ep (op : BitVec 4) (s : State) : (beginCommand op s).ep = s.ep := rfl
@[simp] theorem beginCommand_dp (op : BitVec 4) (s : State) : (beginCommand op s).dp = s.dp := rfl
@[simp] theorem beginCommand_fv (op : BitVec 4) (s : State) : (beginCommand op s).fv = s.fv := rfl
@[simp] theorem beginCommand_inMem (op : BitVec 4) (s : State) : (beginCommand op s).inMem = s.inMem := rfl
@[simp] theorem beginCommand_frame (op : BitVec 4) (s : State) : (beginCommand op s).frame = s.frame := rfl
@[simp] theorem beginCommand_out (op : BitVec 4) (s : State) : (beginCommand op s).out = s.out := rfl
@[simp] theorem beginCommand_sink (op : BitVec 4) (s : State) : (beginCommand op s).sink = s.sink := rfl
@[simp] theorem beginCommand_ht (op : BitVec 4) (s : State) : (beginCommand op s).ht = s.ht := rfl

@[simp] theorem completeNormal_params (r0 r1 r2 r3 : Nat) (s : State) : (completeNormal r0 r1 r2 r3 s).params = s.params := rfl
@[simp] theorem completeNormal_rst (r0 r1 r2 r3 : Nat) (s : State) : (completeNormal r0 r1 r2 r3 s).rst = s.rst := rfl
@[simp] theorem completeNormal_port (r0 r1 r2 r3 : Nat) (s : State) : (completeNormal r0 r1 r2 r3 s).port = s.port := rfl
@[simp] theorem completeNormal_cmd (r0 r1 r2 r3 : Nat) (s : State) : (completeNormal r0 r1 r2 r3 s).cmd = s.cmd := rfl
@[simp] theorem completeNormal_rsp (r0 r1 r2 r3 : Nat) (s : State) :
    (completeNormal r0 r1 r2 r3 s).rsp = ⟨statusDone, 0, toPos s.params r0, toPos s.params r1, toPos s.params r2, toPos s.params r3⟩ := rfl
@[simp] theorem completeNormal_ve (r0 r1 r2 r3 : Nat) (s : State) : (completeNormal r0 r1 r2 r3 s).ve = s.ve := rfl
@[simp] theorem completeNormal_vd (r0 r1 r2 r3 : Nat) (s : State) : (completeNormal r0 r1 r2 r3 s).vd = s.vd := rfl
@[simp] theorem completeNormal_te (r0 r1 r2 r3 : Nat) (s : State) : (completeNormal r0 r1 r2 r3 s).te = s.te := rfl
@[simp] theorem completeNormal_td (r0 r1 r2 r3 : Nat) (s : State) : (completeNormal r0 r1 r2 r3 s).td = s.td := rfl
@[simp] theorem completeNormal_hm (r0 r1 r2 r3 : Nat) (s : State) : (completeNormal r0 r1 r2 r3 s).hm = s.hm := rfl
@[simp] theorem completeNormal_ep (r0 r1 r2 r3 : Nat) (s : State) : (completeNormal r0 r1 r2 r3 s).ep = s.ep := rfl
@[simp] theorem completeNormal_dp (r0 r1 r2 r3 : Nat) (s : State) : (completeNormal r0 r1 r2 r3 s).dp = s.dp := rfl
@[simp] theorem completeNormal_fv (r0 r1 r2 r3 : Nat) (s : State) : (completeNormal r0 r1 r2 r3 s).fv = s.fv := rfl
@[simp] theorem completeNormal_inMem (r0 r1 r2 r3 : Nat) (s : State) : (completeNormal r0 r1 r2 r3 s).inMem = s.inMem := rfl
@[simp] theorem completeNormal_frame (r0 r1 r2 r3 : Nat) (s : State) : (completeNormal r0 r1 r2 r3 s).frame = s.frame := rfl
@[simp] theorem completeNormal_out (r0 r1 r2 r3 : Nat) (s : State) : (completeNormal r0 r1 r2 r3 s).out = s.out := rfl
@[simp] theorem completeNormal_sink (r0 r1 r2 r3 : Nat) (s : State) : (completeNormal r0 r1 r2 r3 s).sink = s.sink := rfl
@[simp] theorem completeNormal_ht (r0 r1 r2 r3 : Nat) (s : State) : (completeNormal r0 r1 r2 r3 s).ht = s.ht := rfl

@[simp] theorem completeMalformed_params (c : Cause) (s : State) : (completeMalformed c s).params = s.params := rfl
@[simp] theorem completeMalformed_rst (c : Cause) (s : State) : (completeMalformed c s).rst = s.rst := rfl
@[simp] theorem completeMalformed_port (c : Cause) (s : State) : (completeMalformed c s).port = s.port := rfl
@[simp] theorem completeMalformed_cmd (c : Cause) (s : State) : (completeMalformed c s).cmd = s.cmd := rfl
@[simp] theorem completeMalformed_rsp (c : Cause) (s : State) :
    (completeMalformed c s).rsp = ⟨statusMalformed, causeCode c, 0, 0, 0, 0⟩ := rfl
@[simp] theorem completeMalformed_ve (c : Cause) (s : State) : (completeMalformed c s).ve = s.ve := rfl
@[simp] theorem completeMalformed_vd (c : Cause) (s : State) : (completeMalformed c s).vd = s.vd := rfl
@[simp] theorem completeMalformed_te (c : Cause) (s : State) : (completeMalformed c s).te = s.te := rfl
@[simp] theorem completeMalformed_td (c : Cause) (s : State) : (completeMalformed c s).td = s.td := rfl
@[simp] theorem completeMalformed_hm (c : Cause) (s : State) : (completeMalformed c s).hm = s.hm := rfl
@[simp] theorem completeMalformed_ep (c : Cause) (s : State) : (completeMalformed c s).ep = s.ep := rfl
@[simp] theorem completeMalformed_dp (c : Cause) (s : State) : (completeMalformed c s).dp = s.dp := rfl
@[simp] theorem completeMalformed_fv (c : Cause) (s : State) : (completeMalformed c s).fv = s.fv := rfl
@[simp] theorem completeMalformed_inMem (c : Cause) (s : State) : (completeMalformed c s).inMem = s.inMem := rfl
@[simp] theorem completeMalformed_frame (c : Cause) (s : State) : (completeMalformed c s).frame = s.frame := rfl
@[simp] theorem completeMalformed_out (c : Cause) (s : State) : (completeMalformed c s).out = s.out := rfl
@[simp] theorem completeMalformed_sink (c : Cause) (s : State) : (completeMalformed c s).sink = s.sink := rfl
@[simp] theorem completeMalformed_ht (c : Cause) (s : State) : (completeMalformed c s).ht = s.ht := rfl

@[simp] theorem completeBadCommand_params (s : State) : (completeBadCommand s).params = s.params := rfl
@[simp] theorem completeBadCommand_rst (s : State) : (completeBadCommand s).rst = s.rst := rfl
@[simp] theorem completeBadCommand_port (s : State) : (completeBadCommand s).port = s.port := rfl
@[simp] theorem completeBadCommand_cmd (s : State) : (completeBadCommand s).cmd = s.cmd := rfl
@[simp] theorem completeBadCommand_rsp (s : State) :
    (completeBadCommand s).rsp = ⟨statusBadCommand, 0, 0, 0, 0, 0⟩ := rfl
@[simp] theorem completeBadCommand_ve (s : State) : (completeBadCommand s).ve = s.ve := rfl
@[simp] theorem completeBadCommand_vd (s : State) : (completeBadCommand s).vd = s.vd := rfl
@[simp] theorem completeBadCommand_te (s : State) : (completeBadCommand s).te = s.te := rfl
@[simp] theorem completeBadCommand_td (s : State) : (completeBadCommand s).td = s.td := rfl
@[simp] theorem completeBadCommand_hm (s : State) : (completeBadCommand s).hm = s.hm := rfl
@[simp] theorem completeBadCommand_ep (s : State) : (completeBadCommand s).ep = s.ep := rfl
@[simp] theorem completeBadCommand_dp (s : State) : (completeBadCommand s).dp = s.dp := rfl
@[simp] theorem completeBadCommand_fv (s : State) : (completeBadCommand s).fv = s.fv := rfl
@[simp] theorem completeBadCommand_inMem (s : State) : (completeBadCommand s).inMem = s.inMem := rfl
@[simp] theorem completeBadCommand_frame (s : State) : (completeBadCommand s).frame = s.frame := rfl
@[simp] theorem completeBadCommand_out (s : State) : (completeBadCommand s).out = s.out := rfl
@[simp] theorem completeBadCommand_sink (s : State) : (completeBadCommand s).sink = s.sink := rfl
@[simp] theorem completeBadCommand_ht (s : State) : (completeBadCommand s).ht = s.ht := rfl

@[simp] theorem completeInvalid_params (c : Cause) (s : State) : (completeInvalid c s).params = s.params := rfl
@[simp] theorem completeInvalid_rst (c : Cause) (s : State) : (completeInvalid c s).rst = s.rst := rfl
@[simp] theorem completeInvalid_port (c : Cause) (s : State) : (completeInvalid c s).port = s.port := rfl
@[simp] theorem completeInvalid_cmd (c : Cause) (s : State) : (completeInvalid c s).cmd = s.cmd := rfl
@[simp] theorem completeInvalid_rsp (c : Cause) (s : State) :
    (completeInvalid c s).rsp = ⟨statusDone, causeCode c, 0, 0, 0, 0⟩ := rfl
@[simp] theorem completeInvalid_ve (c : Cause) (s : State) : (completeInvalid c s).ve = s.ve := rfl
@[simp] theorem completeInvalid_vd (c : Cause) (s : State) : (completeInvalid c s).vd = s.vd := rfl
@[simp] theorem completeInvalid_te (c : Cause) (s : State) : (completeInvalid c s).te = s.te := rfl
@[simp] theorem completeInvalid_td (c : Cause) (s : State) : (completeInvalid c s).td = s.td := rfl
@[simp] theorem completeInvalid_hm (c : Cause) (s : State) : (completeInvalid c s).hm = s.hm := rfl
@[simp] theorem completeInvalid_ep (c : Cause) (s : State) : (completeInvalid c s).ep = s.ep := rfl
@[simp] theorem completeInvalid_dp (c : Cause) (s : State) : (completeInvalid c s).dp = s.dp := rfl
@[simp] theorem completeInvalid_fv (c : Cause) (s : State) : (completeInvalid c s).fv = s.fv := rfl
@[simp] theorem completeInvalid_inMem (c : Cause) (s : State) : (completeInvalid c s).inMem = s.inMem := rfl
@[simp] theorem completeInvalid_frame (c : Cause) (s : State) : (completeInvalid c s).frame = s.frame := rfl
@[simp] theorem completeInvalid_out (c : Cause) (s : State) : (completeInvalid c s).out = s.out := rfl
@[simp] theorem completeInvalid_sink (c : Cause) (s : State) : (completeInvalid c s).sink = s.sink := rfl
@[simp] theorem completeInvalid_ht (c : Cause) (s : State) : (completeInvalid c s).ht = s.ht := rfl

@[simp] theorem completePushed_params (s : State) : (completePushed s).params = s.params := rfl
@[simp] theorem completePushed_rst (s : State) : (completePushed s).rst = s.rst := rfl
@[simp] theorem completePushed_port (s : State) : (completePushed s).port = s.port := rfl
@[simp] theorem completePushed_cmd (s : State) : (completePushed s).cmd = s.cmd := rfl
@[simp] theorem completePushed_rsp (s : State) :
    (completePushed s).rsp = ⟨statusDone, 0, toPos s.params s.ep.count, 0, 0, 0⟩ := rfl
@[simp] theorem completePushed_ve (s : State) : (completePushed s).ve = s.ve := rfl
@[simp] theorem completePushed_vd (s : State) : (completePushed s).vd = s.vd := rfl
@[simp] theorem completePushed_te (s : State) : (completePushed s).te = s.te := rfl
@[simp] theorem completePushed_td (s : State) : (completePushed s).td = s.td := rfl
@[simp] theorem completePushed_hm (s : State) : (completePushed s).hm = s.hm := rfl
@[simp] theorem completePushed_ep (s : State) : (completePushed s).ep = s.ep := rfl
@[simp] theorem completePushed_dp (s : State) : (completePushed s).dp = s.dp := rfl
@[simp] theorem completePushed_fv (s : State) : (completePushed s).fv = s.fv := rfl
@[simp] theorem completePushed_inMem (s : State) : (completePushed s).inMem = s.inMem := rfl
@[simp] theorem completePushed_frame (s : State) : (completePushed s).frame = s.frame := rfl
@[simp] theorem completePushed_out (s : State) : (completePushed s).out = s.out := rfl
@[simp] theorem completePushed_sink (s : State) : (completePushed s).sink = s.sink := rfl
@[simp] theorem completePushed_ht (s : State) : (completePushed s).ht = s.ht := rfl

@[simp] theorem pushBytes_params (bs : List Byte) (s : State) : (pushBytes bs s).params = s.params := rfl
@[simp] theorem pushBytes_rst (bs : List Byte) (s : State) : (pushBytes bs s).rst = s.rst := rfl
@[simp] theorem pushBytes_port (bs : List Byte) (s : State) : (pushBytes bs s).port = s.port := rfl
@[simp] theorem pushBytes_cmd (bs : List Byte) (s : State) : (pushBytes bs s).cmd = s.cmd := rfl
@[simp] theorem pushBytes_rsp (bs : List Byte) (s : State) : (pushBytes bs s).rsp = s.rsp := rfl
@[simp] theorem pushBytes_ve (bs : List Byte) (s : State) : (pushBytes bs s).ve = s.ve := rfl
@[simp] theorem pushBytes_vd (bs : List Byte) (s : State) : (pushBytes bs s).vd = s.vd := rfl
@[simp] theorem pushBytes_te (bs : List Byte) (s : State) : (pushBytes bs s).te = s.te := rfl
@[simp] theorem pushBytes_td (bs : List Byte) (s : State) : (pushBytes bs s).td = s.td := rfl
@[simp] theorem pushBytes_hm (bs : List Byte) (s : State) : (pushBytes bs s).hm = s.hm := rfl
@[simp] theorem pushBytes_ep (bs : List Byte) (s : State) :
    (pushBytes bs s).ep = { s.ep with count := toPos s.params (s.ep.count + bs.length) } := rfl
@[simp] theorem pushBytes_dp (bs : List Byte) (s : State) : (pushBytes bs s).dp = s.dp := rfl
@[simp] theorem pushBytes_fv (bs : List Byte) (s : State) : (pushBytes bs s).fv = s.fv := rfl
@[simp] theorem pushBytes_inMem (bs : List Byte) (s : State) : (pushBytes bs s).inMem = s.inMem := rfl
@[simp] theorem pushBytes_frame (bs : List Byte) (s : State) : (pushBytes bs s).frame = s.frame := rfl
@[simp] theorem pushBytes_out (bs : List Byte) (s : State) : (pushBytes bs s).out = s.out := rfl
@[simp] theorem pushBytes_sink (bs : List Byte) (s : State) :
    (pushBytes bs s).sink = s.sink ++ bs := rfl
@[simp] theorem pushBytes_ht (bs : List Byte) (s : State) : (pushBytes bs s).ht = s.ht := rfl

@[simp] theorem clearCount_params (s : State) : (clearCount s).params = s.params := rfl
@[simp] theorem clearCount_rst (s : State) : (clearCount s).rst = s.rst := rfl
@[simp] theorem clearCount_port (s : State) : (clearCount s).port = s.port := rfl
@[simp] theorem clearCount_cmd (s : State) : (clearCount s).cmd = s.cmd := rfl
@[simp] theorem clearCount_rsp (s : State) : (clearCount s).rsp = s.rsp := rfl
@[simp] theorem clearCount_ve (s : State) : (clearCount s).ve = s.ve := rfl
@[simp] theorem clearCount_vd (s : State) : (clearCount s).vd = s.vd := rfl
@[simp] theorem clearCount_te (s : State) : (clearCount s).te = s.te := rfl
@[simp] theorem clearCount_td (s : State) : (clearCount s).td = s.td := rfl
@[simp] theorem clearCount_hm (s : State) : (clearCount s).hm = s.hm := rfl
@[simp] theorem clearCount_ep (s : State) :
    (clearCount s).ep = { s.ep with count := 0 } := rfl
@[simp] theorem clearCount_dp (s : State) : (clearCount s).dp = s.dp := rfl
@[simp] theorem clearCount_fv (s : State) : (clearCount s).fv = s.fv := rfl
@[simp] theorem clearCount_inMem (s : State) : (clearCount s).inMem = s.inMem := rfl
@[simp] theorem clearCount_frame (s : State) : (clearCount s).frame = s.frame := rfl
@[simp] theorem clearCount_out (s : State) : (clearCount s).out = s.out := rfl
@[simp] theorem clearCount_sink (s : State) : (clearCount s).sink = s.sink := rfl
@[simp] theorem clearCount_ht (s : State) : (clearCount s).ht = s.ht := rfl

@[simp] theorem startVarint_params (s : State) : (startVarint s).params = s.params := rfl
@[simp] theorem startVarint_rst (s : State) : (startVarint s).rst = s.rst := rfl
@[simp] theorem startVarint_port (s : State) : (startVarint s).port = s.port := rfl
@[simp] theorem startVarint_cmd (s : State) : (startVarint s).cmd = s.cmd := rfl
@[simp] theorem startVarint_rsp (s : State) : (startVarint s).rsp = s.rsp := rfl
@[simp] theorem startVarint_ve (s : State) : (startVarint s).ve = s.ve := rfl
@[simp] theorem startVarint_vd (s : State) :
    (startVarint s).vd = ⟨0, 0⟩ := rfl
@[simp] theorem startVarint_te (s : State) : (startVarint s).te = s.te := rfl
@[simp] theorem startVarint_td (s : State) : (startVarint s).td = s.td := rfl
@[simp] theorem startVarint_hm (s : State) : (startVarint s).hm = s.hm := rfl
@[simp] theorem startVarint_ep (s : State) : (startVarint s).ep = s.ep := rfl
@[simp] theorem startVarint_dp (s : State) : (startVarint s).dp = s.dp := rfl
@[simp] theorem startVarint_fv (s : State) : (startVarint s).fv = s.fv := rfl
@[simp] theorem startVarint_inMem (s : State) : (startVarint s).inMem = s.inMem := rfl
@[simp] theorem startVarint_frame (s : State) : (startVarint s).frame = s.frame := rfl
@[simp] theorem startVarint_out (s : State) : (startVarint s).out = s.out := rfl
@[simp] theorem startVarint_sink (s : State) : (startVarint s).sink = s.sink := rfl
@[simp] theorem startVarint_ht (s : State) : (startVarint s).ht = s.ht := rfl

@[simp] theorem takeGroup_params (g : BitVec 7) (s : State) : (takeGroup g s).params = s.params := rfl
@[simp] theorem takeGroup_rst (g : BitVec 7) (s : State) : (takeGroup g s).rst = s.rst := rfl
@[simp] theorem takeGroup_port (g : BitVec 7) (s : State) : (takeGroup g s).port = s.port := rfl
@[simp] theorem takeGroup_cmd (g : BitVec 7) (s : State) : (takeGroup g s).cmd = s.cmd := rfl
@[simp] theorem takeGroup_rsp (g : BitVec 7) (s : State) : (takeGroup g s).rsp = s.rsp := rfl
@[simp] theorem takeGroup_ve (g : BitVec 7) (s : State) : (takeGroup g s).ve = s.ve := rfl
@[simp] theorem takeGroup_vd (g : BitVec 7) (s : State) :
    (takeGroup g s).vd = ⟨s.vd.val ||| BitVec.ofNat 32 (g.toNat <<< (7 * s.vd.i.toNat)), BitVec.ofNat _ (s.vd.i.toNat + 1)⟩ := rfl
@[simp] theorem takeGroup_te (g : BitVec 7) (s : State) : (takeGroup g s).te = s.te := rfl
@[simp] theorem takeGroup_td (g : BitVec 7) (s : State) : (takeGroup g s).td = s.td := rfl
@[simp] theorem takeGroup_hm (g : BitVec 7) (s : State) : (takeGroup g s).hm = s.hm := rfl
@[simp] theorem takeGroup_ep (g : BitVec 7) (s : State) : (takeGroup g s).ep = s.ep := rfl
@[simp] theorem takeGroup_dp (g : BitVec 7) (s : State) : (takeGroup g s).dp = s.dp := rfl
@[simp] theorem takeGroup_fv (g : BitVec 7) (s : State) : (takeGroup g s).fv = s.fv := rfl
@[simp] theorem takeGroup_inMem (g : BitVec 7) (s : State) : (takeGroup g s).inMem = s.inMem := rfl
@[simp] theorem takeGroup_frame (g : BitVec 7) (s : State) : (takeGroup g s).frame = s.frame := rfl
@[simp] theorem takeGroup_out (g : BitVec 7) (s : State) : (takeGroup g s).out = s.out := rfl
@[simp] theorem takeGroup_sink (g : BitVec 7) (s : State) : (takeGroup g s).sink = s.sink := rfl
@[simp] theorem takeGroup_ht (g : BitVec 7) (s : State) : (takeGroup g s).ht = s.ht := rfl

@[simp] theorem noteTag_params (f : TagFields) (s : State) : (noteTag f s).params = s.params := rfl
@[simp] theorem noteTag_rst (f : TagFields) (s : State) : (noteTag f s).rst = s.rst := rfl
@[simp] theorem noteTag_port (f : TagFields) (s : State) : (noteTag f s).port = s.port := rfl
@[simp] theorem noteTag_cmd (f : TagFields) (s : State) : (noteTag f s).cmd = s.cmd := rfl
@[simp] theorem noteTag_rsp (f : TagFields) (s : State) : (noteTag f s).rsp = s.rsp := rfl
@[simp] theorem noteTag_ve (f : TagFields) (s : State) : (noteTag f s).ve = s.ve := rfl
@[simp] theorem noteTag_vd (f : TagFields) (s : State) : (noteTag f s).vd = s.vd := rfl
@[simp] theorem noteTag_te (f : TagFields) (s : State) : (noteTag f s).te = s.te := rfl
@[simp] theorem noteTag_td (f : TagFields) (s : State) :
    (noteTag f s).td = tagRegs f := rfl
@[simp] theorem noteTag_hm (f : TagFields) (s : State) : (noteTag f s).hm = s.hm := rfl
@[simp] theorem noteTag_ep (f : TagFields) (s : State) : (noteTag f s).ep = s.ep := rfl
@[simp] theorem noteTag_dp (f : TagFields) (s : State) : (noteTag f s).dp = s.dp := rfl
@[simp] theorem noteTag_fv (f : TagFields) (s : State) : (noteTag f s).fv = s.fv := rfl
@[simp] theorem noteTag_inMem (f : TagFields) (s : State) : (noteTag f s).inMem = s.inMem := rfl
@[simp] theorem noteTag_frame (f : TagFields) (s : State) : (noteTag f s).frame = s.frame := rfl
@[simp] theorem noteTag_out (f : TagFields) (s : State) : (noteTag f s).out = s.out := rfl
@[simp] theorem noteTag_sink (f : TagFields) (s : State) : (noteTag f s).sink = s.sink := rfl
@[simp] theorem noteTag_ht (f : TagFields) (s : State) : (noteTag f s).ht = s.ht := rfl

@[simp] theorem afterPass_params (base n : Nat) (m : MatchPass) (s : State) : (afterPass base n m s).params = s.params := rfl
@[simp] theorem afterPass_rst (base n : Nat) (m : MatchPass) (s : State) : (afterPass base n m s).rst = s.rst := rfl
@[simp] theorem afterPass_port (base n : Nat) (m : MatchPass) (s : State) : (afterPass base n m s).port = s.port := rfl
@[simp] theorem afterPass_cmd (base n : Nat) (m : MatchPass) (s : State) : (afterPass base n m s).cmd = s.cmd := rfl
@[simp] theorem afterPass_rsp (base n : Nat) (m : MatchPass) (s : State) : (afterPass base n m s).rsp = s.rsp := rfl
@[simp] theorem afterPass_ve (base n : Nat) (m : MatchPass) (s : State) : (afterPass base n m s).ve = s.ve := rfl
@[simp] theorem afterPass_vd (base n : Nat) (m : MatchPass) (s : State) : (afterPass base n m s).vd = s.vd := rfl
@[simp] theorem afterPass_te (base n : Nat) (m : MatchPass) (s : State) : (afterPass base n m s).te = s.te := rfl
@[simp] theorem afterPass_td (base n : Nat) (m : MatchPass) (s : State) : (afterPass base n m s).td = s.td := rfl
@[simp] theorem afterPass_ep (base n : Nat) (m : MatchPass) (s : State) : (afterPass base n m s).ep = s.ep := rfl
@[simp] theorem afterPass_dp (base n : Nat) (m : MatchPass) (s : State) : (afterPass base n m s).dp = s.dp := rfl
@[simp] theorem afterPass_fv (base n : Nat) (m : MatchPass) (s : State) : (afterPass base n m s).fv = s.fv := rfl
@[simp] theorem afterPass_inMem (base n : Nat) (m : MatchPass) (s : State) : (afterPass base n m s).inMem = s.inMem := rfl
@[simp] theorem afterPass_frame (base n : Nat) (m : MatchPass) (s : State) : (afterPass base n m s).frame = s.frame := rfl
@[simp] theorem afterPass_out (base n : Nat) (m : MatchPass) (s : State) : (afterPass base n m s).out = s.out := rfl
@[simp] theorem afterPass_sink (base n : Nat) (m : MatchPass) (s : State) : (afterPass base n m s).sink = s.sink := rfl
@[simp] theorem afterPass_ht (base n : Nat) (m : MatchPass) (s : State) :
    (afterPass base n m s).ht = m.ht := rfl

@[simp] theorem emitLiteral_params (runLen src : Nat) (s : State) : (emitLiteral runLen src s).params = s.params := rfl
@[simp] theorem emitLiteral_rst (runLen src : Nat) (s : State) : (emitLiteral runLen src s).rst = s.rst := rfl
@[simp] theorem emitLiteral_port (runLen src : Nat) (s : State) : (emitLiteral runLen src s).port = s.port := rfl
@[simp] theorem emitLiteral_cmd (runLen src : Nat) (s : State) : (emitLiteral runLen src s).cmd = s.cmd := rfl
@[simp] theorem emitLiteral_rsp (runLen src : Nat) (s : State) : (emitLiteral runLen src s).rsp = s.rsp := rfl
@[simp] theorem emitLiteral_ve (runLen src : Nat) (s : State) : (emitLiteral runLen src s).ve = s.ve := rfl
@[simp] theorem emitLiteral_vd (runLen src : Nat) (s : State) : (emitLiteral runLen src s).vd = s.vd := rfl
@[simp] theorem emitLiteral_te (runLen src : Nat) (s : State) : (emitLiteral runLen src s).te = s.te := rfl
@[simp] theorem emitLiteral_td (runLen src : Nat) (s : State) : (emitLiteral runLen src s).td = s.td := rfl
@[simp] theorem emitLiteral_hm (runLen src : Nat) (s : State) : (emitLiteral runLen src s).hm = s.hm := rfl
@[simp] theorem emitLiteral_dp (runLen src : Nat) (s : State) : (emitLiteral runLen src s).dp = s.dp := rfl
@[simp] theorem emitLiteral_fv (runLen src : Nat) (s : State) : (emitLiteral runLen src s).fv = s.fv := rfl
@[simp] theorem emitLiteral_inMem (runLen src : Nat) (s : State) : (emitLiteral runLen src s).inMem = s.inMem := rfl
@[simp] theorem emitLiteral_frame (runLen src : Nat) (s : State) : (emitLiteral runLen src s).frame = s.frame := rfl
@[simp] theorem emitLiteral_out (runLen src : Nat) (s : State) : (emitLiteral runLen src s).out = s.out := rfl
@[simp] theorem emitLiteral_sink (runLen src : Nat) (s : State) :
    (emitLiteral runLen src s).sink = s.sink ++ (literalHeader runLen ++ readInRange s src runLen) := rfl
@[simp] theorem emitLiteral_ht (runLen src : Nat) (s : State) : (emitLiteral runLen src s).ht = s.ht := rfl

@[simp] theorem emitCopy_params (offset len : Nat) (s : State) : (emitCopy offset len s).params = s.params := rfl
@[simp] theorem emitCopy_rst (offset len : Nat) (s : State) : (emitCopy offset len s).rst = s.rst := rfl
@[simp] theorem emitCopy_port (offset len : Nat) (s : State) : (emitCopy offset len s).port = s.port := rfl
@[simp] theorem emitCopy_cmd (offset len : Nat) (s : State) : (emitCopy offset len s).cmd = s.cmd := rfl
@[simp] theorem emitCopy_rsp (offset len : Nat) (s : State) : (emitCopy offset len s).rsp = s.rsp := rfl
@[simp] theorem emitCopy_ve (offset len : Nat) (s : State) : (emitCopy offset len s).ve = s.ve := rfl
@[simp] theorem emitCopy_vd (offset len : Nat) (s : State) : (emitCopy offset len s).vd = s.vd := rfl
@[simp] theorem emitCopy_te (offset len : Nat) (s : State) :
    (emitCopy offset len s).te = ⟨BitVec.ofNat _ offset, 0⟩ := rfl
@[simp] theorem emitCopy_td (offset len : Nat) (s : State) : (emitCopy offset len s).td = s.td := rfl
@[simp] theorem emitCopy_hm (offset len : Nat) (s : State) : (emitCopy offset len s).hm = s.hm := rfl
@[simp] theorem emitCopy_dp (offset len : Nat) (s : State) : (emitCopy offset len s).dp = s.dp := rfl
@[simp] theorem emitCopy_fv (offset len : Nat) (s : State) : (emitCopy offset len s).fv = s.fv := rfl
@[simp] theorem emitCopy_inMem (offset len : Nat) (s : State) : (emitCopy offset len s).inMem = s.inMem := rfl
@[simp] theorem emitCopy_frame (offset len : Nat) (s : State) : (emitCopy offset len s).frame = s.frame := rfl
@[simp] theorem emitCopy_out (offset len : Nat) (s : State) : (emitCopy offset len s).out = s.out := rfl
@[simp] theorem emitCopy_sink (offset len : Nat) (s : State) :
    (emitCopy offset len s).sink = s.sink ++ copyBytes offset len := rfl
@[simp] theorem emitCopy_ht (offset len : Nat) (s : State) : (emitCopy offset len s).ht = s.ht := rfl

@[simp] theorem pushVarint_params (v : Nat) (s : State) : (pushVarint v s).params = s.params := rfl
@[simp] theorem pushVarint_rst (v : Nat) (s : State) : (pushVarint v s).rst = s.rst := rfl
@[simp] theorem pushVarint_port (v : Nat) (s : State) : (pushVarint v s).port = s.port := rfl
@[simp] theorem pushVarint_cmd (v : Nat) (s : State) : (pushVarint v s).cmd = s.cmd := rfl
@[simp] theorem pushVarint_rsp (v : Nat) (s : State) : (pushVarint v s).rsp = s.rsp := rfl
@[simp] theorem pushVarint_vd (v : Nat) (s : State) : (pushVarint v s).vd = s.vd := rfl
@[simp] theorem pushVarint_te (v : Nat) (s : State) : (pushVarint v s).te = s.te := rfl
@[simp] theorem pushVarint_td (v : Nat) (s : State) : (pushVarint v s).td = s.td := rfl
@[simp] theorem pushVarint_hm (v : Nat) (s : State) : (pushVarint v s).hm = s.hm := rfl
@[simp] theorem pushVarint_dp (v : Nat) (s : State) : (pushVarint v s).dp = s.dp := rfl
@[simp] theorem pushVarint_fv (v : Nat) (s : State) : (pushVarint v s).fv = s.fv := rfl
@[simp] theorem pushVarint_inMem (v : Nat) (s : State) : (pushVarint v s).inMem = s.inMem := rfl
@[simp] theorem pushVarint_frame (v : Nat) (s : State) : (pushVarint v s).frame = s.frame := rfl
@[simp] theorem pushVarint_out (v : Nat) (s : State) : (pushVarint v s).out = s.out := rfl
@[simp] theorem pushVarint_sink (v : Nat) (s : State) :
    (pushVarint v s).sink = s.sink ++ varintEncode v := rfl
@[simp] theorem pushVarint_ht (v : Nat) (s : State) : (pushVarint v s).ht = s.ht := rfl

@[simp] theorem startCompress_params (n : Nat) (s : State) : (startCompress n s).params = s.params := rfl
@[simp] theorem startCompress_rst (n : Nat) (s : State) : (startCompress n s).rst = s.rst := rfl
@[simp] theorem startCompress_port (n : Nat) (s : State) : (startCompress n s).port = s.port := rfl
@[simp] theorem startCompress_cmd (n : Nat) (s : State) : (startCompress n s).cmd = s.cmd := rfl
@[simp] theorem startCompress_rsp (n : Nat) (s : State) : (startCompress n s).rsp = s.rsp := rfl
@[simp] theorem startCompress_ve (n : Nat) (s : State) : (startCompress n s).ve = s.ve := rfl
@[simp] theorem startCompress_vd (n : Nat) (s : State) : (startCompress n s).vd = s.vd := rfl
@[simp] theorem startCompress_te (n : Nat) (s : State) : (startCompress n s).te = s.te := rfl
@[simp] theorem startCompress_td (n : Nat) (s : State) : (startCompress n s).td = s.td := rfl
@[simp] theorem startCompress_hm (n : Nat) (s : State) : (startCompress n s).hm = s.hm := rfl
@[simp] theorem startCompress_ep (n : Nat) (s : State) :
    (startCompress n s).ep = { s.ep with inLen := BitVec.ofNat _ n, fragBase := 0, count := 0 } := rfl
@[simp] theorem startCompress_dp (n : Nat) (s : State) : (startCompress n s).dp = s.dp := rfl
@[simp] theorem startCompress_fv (n : Nat) (s : State) : (startCompress n s).fv = s.fv := rfl
@[simp] theorem startCompress_inMem (n : Nat) (s : State) : (startCompress n s).inMem = s.inMem := rfl
@[simp] theorem startCompress_frame (n : Nat) (s : State) : (startCompress n s).frame = s.frame := rfl
@[simp] theorem startCompress_out (n : Nat) (s : State) : (startCompress n s).out = s.out := rfl
@[simp] theorem startCompress_sink (n : Nat) (s : State) : (startCompress n s).sink = s.sink := rfl
@[simp] theorem startCompress_ht (n : Nat) (s : State) : (startCompress n s).ht = s.ht := rfl

@[simp] theorem noteFragLen_params (len : Nat) (s : State) : (noteFragLen len s).params = s.params := rfl
@[simp] theorem noteFragLen_rst (len : Nat) (s : State) : (noteFragLen len s).rst = s.rst := rfl
@[simp] theorem noteFragLen_port (len : Nat) (s : State) : (noteFragLen len s).port = s.port := rfl
@[simp] theorem noteFragLen_cmd (len : Nat) (s : State) : (noteFragLen len s).cmd = s.cmd := rfl
@[simp] theorem noteFragLen_rsp (len : Nat) (s : State) : (noteFragLen len s).rsp = s.rsp := rfl
@[simp] theorem noteFragLen_ve (len : Nat) (s : State) : (noteFragLen len s).ve = s.ve := rfl
@[simp] theorem noteFragLen_vd (len : Nat) (s : State) : (noteFragLen len s).vd = s.vd := rfl
@[simp] theorem noteFragLen_te (len : Nat) (s : State) : (noteFragLen len s).te = s.te := rfl
@[simp] theorem noteFragLen_td (len : Nat) (s : State) : (noteFragLen len s).td = s.td := rfl
@[simp] theorem noteFragLen_hm (len : Nat) (s : State) : (noteFragLen len s).hm = s.hm := rfl
@[simp] theorem noteFragLen_ep (len : Nat) (s : State) :
    (noteFragLen len s).ep = { s.ep with fragLen := BitVec.ofNat _ len } := rfl
@[simp] theorem noteFragLen_dp (len : Nat) (s : State) : (noteFragLen len s).dp = s.dp := rfl
@[simp] theorem noteFragLen_fv (len : Nat) (s : State) : (noteFragLen len s).fv = s.fv := rfl
@[simp] theorem noteFragLen_inMem (len : Nat) (s : State) : (noteFragLen len s).inMem = s.inMem := rfl
@[simp] theorem noteFragLen_frame (len : Nat) (s : State) : (noteFragLen len s).frame = s.frame := rfl
@[simp] theorem noteFragLen_out (len : Nat) (s : State) : (noteFragLen len s).out = s.out := rfl
@[simp] theorem noteFragLen_sink (len : Nat) (s : State) : (noteFragLen len s).sink = s.sink := rfl
@[simp] theorem noteFragLen_ht (len : Nat) (s : State) : (noteFragLen len s).ht = s.ht := rfl

@[simp] theorem noteFragBase_params (base : Nat) (s : State) : (noteFragBase base s).params = s.params := rfl
@[simp] theorem noteFragBase_rst (base : Nat) (s : State) : (noteFragBase base s).rst = s.rst := rfl
@[simp] theorem noteFragBase_port (base : Nat) (s : State) : (noteFragBase base s).port = s.port := rfl
@[simp] theorem noteFragBase_cmd (base : Nat) (s : State) : (noteFragBase base s).cmd = s.cmd := rfl
@[simp] theorem noteFragBase_rsp (base : Nat) (s : State) : (noteFragBase base s).rsp = s.rsp := rfl
@[simp] theorem noteFragBase_ve (base : Nat) (s : State) : (noteFragBase base s).ve = s.ve := rfl
@[simp] theorem noteFragBase_vd (base : Nat) (s : State) : (noteFragBase base s).vd = s.vd := rfl
@[simp] theorem noteFragBase_te (base : Nat) (s : State) : (noteFragBase base s).te = s.te := rfl
@[simp] theorem noteFragBase_td (base : Nat) (s : State) : (noteFragBase base s).td = s.td := rfl
@[simp] theorem noteFragBase_hm (base : Nat) (s : State) : (noteFragBase base s).hm = s.hm := rfl
@[simp] theorem noteFragBase_ep (base : Nat) (s : State) :
    (noteFragBase base s).ep = { s.ep with fragBase := BitVec.ofNat _ base } := rfl
@[simp] theorem noteFragBase_dp (base : Nat) (s : State) : (noteFragBase base s).dp = s.dp := rfl
@[simp] theorem noteFragBase_fv (base : Nat) (s : State) : (noteFragBase base s).fv = s.fv := rfl
@[simp] theorem noteFragBase_inMem (base : Nat) (s : State) : (noteFragBase base s).inMem = s.inMem := rfl
@[simp] theorem noteFragBase_frame (base : Nat) (s : State) : (noteFragBase base s).frame = s.frame := rfl
@[simp] theorem noteFragBase_out (base : Nat) (s : State) : (noteFragBase base s).out = s.out := rfl
@[simp] theorem noteFragBase_sink (base : Nat) (s : State) : (noteFragBase base s).sink = s.sink := rfl
@[simp] theorem noteFragBase_ht (base : Nat) (s : State) : (noteFragBase base s).ht = s.ht := rfl

@[simp] theorem applyReset_params (s : State) : (applyReset s).params = s.params := rfl
@[simp] theorem applyReset_rst (s : State) :
    (applyReset s).rst = false := rfl
@[simp] theorem applyReset_port (s : State) :
    (applyReset s).port = [] := rfl
@[simp] theorem applyReset_rsp (s : State) :
    (applyReset s).rsp = ⟨0, 0, 0, 0, 0, 0⟩ := rfl
@[simp] theorem applyReset_ve (s : State) :
    (applyReset s).ve = ⟨0, 0⟩ := rfl
@[simp] theorem applyReset_vd (s : State) :
    (applyReset s).vd = ⟨0, 0⟩ := rfl
@[simp] theorem applyReset_te (s : State) :
    (applyReset s).te = ⟨0, 0⟩ := rfl
@[simp] theorem applyReset_td (s : State) :
    (applyReset s).td = ⟨0, 0, 0, 0⟩ := rfl
@[simp] theorem applyReset_hm (s : State) :
    (applyReset s).hm = ⟨0, 0, 0, 0, 0, 0⟩ := rfl
@[simp] theorem applyReset_ep (s : State) :
    (applyReset s).ep = ⟨0, 0, 0, 0⟩ := rfl
@[simp] theorem applyReset_dp (s : State) :
    (applyReset s).dp = WalkRegs.zero := rfl
@[simp] theorem applyReset_fv (s : State) :
    (applyReset s).fv = WalkRegs.zero := rfl
@[simp] theorem applyReset_inMem (s : State) : (applyReset s).inMem = s.inMem := rfl
@[simp] theorem applyReset_frame (s : State) : (applyReset s).frame = s.frame := rfl
@[simp] theorem applyReset_out (s : State) : (applyReset s).out = s.out := rfl
@[simp] theorem applyReset_sink (s : State) : (applyReset s).sink = s.sink := rfl

@[simp] theorem setWalk_params (u : WalkUnit) (w : WalkRegs) (s : State) : (setWalk u w s).params = s.params := by cases u <;> rfl
@[simp] theorem setWalk_rst (u : WalkUnit) (w : WalkRegs) (s : State) : (setWalk u w s).rst = s.rst := by cases u <;> rfl
@[simp] theorem setWalk_port (u : WalkUnit) (w : WalkRegs) (s : State) : (setWalk u w s).port = s.port := by cases u <;> rfl
@[simp] theorem setWalk_cmd (u : WalkUnit) (w : WalkRegs) (s : State) : (setWalk u w s).cmd = s.cmd := by cases u <;> rfl
@[simp] theorem setWalk_rsp (u : WalkUnit) (w : WalkRegs) (s : State) : (setWalk u w s).rsp = s.rsp := by cases u <;> rfl
@[simp] theorem setWalk_ve (u : WalkUnit) (w : WalkRegs) (s : State) : (setWalk u w s).ve = s.ve := by cases u <;> rfl
@[simp] theorem setWalk_vd (u : WalkUnit) (w : WalkRegs) (s : State) : (setWalk u w s).vd = s.vd := by cases u <;> rfl
@[simp] theorem setWalk_te (u : WalkUnit) (w : WalkRegs) (s : State) : (setWalk u w s).te = s.te := by cases u <;> rfl
@[simp] theorem setWalk_td (u : WalkUnit) (w : WalkRegs) (s : State) : (setWalk u w s).td = s.td := by cases u <;> rfl
@[simp] theorem setWalk_hm (u : WalkUnit) (w : WalkRegs) (s : State) : (setWalk u w s).hm = s.hm := by cases u <;> rfl
@[simp] theorem setWalk_ep (u : WalkUnit) (w : WalkRegs) (s : State) : (setWalk u w s).ep = s.ep := by cases u <;> rfl
@[simp] theorem setWalk_inMem (u : WalkUnit) (w : WalkRegs) (s : State) : (setWalk u w s).inMem = s.inMem := by cases u <;> rfl
@[simp] theorem setWalk_frame (u : WalkUnit) (w : WalkRegs) (s : State) : (setWalk u w s).frame = s.frame := by cases u <;> rfl
@[simp] theorem setWalk_out (u : WalkUnit) (w : WalkRegs) (s : State) : (setWalk u w s).out = s.out := by cases u <;> rfl
@[simp] theorem setWalk_sink (u : WalkUnit) (w : WalkRegs) (s : State) : (setWalk u w s).sink = s.sink := by cases u <;> rfl
@[simp] theorem setWalk_ht (u : WalkUnit) (w : WalkRegs) (s : State) : (setWalk u w s).ht = s.ht := by cases u <;> rfl

@[simp] theorem failUnit_params (u : WalkUnit) (c : Cause) (s : State) : (failUnit u c s).params = s.params := by cases u <;> rfl
@[simp] theorem failUnit_rst (u : WalkUnit) (c : Cause) (s : State) : (failUnit u c s).rst = s.rst := by cases u <;> rfl
@[simp] theorem failUnit_port (u : WalkUnit) (c : Cause) (s : State) : (failUnit u c s).port = s.port := by cases u <;> rfl
@[simp] theorem failUnit_cmd (u : WalkUnit) (c : Cause) (s : State) : (failUnit u c s).cmd = s.cmd := by cases u <;> rfl
@[simp] theorem failUnit_rsp (u : WalkUnit) (c : Cause) (s : State) : (failUnit u c s).rsp = s.rsp := by cases u <;> rfl
@[simp] theorem failUnit_ve (u : WalkUnit) (c : Cause) (s : State) : (failUnit u c s).ve = s.ve := by cases u <;> rfl
@[simp] theorem failUnit_vd (u : WalkUnit) (c : Cause) (s : State) : (failUnit u c s).vd = s.vd := by cases u <;> rfl
@[simp] theorem failUnit_te (u : WalkUnit) (c : Cause) (s : State) : (failUnit u c s).te = s.te := by cases u <;> rfl
@[simp] theorem failUnit_td (u : WalkUnit) (c : Cause) (s : State) : (failUnit u c s).td = s.td := by cases u <;> rfl
@[simp] theorem failUnit_hm (u : WalkUnit) (c : Cause) (s : State) : (failUnit u c s).hm = s.hm := by cases u <;> rfl
@[simp] theorem failUnit_ep (u : WalkUnit) (c : Cause) (s : State) : (failUnit u c s).ep = s.ep := by cases u <;> rfl
@[simp] theorem failUnit_inMem (u : WalkUnit) (c : Cause) (s : State) : (failUnit u c s).inMem = s.inMem := by cases u <;> rfl
@[simp] theorem failUnit_frame (u : WalkUnit) (c : Cause) (s : State) : (failUnit u c s).frame = s.frame := by cases u <;> rfl
@[simp] theorem failUnit_out (u : WalkUnit) (c : Cause) (s : State) : (failUnit u c s).out = s.out := by cases u <;> rfl
@[simp] theorem failUnit_sink (u : WalkUnit) (c : Cause) (s : State) : (failUnit u c s).sink = s.sink := by cases u <;> rfl
@[simp] theorem failUnit_ht (u : WalkUnit) (c : Cause) (s : State) : (failUnit u c s).ht = s.ht := by cases u <;> rfl

@[simp] theorem advance_params (u : WalkUnit) (len pc : Nat) (s : State) : (advance u len pc s).params = s.params := by cases u <;> rfl
@[simp] theorem advance_rst (u : WalkUnit) (len pc : Nat) (s : State) : (advance u len pc s).rst = s.rst := by cases u <;> rfl
@[simp] theorem advance_port (u : WalkUnit) (len pc : Nat) (s : State) : (advance u len pc s).port = s.port := by cases u <;> rfl
@[simp] theorem advance_cmd (u : WalkUnit) (len pc : Nat) (s : State) : (advance u len pc s).cmd = s.cmd := by cases u <;> rfl
@[simp] theorem advance_rsp (u : WalkUnit) (len pc : Nat) (s : State) : (advance u len pc s).rsp = s.rsp := by cases u <;> rfl
@[simp] theorem advance_ve (u : WalkUnit) (len pc : Nat) (s : State) : (advance u len pc s).ve = s.ve := by cases u <;> rfl
@[simp] theorem advance_vd (u : WalkUnit) (len pc : Nat) (s : State) : (advance u len pc s).vd = s.vd := by cases u <;> rfl
@[simp] theorem advance_te (u : WalkUnit) (len pc : Nat) (s : State) : (advance u len pc s).te = s.te := by cases u <;> rfl
@[simp] theorem advance_td (u : WalkUnit) (len pc : Nat) (s : State) : (advance u len pc s).td = s.td := by cases u <;> rfl
@[simp] theorem advance_hm (u : WalkUnit) (len pc : Nat) (s : State) : (advance u len pc s).hm = s.hm := by cases u <;> rfl
@[simp] theorem advance_ep (u : WalkUnit) (len pc : Nat) (s : State) : (advance u len pc s).ep = s.ep := by cases u <;> rfl
@[simp] theorem advance_inMem (u : WalkUnit) (len pc : Nat) (s : State) : (advance u len pc s).inMem = s.inMem := by cases u <;> rfl
@[simp] theorem advance_frame (u : WalkUnit) (len pc : Nat) (s : State) : (advance u len pc s).frame = s.frame := by cases u <;> rfl
@[simp] theorem advance_out (u : WalkUnit) (len pc : Nat) (s : State) : (advance u len pc s).out = s.out := by cases u <;> rfl
@[simp] theorem advance_sink (u : WalkUnit) (len pc : Nat) (s : State) : (advance u len pc s).sink = s.sink := by cases u <;> rfl
@[simp] theorem advance_ht (u : WalkUnit) (len pc : Nat) (s : State) : (advance u len pc s).ht = s.ht := by cases u <;> rfl

@[simp] theorem startWalk_params (u : WalkUnit) (n : Nat) (s : State) : (startWalk u n s).params = s.params := by cases u <;> rfl
@[simp] theorem startWalk_rst (u : WalkUnit) (n : Nat) (s : State) : (startWalk u n s).rst = s.rst := by cases u <;> rfl
@[simp] theorem startWalk_port (u : WalkUnit) (n : Nat) (s : State) : (startWalk u n s).port = s.port := by cases u <;> rfl
@[simp] theorem startWalk_cmd (u : WalkUnit) (n : Nat) (s : State) : (startWalk u n s).cmd = s.cmd := by cases u <;> rfl
@[simp] theorem startWalk_rsp (u : WalkUnit) (n : Nat) (s : State) : (startWalk u n s).rsp = s.rsp := by cases u <;> rfl
@[simp] theorem startWalk_ve (u : WalkUnit) (n : Nat) (s : State) : (startWalk u n s).ve = s.ve := by cases u <;> rfl
@[simp] theorem startWalk_vd (u : WalkUnit) (n : Nat) (s : State) :
    (startWalk u n s).vd = ⟨0, 0⟩ := by cases u <;> rfl
@[simp] theorem startWalk_te (u : WalkUnit) (n : Nat) (s : State) : (startWalk u n s).te = s.te := by cases u <;> rfl
@[simp] theorem startWalk_td (u : WalkUnit) (n : Nat) (s : State) : (startWalk u n s).td = s.td := by cases u <;> rfl
@[simp] theorem startWalk_hm (u : WalkUnit) (n : Nat) (s : State) : (startWalk u n s).hm = s.hm := by cases u <;> rfl
@[simp] theorem startWalk_ep (u : WalkUnit) (n : Nat) (s : State) : (startWalk u n s).ep = s.ep := by cases u <;> rfl
@[simp] theorem startWalk_inMem (u : WalkUnit) (n : Nat) (s : State) : (startWalk u n s).inMem = s.inMem := by cases u <;> rfl
@[simp] theorem startWalk_frame (u : WalkUnit) (n : Nat) (s : State) : (startWalk u n s).frame = s.frame := by cases u <;> rfl
@[simp] theorem startWalk_out (u : WalkUnit) (n : Nat) (s : State) : (startWalk u n s).out = s.out := by cases u <;> rfl
@[simp] theorem startWalk_sink (u : WalkUnit) (n : Nat) (s : State) : (startWalk u n s).sink = s.sink := by cases u <;> rfl
@[simp] theorem startWalk_ht (u : WalkUnit) (n : Nat) (s : State) : (startWalk u n s).ht = s.ht := by cases u <;> rfl

@[simp] theorem noteKind_params (T : Option Byte) (s : State) : (noteKind T s).params = s.params := by cases T <;> rfl
@[simp] theorem noteKind_rst (T : Option Byte) (s : State) : (noteKind T s).rst = s.rst := by cases T <;> rfl
@[simp] theorem noteKind_port (T : Option Byte) (s : State) : (noteKind T s).port = s.port := by cases T <;> rfl
@[simp] theorem noteKind_cmd (T : Option Byte) (s : State) : (noteKind T s).cmd = s.cmd := by cases T <;> rfl
@[simp] theorem noteKind_rsp (T : Option Byte) (s : State) : (noteKind T s).rsp = s.rsp := by cases T <;> rfl
@[simp] theorem noteKind_ve (T : Option Byte) (s : State) : (noteKind T s).ve = s.ve := by cases T <;> rfl
@[simp] theorem noteKind_vd (T : Option Byte) (s : State) : (noteKind T s).vd = s.vd := by cases T <;> rfl
@[simp] theorem noteKind_te (T : Option Byte) (s : State) : (noteKind T s).te = s.te := by cases T <;> rfl
@[simp] theorem noteKind_hm (T : Option Byte) (s : State) : (noteKind T s).hm = s.hm := by cases T <;> rfl
@[simp] theorem noteKind_ep (T : Option Byte) (s : State) : (noteKind T s).ep = s.ep := by cases T <;> rfl
@[simp] theorem noteKind_dp (T : Option Byte) (s : State) : (noteKind T s).dp = s.dp := by cases T <;> rfl
@[simp] theorem noteKind_fv (T : Option Byte) (s : State) : (noteKind T s).fv = s.fv := by cases T <;> rfl
@[simp] theorem noteKind_inMem (T : Option Byte) (s : State) : (noteKind T s).inMem = s.inMem := by cases T <;> rfl
@[simp] theorem noteKind_frame (T : Option Byte) (s : State) : (noteKind T s).frame = s.frame := by cases T <;> rfl
@[simp] theorem noteKind_out (T : Option Byte) (s : State) : (noteKind T s).out = s.out := by cases T <;> rfl
@[simp] theorem noteKind_sink (T : Option Byte) (s : State) : (noteKind T s).sink = s.sink := by cases T <;> rfl
@[simp] theorem noteKind_ht (T : Option Byte) (s : State) : (noteKind T s).ht = s.ht := by cases T <;> rfl

@[simp] theorem raiseMalformed_params (c : Cause) (s : State) : (raiseMalformed c s).params = s.params := by unfold raiseMalformed; split <;> [rfl; split <;> rfl]
@[simp] theorem raiseMalformed_rst (c : Cause) (s : State) : (raiseMalformed c s).rst = s.rst := by unfold raiseMalformed; split <;> [rfl; split <;> rfl]
@[simp] theorem raiseMalformed_port (c : Cause) (s : State) : (raiseMalformed c s).port = s.port := by unfold raiseMalformed; split <;> [rfl; split <;> rfl]
@[simp] theorem raiseMalformed_cmd (c : Cause) (s : State) : (raiseMalformed c s).cmd = s.cmd := by unfold raiseMalformed; split <;> [rfl; split <;> rfl]
@[simp] theorem raiseMalformed_ve (c : Cause) (s : State) : (raiseMalformed c s).ve = s.ve := by unfold raiseMalformed; split <;> [rfl; split <;> rfl]
@[simp] theorem raiseMalformed_vd (c : Cause) (s : State) : (raiseMalformed c s).vd = s.vd := by unfold raiseMalformed; split <;> [rfl; split <;> rfl]
@[simp] theorem raiseMalformed_te (c : Cause) (s : State) : (raiseMalformed c s).te = s.te := by unfold raiseMalformed; split <;> [rfl; split <;> rfl]
@[simp] theorem raiseMalformed_td (c : Cause) (s : State) : (raiseMalformed c s).td = s.td := by unfold raiseMalformed; split <;> [rfl; split <;> rfl]
@[simp] theorem raiseMalformed_hm (c : Cause) (s : State) : (raiseMalformed c s).hm = s.hm := by unfold raiseMalformed; split <;> [rfl; split <;> rfl]
@[simp] theorem raiseMalformed_ep (c : Cause) (s : State) : (raiseMalformed c s).ep = s.ep := by unfold raiseMalformed; split <;> [rfl; split <;> rfl]
@[simp] theorem raiseMalformed_inMem (c : Cause) (s : State) : (raiseMalformed c s).inMem = s.inMem := by unfold raiseMalformed; split <;> [rfl; split <;> rfl]
@[simp] theorem raiseMalformed_frame (c : Cause) (s : State) : (raiseMalformed c s).frame = s.frame := by unfold raiseMalformed; split <;> [rfl; split <;> rfl]
@[simp] theorem raiseMalformed_out (c : Cause) (s : State) : (raiseMalformed c s).out = s.out := by unfold raiseMalformed; split <;> [rfl; split <;> rfl]
@[simp] theorem raiseMalformed_sink (c : Cause) (s : State) : (raiseMalformed c s).sink = s.sink := by unfold raiseMalformed; split <;> [rfl; split <;> rfl]
@[simp] theorem raiseMalformed_ht (c : Cause) (s : State) : (raiseMalformed c s).ht = s.ht := by unfold raiseMalformed; split <;> [rfl; split <;> rfl]

@[simp] theorem walkRegs_setWalk (u : WalkUnit) (w : WalkRegs) (s : State) : walkRegs u (setWalk u w s) = w := by
  cases u <;> rfl

@[simp] theorem setWalk_dp_fv (w : WalkRegs) (s : State) : (setWalk .dp w s).fv = s.fv := rfl

@[simp] theorem setWalk_fv_dp (w : WalkRegs) (s : State) : (setWalk .fv w s).dp = s.dp := rfl

@[simp] theorem setWalk_dp_dp (w : WalkRegs) (s : State) : (setWalk .dp w s).dp = w := rfl

@[simp] theorem setWalk_fv_fv (w : WalkRegs) (s : State) : (setWalk .fv w s).fv = w := rfl

@[simp] theorem walkRegs_dp (s : State) : walkRegs .dp s = s.dp := rfl

@[simp] theorem walkRegs_fv (s : State) : walkRegs .fv s = s.fv := rfl

/-! ### The width of a position -/

theorem toPos_lt (p : Params) (n : Nat) : toPos p n < 2 ^ p.posW := Nat.mod_lt _ (Nat.two_pow_pos _)

/-- Every `POS_W` admits the numbers of 33 bits. -/
theorem posW_pow (p : Params) : 2 ^ 33 ≤ 2 ^ p.posW := Nat.pow_le_pow_right (by decide) (Nat.le_add_right _ _)

theorem toPos_eq {p : Params} {n : Nat} (h : n < 2 ^ p.posW) : toPos p n = n := Nat.mod_eq_of_lt h

/-- A number of 33 bits is kept whole. -/
theorem toPos_small {p : Params} {n : Nat} (h : n < 2 ^ 33) : toPos p n = n :=
  toPos_eq (Nat.lt_of_lt_of_le h (posW_pow p))

@[simp] theorem toPos_zero (p : Params) : toPos p 0 = 0 := Nat.zero_mod _

@[simp] theorem toPos_one (p : Params) : toPos p 1 = 1 := toPos_small (by decide)

/-- A register of up to 33 bits is kept whole. -/
theorem toPos_toNat (p : Params) {w : Nat} (hw : w ≤ 33) (v : BitVec w) : toPos p v.toNat = v.toNat :=
  toPos_small (Nat.lt_of_lt_of_le v.isLt (Nat.pow_le_pow_right (by decide) hw))

@[simp] theorem toPos_word (p : Params) (v : BitVec 32) : toPos p v.toNat = v.toNat := toPos_toNat p (by decide) v

@[simp] theorem toPos_toPos (p : Params) (n : Nat) : toPos p (toPos p n) = toPos p n := Nat.mod_mod _ _

@[simp] theorem toPos_add_left (p : Params) (m n : Nat) : toPos p (toPos p m + n) = toPos p (m + n) := Nat.mod_add_mod _ _ _

end Sys2Proof.Machine
end

