-- ==== Sys2Proof/Laws/Ops.lean ====
section
/-! SUPPORT. One lemma for each shared operation that says everything it can do: errors, moves, fetches, pushes. -/

namespace Sys2Proof.Machine

theorem SameBytes.rfl' {m : List Host.Cell} : SameBytes m m := fun _ => rfl

theorem SameBytes.of_eq {m m' : List Host.Cell} (h : m' = m) : SameBytes m m' := fun _ => by rw [h]

theorem SameBytes.trans {m m' m'' : List Host.Cell} (h : SameBytes m m') (h' : SameBytes m' m'') : SameBytes m m'' :=
  fun a => (h' a).trans (h a)

theorem HostKept.trans {s t u : State} (h : HostKept s t) (h' : HostKept t u) : HostKept s u :=
  ⟨h'.params.trans h.params, h'.rst.trans h.rst, h'.port.trans h.port, h'.a0.trans h.a0, h'.a1.trans h.a1,
    h'.a2.trans h.a2, h.inMem.trans h'.inMem, h.frame.trans h'.frame⟩

theorem EncoderKept.trans {s t u : State} (h : EncoderKept s t) (h' : EncoderKept t u) : EncoderKept s u :=
  ⟨h'.ve.trans h.ve, h'.te.trans h.te, h'.hm.trans h.hm, h'.ep.trans h.ep, h'.ht.trans h.ht, h'.sink.trans h.sink⟩

/-! ### Arguments -/

theorem varintEncArgs_iff (c : CmdRegs) : varintEncArgs c = true ↔ c.a0 < 2 ^ 32 := decide_eq_true_iff

theorem compressArgs_iff (c : CmdRegs) : compressArgs c = true ↔ c.a0 < 2 ^ 32 := decide_eq_true_iff

theorem maxClenArgs_iff (c : CmdRegs) : maxClenArgs c = true ↔ c.a0 < 2 ^ 32 := decide_eq_true_iff

theorem rangeArgs_iff (c : CmdRegs) : rangeArgs c = true ↔ c.a0 ≤ c.a1 := decide_eq_true_iff

theorem emitLitArgs_iff (c : CmdRegs) :
    emitLitArgs c = true ↔
      ((c.a0 < 2 ^ 32 ∧ c.a1 < 2 ^ 32) ∧ 1 ≤ c.a0) ∧ c.a1 + c.a0 ≤ 2 ^ 32 := by
  simp only [emitLitArgs, fits, Bool.and_eq_true, decide_eq_true_iff]

theorem emitCopyArgs_iff (c : CmdRegs) :
    emitCopyArgs c = true ↔
      ((c.a0 < 2 ^ 32 ∧ c.a1 < 2 ^ 32) ∧ 1 ≤ c.a0) ∧ 4 ≤ c.a1 := by
  simp only [emitCopyArgs, fits, Bool.and_eq_true, decide_eq_true_iff]

theorem findMatchLenArgs_iff (c : CmdRegs) :
    findMatchLenArgs c = true ↔
      ((((c.a0 < 2 ^ 32 ∧ c.a1 < 2 ^ 32) ∧ c.a2 < 2 ^ 33) ∧ c.a0 ≤ c.a1) ∧
        c.a1 ≤ c.a2) ∧ c.a2 ≤ 2 ^ 32 := by
  simp only [findMatchLenArgs, fits, Bool.and_eq_true, decide_eq_true_iff]

theorem matchFragArgs_iff (c : CmdRegs) :
    matchFragArgs c = true ↔
      (((c.a0 < 2 ^ 32 ∧ c.a1 < 2 ^ 17) ∧ 1 ≤ c.a1) ∧ c.a1 ≤ 65536) ∧
        c.a0 + c.a1 ≤ 2 ^ 32 := by
  simp only [matchFragArgs, fits, Bool.and_eq_true, decide_eq_true_iff]

/-! ### Errors -/

/-- Entering an error does to the state exactly what `Raised` says. -/
theorem raised_raiseMalformed (c : Cause) (s : State) : Raised c s (raiseMalformed c s) := by
  unfold raiseMalformed
  split
  · next h => constructor <;> (try constructor) <;> simp [SameBytes, failUnit, setWalk, walkRegs, h]
  · next h =>
    split
    · next h' => constructor <;> (try constructor) <;> simp [SameBytes, failUnit, setWalk, walkRegs, h, h']
    · next h' => constructor <;> (try constructor) <;> simp [SameBytes, h, h']

/-- The parser's registers do not matter to an error. -/
theorem Raised.of_td {c : Cause} {s t : State} {r : TagDecRegs} (h : Raised c { s with td := r } t) : Raised c s t :=
  ⟨⟨h.host.params, h.host.rst, h.host.port, h.host.a0, h.host.a1, h.host.a2, h.host.inMem, h.host.frame⟩,
    ⟨h.encoder.ve, h.encoder.te, h.encoder.hm, h.encoder.ep, h.encoder.ht, h.encoder.sink⟩,
    h.op, h.vd, h.out, h.dp, h.fv, h.rsp⟩

theorem raised_td (c : Cause) (r : TagDecRegs) (s : State) : Raised c s (raiseMalformed c { s with td := r }) :=
  (raised_raiseMalformed c _).of_td

theorem raised_noteTag (c : Cause) (f : TagFields) (s : State) : Raised c s (raiseMalformed c (noteTag f s)) :=
  (raised_raiseMalformed c (noteTag f s)).of_td

theorem raised_noteKind (c : Cause) (T : Option Byte) (s : State) : Raised c s (raiseMalformed c (noteKind T s)) := by
  cases T with
  | none => exact raised_raiseMalformed c s
  | some T => exact (raised_raiseMalformed c (noteKind (some T) s)).of_td

theorem raised_raiseTagTruncated (f : TagFields) (s : State) : Raised .tagTruncated s (raiseTagTruncated f s) :=
  (raised_raiseMalformed _ _).of_td

theorem Raised.not_busy {c : Cause} {s t : State} (h : Raised c s t) : busy t = false := by
  unfold busy; rw [h.rsp]; split <;> dsimp only <;> decide

theorem Raised.done {c : Cause} {s t : State} (h : Raised c s t) : done t = true := by
  unfold Machine.done; rw [h.rsp]; split <;> dsimp only <;> decide

/-! ### The width of the `POS_W` registers -/

/-- Registers that are as before still fit. -/
theorem WidthOk.of_same {s t : State} (h : WidthOk s) (hp : t.params = s.params) (hc : t.cmd = s.cmd)
    (hr : t.rsp = s.rsp) (he : t.ep = s.ep) (hd : t.dp = s.dp) (hf : t.fv = s.fv) : WidthOk t := by
  obtain ⟨h1, h2, h3, h4, h5, h6, h7, h8, h9, h10, h11, h12⟩ := h
  constructor <;> rw [hp] <;> simp only [hc, hr, he, hd, hf] <;> assumption

/-- Results are narrowed as they are returned. -/
theorem WidthOk.completeNormal {s : State} (h : WidthOk s) (r0 r1 r2 r3 : Nat) :
    WidthOk (completeNormal r0 r1 r2 r3 s) :=
  ⟨h.a0, h.a1, h.a2, toPos_lt _ _, toPos_lt _ _, toPos_lt _ _, toPos_lt _ _, h.count, h.dpPc, h.dpEnd, h.fvPc, h.fvEnd⟩

/-- An error returns no result and moves no cursor. -/
theorem Raised.width {c : Cause} {s t : State} (h : Raised c s t) (hs : WidthOk s) : WidthOk t := by
  have h0 : 0 < 2 ^ s.params.posW := Nat.two_pow_pos _
  obtain ⟨h1, h2, h3, -, -, -, -, h8, h9, h10, h11, h12⟩ := hs
  constructor <;> rw [h.host.params] <;>
    simp only [h.host.a0, h.host.a1, h.host.a2, h.rsp, h.encoder.ep, h.dp, h.fv] <;> (try split) <;> assumption

/-! ### Fetching -/

theorem readFrame_ok {s : State} {endPos a n : Nat} (h : a + n ≤ endPos) :
    readFrame s endPos a n = .ok (cellRange s.frame a n) := if_pos h

theorem bytesFrom_succ (rd : Nat → Byte) (a n : Nat) : bytesFrom rd a (n + 1) = rd a :: bytesFrom rd (a + 1) n := by
  simp [bytesFrom, List.range_succ_eq_map, Function.comp_def, Nat.add_assoc, Nat.add_comm 1]

@[simp] theorem bytesFrom_length (rd : Nat → Byte) (a n : Nat) : (bytesFrom rd a n).length = n := by simp [bytesFrom]

theorem bytesFrom_add (rd : Nat → Byte) (a m n : Nat) :
    bytesFrom rd a (m + n) = bytesFrom rd a m ++ bytesFrom rd (a + m) n := by
  simp [bytesFrom, List.range_add, Function.comp_def, Nat.add_assoc]

theorem cellRange_eq (m : List Host.Cell) (a n : Nat) : cellRange m a n = bytesFrom (cellGet m) a n := by
  induction n generalizing a with
  | zero => rfl
  | succ n ih => simp [cellRange, bytesFrom_succ, ih]

/-- What the tag parser finds: nothing to parse, a header that is cut, or the tag. It never reads past the end. -/
theorem fetchTag_eq (s : State) (pos endPos : Nat) :
    (endPos ≤ pos → fetchTag s pos endPos = .ok (.truncated none)) ∧
      (pos < endPos → endPos < pos + headerLen (cellGet s.frame pos) →
        fetchTag s pos endPos = .ok (.truncated (some (cellGet s.frame pos)))) ∧
      (pos + headerLen (cellGet s.frame pos) ≤ endPos →
        ∃ i, decodeTag (cellRange s.frame pos (headerLen (cellGet s.frame pos))) = .ok (i, []) ∧
          contextOf i = .tag ∧ fetchTag s pos endPos = .ok (.instr i)) := by
  have hp := headerLen_pos (cellGet s.frame pos)
  refine ⟨fun h => if_pos h, fun h h' => ?_, fun h => ?_⟩
  · unfold fetchTag
    rw [if_neg (by omega), readFrame_ok (by omega)]
    simp [cellRange, h']
  · obtain ⟨i, hi, hc⟩ := decodeTag_ok (cellGet s.frame pos)
      (cellRange s.frame (pos + 1) (headerLen (cellGet s.frame pos) - 1)) (by simp)
    refine ⟨i, ?_, hc, ?_⟩
    · rw [← hi]
      obtain ⟨k, hk⟩ : ∃ k, headerLen (cellGet s.frame pos) = k + 1 := ⟨_, (Nat.sub_add_cancel hp).symm⟩
      rw [hk]; rfl
    · unfold fetchTag
      rw [if_neg (by omega), readFrame_ok (by omega)]
      have e : (cellRange s.frame pos 1).headD 0 = cellGet s.frame pos := rfl
      simp only [e, if_neg (show ¬ endPos < pos + headerLen (cellGet s.frame pos) by omega)]
      rw [readFrame_ok (by omega)]
      simp only [hi]

/-! ### Moving bytes -/

/-- A literal of `UNCOMPRESS` inside the frame and inside the declared length moves its payload. -/
theorem moveLiteral_dp {s : State} {src len : Nat} (h : src + len ≤ s.dp.endPos)
    (h' : s.dp.produced.toNat + len ≤ outLimit s) :
    moveLiteral .dp src len s =
      .ok { s with out := cellSetRange s.out s.dp.produced.toNat (cellRange s.frame src len) } := by
  unfold moveLiteral
  rw [readFrame_ok h]
  simp only [h', if_true]

/-- A forward copy inside its bounds succeeds, and its output repeats what stood `dst - src` back. -/
theorem copyForward_ok (limit len src dst : Nat) (out : List Host.Cell) (h : src < dst) (h' : dst + len ≤ limit) :
    ∃ out', copyForward limit len src dst out = .ok out' ∧
      (∀ a, a < dst ∨ dst + len ≤ a → cellGet out' a = cellGet out a) ∧
      ∀ j, j < len → cellGet out' (dst + j) = cellGet out' (src + j) := by
  induction len generalizing src dst out with
  | zero => exact ⟨out, rfl, fun _ _ => rfl, fun _ hj => absurd hj (Nat.not_lt_zero _)⟩
  | succ len ih =>
    obtain ⟨out', ho, hf, hb⟩ := ih (src + 1) (dst + 1) (cellSet out dst (cellGet out src)) (by omega) (by omega)
    refine ⟨out', ?_, fun a ha => ?_, fun j hj => ?_⟩
    · rw [copyForward, if_neg (by omega), if_neg (by omega), ho]
    · rw [hf a (by omega), cellGet_set_other _ _ (by omega)]
    · cases j with
      | zero =>
        rw [Nat.add_zero, Nat.add_zero, hf dst (by omega), cellGet_set_same, hf src (by omega),
          cellGet_set_other _ _ (by omega)]
      | succ j =>
        have := hb j (by omega)
        rw [show dst + (j + 1) = dst + 1 + j by omega, show src + (j + 1) = src + 1 + j by omega, this]

/-- A copy keeps the canonical form of `OUT`. -/
theorem copyForward_wf {limit cap : Nat} (hl : limit ≤ cap) {len src dst : Nat} {out out' : List Host.Cell}
    (hw : cellsWf cap out = true) (h : copyForward limit len src dst out = .ok out') : cellsWf cap out' = true := by
  induction len generalizing src dst out with
  | zero => simp only [copyForward, Except.ok.injEq] at h; exact h ▸ hw
  | succ len ih =>
    rw [copyForward] at h
    split at h
    · cases h
    split at h
    · cases h
    exact ih (cellsWf_set _ hw (by omega)) h

/-! ### Pushing bytes -/

/-- What the encoder side pushes: the bytes, their count as a register of `POS_W` bits, and nothing of the host's or of the
decoder side. -/
structure Pushes (bs : List Byte) (s t : State) : Prop where
  sink : t.sink = s.sink ++ bs
  count : toPos s.params t.ep.count = toPos s.params (s.ep.count + bs.length)
  fits : s.ep.count < 2 ^ s.params.posW → t.ep.count < 2 ^ s.params.posW
  inLen : t.ep.inLen = s.ep.inLen
  params : t.params = s.params
  rst : t.rst = s.rst
  port : t.port = s.port
  cmd : t.cmd = s.cmd
  rsp : t.rsp = s.rsp
  vd : t.vd = s.vd
  td : t.td = s.td
  dp : t.dp = s.dp
  fv : t.fv = s.fv
  inMem : t.inMem = s.inMem
  frame : t.frame = s.frame
  out : t.out = s.out

theorem Pushes.trans {bs bs' : List Byte} {s t u : State} (h : Pushes bs s t) (h' : Pushes bs' t u) :
    Pushes (bs ++ bs') s u := by
  constructor
  case sink => rw [h'.sink, h.sink, List.append_assoc]
  case count =>
    have e := h'.count
    rw [h.params, ← toPos_add_left, h.count, toPos_add_left] at e
    rw [e, List.length_append, Nat.add_assoc]
  case fits => exact fun hs => by have := h'.fits; rw [h.params] at this; exact this (h.fits hs)
  case inLen => exact h'.inLen.trans h.inLen
  case params => exact h'.params.trans h.params
  case rst => exact h'.rst.trans h.rst
  case port => exact h'.port.trans h.port
  case cmd => exact h'.cmd.trans h.cmd
  case rsp => exact h'.rsp.trans h.rsp
  case vd => exact h'.vd.trans h.vd
  case td => exact h'.td.trans h.td
  case dp => exact h'.dp.trans h.dp
  case fv => exact h'.fv.trans h.fv
  case inMem => exact h'.inMem.trans h.inMem
  case frame => exact h'.frame.trans h.frame
  case out => exact h'.out.trans h.out

theorem Pushes.hostKept {bs : List Byte} {s t : State} (h : Pushes bs s t) : HostKept s t :=
  ⟨h.params, h.rst, h.port, by rw [h.cmd], by rw [h.cmd], by rw [h.cmd], .of_eq h.inMem, .of_eq h.frame⟩

theorem Pushes.decoderKept {bs : List Byte} {s t : State} (h : Pushes bs s t) : DecoderKept s t :=
  ⟨h.vd, h.td, h.dp, h.fv, .of_eq h.out⟩

/-- Pushed from a count of 0, the count is the number of bytes as a register of `POS_W` bits. -/
theorem Pushes.count_from_zero {bs : List Byte} {s t : State} (h : Pushes bs s t) (h0 : s.ep.count = 0) :
    t.ep.count = toPos s.params bs.length := by
  have hf := h.fits (by rw [h0]; exact Nat.two_pow_pos _)
  have hc := h.count
  rwa [toPos_eq hf, h0, Nat.zero_add] at hc

/-- A command that pushed from a count of 0 returns the number of bytes. -/
theorem Pushes.rsp_from_zero {bs : List Byte} {s t : State} (h : Pushes bs s t) (h0 : s.ep.count = 0) :
    (completePushed t).rsp = ⟨statusDone, 0, toPos s.params bs.length, 0, 0, 0⟩ := by
  rw [completePushed_rsp, h.count_from_zero h0, h.params, toPos_toPos]

theorem pushes_pushBytes (bs : List Byte) (s : State) : Pushes bs s (pushBytes bs s) := by
  constructor
  case count => exact toPos_toPos _ _
  case fits => exact fun _ => toPos_lt _ _
  all_goals rfl

theorem pushes_pushVarint (v : Nat) (s : State) : Pushes (varintEncode v) s (pushVarint v s) := by
  obtain ⟨⟩ := pushes_pushBytes (varintEncode v) s
  constructor <;> assumption

theorem pushes_emitLiteral (runLen src : Nat) (s : State) :
    Pushes (literalHeader runLen ++ bytesFrom (cellGet s.inMem) src runLen) s (emitLiteral runLen src s) := by
  unfold emitLiteral readInRange; rw [cellRange_eq]; exact pushes_pushBytes _ _

theorem pushes_emitCopy (offset length : Nat) (s : State) :
    Pushes (copyBytes offset length) s (emitCopy offset length s) := by
  obtain ⟨⟩ := pushes_pushBytes (copyBytes offset length) s
  constructor <;> assumption

theorem pushes_emitEvent (base : Nat) (s : State) (e : Event) :
    Pushes (eventBytes (cellGet s.inMem) base e) s (emitEvent base s e) := by
  cases e with
  | lit start len => exact pushes_emitLiteral _ _ _
  | copy offset len => exact pushes_emitCopy _ _ _

theorem pushes_events (base : Nat) (es : List Event) (s : State) :
    Pushes (es.flatMap (eventBytes (cellGet s.inMem) base)) s (es.foldl (emitEvent base) s) := by
  induction es generalizing s with
  | nil => constructor <;> simp
  | cons e es ih =>
    have h := pushes_emitEvent base s e
    have h' := ih (emitEvent base s e)
    rw [h.inMem] at h'
    exact h.trans h'

/-- A fragment pushes the bytes of its events. -/
theorem pushes_emitFragment (base n : Nat) (s : State) :
    Pushes ((matchFragment s base n).events.flatMap (eventBytes (cellGet s.inMem) base)) s (emitFragment base n s) := by
  have h : Pushes [] s (afterPass base n (matchFragment s base n) s) := by constructor <;> simp
  exact h.trans (pushes_events base _ (afterPass base n (matchFragment s base n) s))

/-- Emitting events keeps the matcher's registers and the table. -/
theorem events_kept (base : Nat) (es : List Event) (s : State) :
    (es.foldl (emitEvent base) s).hm = s.hm ∧ (es.foldl (emitEvent base) s).ht = s.ht ∧
      (es.foldl (emitEvent base) s).ve = s.ve ∧ (es.foldl (emitEvent base) s).ep.fragBase = s.ep.fragBase ∧
      (es.foldl (emitEvent base) s).ep.fragLen = s.ep.fragLen := by
  induction es generalizing s with
  | nil => simp
  | cons e es ih =>
    rw [List.foldl_cons]
    obtain ⟨h1, h2, h3, h4, h5⟩ := ih (emitEvent base s e)
    rw [h1, h2, h3, h4, h5]
    cases e <;> simp [emitEvent, emitLiteral, emitCopy, pushBytes]

theorem emitFragment_kept (base n : Nat) (s : State) :
    (emitFragment base n s).ht = (matchFragment s base n).ht ∧ (emitFragment base n s).ve = s.ve ∧
      (emitFragment base n s).ep.fragBase = s.ep.fragBase ∧ (emitFragment base n s).ep.fragLen = s.ep.fragLen := by
  obtain ⟨-, h2, h3, h4, h5⟩ :=
    events_kept base (matchFragment s base n).events (afterPass base n (matchFragment s base n) s)
  exact ⟨h2, h3, h4, h5⟩

/-- The bytes of the fragment `Compress` is at. -/
def fragmentBytes (s : State) : List Byte :=
  (matchFragment (noteFragLen (fragLenAt s) s) s.ep.fragBase.toNat (fragLenAt s)).events.flatMap
    (eventBytes (cellGet s.inMem) s.ep.fragBase.toNat)

theorem pushes_compressFragment (s : State) : Pushes (fragmentBytes s) s (compressFragment s) := by
  have h := pushes_emitFragment s.ep.fragBase.toNat (fragLenAt s) (noteFragLen (fragLenAt s) s)
  exact ⟨h.sink, h.count, h.fits, h.inLen, h.params, h.rst, h.port, h.cmd, h.rsp, h.vd, h.td, h.dp, h.fv, h.inMem, h.frame, h.out⟩

theorem pushes_compressFragments (fuel : Nat) (s : State) : ∃ bs, Pushes bs s (compressFragments fuel s) := by
  induction fuel generalizing s with
  | zero => exact ⟨[], by constructor <;> simp [compressFragments]⟩
  | succ fuel ih =>
    simp only [compressFragments]
    split
    · obtain ⟨bs, h⟩ := ih (compressFragment s)
      exact ⟨_, (pushes_compressFragment s).trans h⟩
    · exact ⟨[], by constructor <;> simp⟩

/-- `Compress(n)` pushes the preamble and then the fragments. -/
theorem pushes_compressFrame (n : Nat) (s : State) : ∃ bs, Pushes bs (startCompress n s) (compressFrame n s) := by
  obtain ⟨bs, h⟩ := pushes_compressFragments (n / Config.encFragment + 1) (pushVarint n (startCompress n s))
  exact ⟨_, (pushes_pushVarint n (startCompress n s)).trans h⟩

end Sys2Proof.Machine
end

