-- ==== Sys2Proof/Laws/Encoder.lean ====
section
/-! SUPPORT. The encoder side's shared operations: the table, the match length, what the tag encoder emits. -/

namespace Sys2Proof.Machine

/-! ### The table of a fragment -/

theorem growTable_le (fuel t n : Nat) (h : t ≤ 14) : t ≤ growTable fuel t n ∧ growTable fuel t n ≤ 14 := by
  induction fuel generalizing t with
  | zero => simp [growTable, h]
  | succ fuel ih =>
    simp only [growTable, Config.htMaxBits]
    split
    · next h' => have := ih (t + 1) (by omega); omega
    · omega

theorem tableBits_le (n : Nat) : 8 ≤ tableBits n ∧ tableBits n ≤ 14 := growTable_le _ _ _ (by decide)

/-- A hash is an index of the part of the table in use. -/
theorem hashWord_lt (hash : HashFn) (w t : Nat) (h : t ≤ 32) : hashWord hash w t < 2 ^ t := by
  cases hash with
  | multiplicative mul =>
    simp only [hashWord, hashMultiply, Nat.shiftRight_eq_div_pow]
    apply Nat.div_lt_of_lt_mul
    rw [← Nat.pow_add, show 32 - t + t = 32 by omega]
    exact Nat.mod_lt _ (by decide)
  | table rows => exact Nat.mod_lt _ (Nat.two_pow_pos t)

theorem matchLoop_wf (s : State) (base n tbits fuel : Nat) (h : tbits ≤ 14) (m : MatchPass)
    (hm : cellsWf (2 ^ Config.htMaxBits) m.ht = true) :
    cellsWf (2 ^ Config.htMaxBits) (matchLoop s base n tbits fuel m).ht = true := by
  induction fuel generalizing m with
  | zero => exact hm
  | succ fuel ih =>
    simp only [matchLoop]
    have hw (v) : cellsWf (2 ^ Config.htMaxBits)
        (cellSet m.ht (hashWord s.params.hash (load32 s (base + m.ip)) tbits) v) = true := by
      apply cellsWf_set _ hm
      have := hashWord_lt s.params.hash (load32 s (base + m.ip)) tbits (by omega)
      have h2 : 2 ^ tbits ≤ 2 ^ Config.htMaxBits := Nat.pow_le_pow_right (by decide) h
      omega
    split
    · split <;> exact ih _ (hw _)
    · exact hm

/-- A matching pass keeps the table in canonical form. -/
theorem matchFragment_wf (s : State) (base n : Nat) (h : cellsWf (2 ^ Config.htMaxBits) s.ht = true) :
    cellsWf (2 ^ Config.htMaxBits) (matchFragment s base n).ht = true :=
  matchLoop_wf _ _ _ _ _ (tableBits_le n).2 _ (cellsWf_from _ h)

theorem compressFragments_wf (fuel : Nat) (s : State) (h : cellsWf (2 ^ Config.htMaxBits) s.ht = true) :
    cellsWf (2 ^ Config.htMaxBits) (compressFragments fuel s).ht = true := by
  induction fuel generalizing s with
  | zero => exact h
  | succ fuel ih =>
    simp only [compressFragments]
    split
    · apply ih
      simp only [compressFragment, noteFragBase_ht, (emitFragment_kept _ _ _).1]
      exact matchFragment_wf _ _ _ h
    · exact h

/-- A whole frame keeps the table in canonical form. -/
theorem compressFrame_wf (n : Nat) (s : State) (h : cellsWf (2 ^ Config.htMaxBits) s.ht = true) :
    cellsWf (2 ^ Config.htMaxBits) (compressFrame n s).ht = true :=
  compressFragments_wf _ _ (by simpa using h)

/-! ### Matching -/

/-- The match length is the length of the common prefix, up to the bytes left. -/
theorem matchLength_spec (s : State) (left p q : Nat) :
    matchLength s left p q ≤ left ∧
      (∀ j, j < matchLength s left p q → cellGet s.inMem (p + j) = cellGet s.inMem (q + j)) ∧
      (matchLength s left p q = left ∨
        cellGet s.inMem (p + matchLength s left p q) ≠ cellGet s.inMem (q + matchLength s left p q)) := by
  induction left generalizing p q with
  | zero => simp [matchLength]
  | succ left ih =>
    by_cases h : cellGet s.inMem p = cellGet s.inMem q
    · have e : matchLength s (left + 1) p q = matchLength s left (p + 1) (q + 1) + 1 := by
        rw [matchLength, if_pos (show readIn s p = readIn s q from h)]
      obtain ⟨h1, h2, h3⟩ := ih (p + 1) (q + 1)
      rw [e]
      refine ⟨by omega, fun j hj => ?_, h3.imp (by omega) fun h3 => ?_⟩
      · cases j with
        | zero => simpa using h
        | succ j => simpa only [Nat.add_assoc, Nat.add_comm 1] using h2 j (by omega)
      · simpa only [Nat.add_assoc, Nat.add_comm 1] using h3
    · have e : matchLength s (left + 1) p q = 0 := by
        rw [matchLength, if_neg (show ¬ readIn s p = readIn s q from h)]
      simp [e, h]

/-- A matching pass is a function of `IN`, the constants and the table. -/
theorem matchFragment_congr {s s' : State} (h1 : s'.inMem = s.inMem) (h2 : s'.params = s.params) (h3 : s'.ht = s.ht)
    (base n : Nat) : matchFragment s' base n = matchFragment s base n := by
  have e1 (a) : load32 s' a = load32 s a := by simp only [load32, readInRange, h1]
  have e2 (l p q) : matchLength s' l p q = matchLength s l p q := by
    induction l generalizing p q with
    | zero => rfl
    | succ l ih =>
      have e (a) : readIn s' a = readIn s a := by simp only [readIn, h1]
      rw [matchLength, matchLength, ih, e, e]
  have e3 (fuel m) : matchLoop s' base n (tableBits n) fuel m = matchLoop s base n (tableBits n) fuel m := by
    induction fuel generalizing m with
    | zero => rfl
    | succ fuel ih => simp only [matchLoop, findMatchLength, e1, e2, h2, ih]
  simp only [matchFragment, h3, e3]

/-! ### What the tag encoder emits -/

/-- The pieces of a copy: 64 each, then one of 4 to 64, or 60 and one of 5 to 7. -/
theorem copyPieces_spec (fuel rem : Nat) (h4 : 4 ≤ rem) (hf : rem / 64 ≤ fuel) :
    ∃ (q r : Nat) (tail : List Nat), copyPieces fuel rem = List.replicate q 64 ++ tail ∧
      (tail = [r] ∧ 4 ≤ r ∧ r ≤ 64 ∨ tail = [60, r] ∧ 5 ≤ r ∧ r ≤ 7) ∧ 64 * q + tail.sum = rem := by
  induction fuel generalizing rem with
  | zero => exact ⟨0, rem, [rem], rfl, .inl ⟨rfl, h4, by omega⟩, by simp⟩
  | succ fuel ih =>
    simp only [copyPieces]
    split
    · obtain ⟨q, r, tail, h1, h2, h3⟩ := ih (rem - 64) (by omega) (by omega)
      exact ⟨q + 1, r, tail, by rw [h1]; rfl, h2, by omega⟩
    split
    · exact ⟨0, rem - 60, [60, rem - 60], rfl, .inr ⟨rfl, by omega, by omega⟩, by simp; omega⟩
    · exact ⟨0, rem, [rem], rfl, .inl ⟨rfl, h4, by omega⟩, by simp⟩

/-- The header of a literal run is the encoding of a literal tag of that length. -/
theorem literalHeader_encode (runLen : Nat) (h : 1 ≤ runLen) (h2 : runLen < 2 ^ 32) :
    ∃ i, literalHeader runLen = encode i ∧ WellFormed i ∧ contextOf i = .tag ∧
      tagFields i = some ⟨0, runLen, 0, (literalHeader runLen).length⟩ := by
  simp only [literalHeader, Config.litInlineMax]
  split
  · refine ⟨.lit (BitVec.ofNat 6 (runLen - 1)), ?_, ?_, rfl, ?_⟩
    · simp only [encode, BitVec.toNat_ofNat]; rw [Nat.mod_eq_of_lt (by omega)]
    · simp [WellFormed, wellFormed, Config.litInlineMax]; omega
    · simp [tagFields, literalFields]; omega
  · unfold literalExtBytes
    split
    · refine ⟨.lit1 (BitVec.ofNat 8 (runLen - 1)), ?_, rfl, rfl, ?_⟩
      · simp only [encode, BitVec.toNat_ofNat]; rw [Nat.mod_eq_of_lt (by omega)]
      · simp [tagFields, literalFields]; omega
    split
    · refine ⟨.lit2 (BitVec.ofNat 16 (runLen - 1)), ?_, rfl, rfl, ?_⟩
      · simp only [encode, BitVec.toNat_ofNat]; rw [Nat.mod_eq_of_lt (by omega)]
      · simp [tagFields, literalFields]; omega
    split
    · refine ⟨.lit3 (BitVec.ofNat 24 (runLen - 1)), ?_, rfl, rfl, ?_⟩
      · simp only [encode, BitVec.toNat_ofNat]; rw [Nat.mod_eq_of_lt (by omega)]
      · simp [tagFields, literalFields]; omega
    · refine ⟨.lit4 (BitVec.ofNat 32 (runLen - 1)), ?_, rfl, rfl, ?_⟩
      · simp only [encode, BitVec.toNat_ofNat]; rw [Nat.mod_eq_of_lt (by omega)]
      · simp [tagFields, literalFields]; omega

/-- One piece of a copy is the encoding of a copy tag, in the tightest form. -/
theorem oneCopyBytes_encode (offset len : Nat) (h2 : offset < 2 ^ 32) (h3 : 4 ≤ len) (h4 : len ≤ 64) :
    ∃ i, oneCopyBytes offset len = encode i ∧ WellFormed i ∧ contextOf i = .tag ∧
      tagFields i = some
        (if len ≤ 11 ∧ offset < 2048 then ⟨1, len, offset, 2⟩
          else if offset < 65536 then ⟨2, len, offset, 3⟩ else ⟨3, len, offset, 5⟩) := by
  simp only [oneCopyBytes, Config.copy1OffLimit, Config.copy2OffLimit]
  by_cases hc : len ≤ 11 ∧ offset < 2048
  · rw [if_pos (by omega), if_pos hc]
    refine ⟨.copy1 (BitVec.ofNat 3 (len - 4)) (BitVec.ofNat 11 offset), ?_, rfl, rfl, ?_⟩
    · simp only [encode, BitVec.toNat_ofNat]; rw [Nat.mod_eq_of_lt (by omega), Nat.mod_eq_of_lt (by omega)]
    · simp [tagFields, copy1Fields]; omega
  · rw [if_neg (by omega), if_neg hc]
    split
    · refine ⟨.copy2 (BitVec.ofNat 6 (len - 1)) (BitVec.ofNat 16 offset), ?_, rfl, rfl, ?_⟩
      · simp only [encode, BitVec.toNat_ofNat]; rw [Nat.mod_eq_of_lt (by omega), Nat.mod_eq_of_lt (by omega)]
      · simp [tagFields, copy2Fields]; omega
    · refine ⟨.copy4 (BitVec.ofNat 6 (len - 1)) (BitVec.ofNat 32 offset), ?_, rfl, rfl, ?_⟩
      · simp only [encode, BitVec.toNat_ofNat]; rw [Nat.mod_eq_of_lt (by omega), Nat.mod_eq_of_lt (by omega)]
      · simp [tagFields, copy4Fields]; omega

/-! ### Replaying -/

theorem repeatCopy_length (offset len : Nat) (out : List Byte) : (repeatCopy offset len out).length = out.length + len := by
  induction len generalizing out with
  | zero => rfl
  | succ len ih => simp [repeatCopy, ih]; omega

theorem repeatCopy_add (offset a b : Nat) (out : List Byte) :
    repeatCopy offset (a + b) out = repeatCopy offset b (repeatCopy offset a out) := by
  induction a generalizing out with
  | zero => simp [repeatCopy]
  | succ a ih => rw [show a + 1 + b = a + b + 1 by omega]; exact ih _

theorem replayEvents_append (rd : Nat → Byte) (es es' : List Event) (out : List Byte) :
    replayEvents rd (es ++ es') out = replayEvents rd es' (replayEvents rd es out) := by
  induction es generalizing out with
  | nil => rfl
  | cons e es ih => cases e <;> simp [replayEvents, ih]

end Sys2Proof.Machine
end

