-- ==== Sys2Proof/Laws/PerInstr.lean ====
section
/-! SUPPORT. A law about every instruction as syntax: the length of its encoding (30_encoding.md R81, R89, R100). -/

namespace Sys2Proof.Laws.EncodedLength

/-- The encoding of a well-formed instruction is not empty and at most five bytes long; a tag is as long as its first byte
says (30_encoding.md R89), a preamble byte and a command are one byte. -/
def Statement (i : Instr) : Prop :=
  WellFormed i → ∃ b rest, encode i = b :: rest ∧ rest.length ≤ 4 ∧
    (encode i).length = if contextOf i = .tag then headerLen b else 1

theorem vcont (g : BitVec 7) : Statement (.vcont g) := fun _ => ⟨_, [], rfl, by simp, rfl⟩

theorem vlast (g : BitVec 7) : Statement (.vlast g) := fun _ => ⟨_, [], rfl, by simp, rfl⟩

theorem lit (m : BitVec 6) : Statement (.lit m) := fun h => by
  have hm : m.toNat < 60 := by simpa [WellFormed, wellFormed] using h
  refine ⟨_, [], rfl, by simp, ?_⟩
  simp only [encode, contextOf, if_true, headerLen_eq, BitVec.toNat_ofNat, List.length_singleton]
  repeat' split
  all_goals omega

theorem lit1 (m : BitVec 8) : Statement (.lit1 m) := fun _ =>
  ⟨_, leBytes 1 m.toNat, rfl, by simp, by simp [encode, contextOf, headerLen_eq]⟩

theorem lit2 (m : BitVec 16) : Statement (.lit2 m) := fun _ =>
  ⟨_, leBytes 2 m.toNat, rfl, by simp, by simp [encode, contextOf, headerLen_eq]⟩

theorem lit3 (m : BitVec 24) : Statement (.lit3 m) := fun _ =>
  ⟨_, leBytes 3 m.toNat, rfl, by simp, by simp [encode, contextOf, headerLen_eq]⟩

theorem lit4 (m : BitVec 32) : Statement (.lit4 m) := fun _ =>
  ⟨_, leBytes 4 m.toNat, rfl, by simp, by simp [encode, contextOf, headerLen_eq]⟩

theorem copy1 (l : BitVec 3) (offset : BitVec 11) : Statement (.copy1 l offset) := fun _ => by
  refine ⟨_, [_], rfl, by simp, ?_⟩
  have := l.isLt
  have := offset.isLt
  simp only [encode, contextOf, if_true, headerLen_eq, BitVec.toNat_ofNat, List.length_cons, List.length_nil]
  repeat' split
  all_goals omega

theorem copy2 (l : BitVec 6) (offset : BitVec 16) : Statement (.copy2 l offset) := fun _ => by
  refine ⟨_, leBytes 2 offset.toNat, rfl, by simp, ?_⟩
  have := l.isLt
  simp only [encode, contextOf, if_true, headerLen_eq, BitVec.toNat_ofNat, List.length_cons, leBytes_length]
  repeat' split
  all_goals omega

theorem copy4 (l : BitVec 6) (offset : BitVec 32) : Statement (.copy4 l offset) := fun _ => by
  refine ⟨_, leBytes 4 offset.toNat, rfl, by simp, ?_⟩
  have := l.isLt
  simp only [encode, contextOf, if_true, headerLen_eq, BitVec.toNat_ofNat, List.length_cons, leBytes_length]
  repeat' split
  all_goals omega

theorem varintEnc : Statement .varintEnc := fun _ => ⟨_, [], rfl, by simp, rfl⟩

theorem varintDec : Statement .varintDec := fun _ => ⟨_, [], rfl, by simp, rfl⟩

theorem emitLit : Statement .emitLit := fun _ => ⟨_, [], rfl, by simp, rfl⟩

theorem emitCopy : Statement .emitCopy := fun _ => ⟨_, [], rfl, by simp, rfl⟩

theorem tagParse : Statement .tagParse := fun _ => ⟨_, [], rfl, by simp, rfl⟩

theorem findMatchLen : Statement .findMatchLen := fun _ => ⟨_, [], rfl, by simp, rfl⟩

theorem matchFrag : Statement .matchFrag := fun _ => ⟨_, [], rfl, by simp, rfl⟩

theorem compress : Statement .compress := fun _ => ⟨_, [], rfl, by simp, rfl⟩

theorem maxClen : Statement .maxClen := fun _ => ⟨_, [], rfl, by simp, rfl⟩

theorem uncompress : Statement .uncompress := fun _ => ⟨_, [], rfl, by simp, rfl⟩

theorem getUlen : Statement .getUlen := fun _ => ⟨_, [], rfl, by simp, rfl⟩

theorem isValid : Statement .isValid := fun _ => ⟨_, [], rfl, by simp, rfl⟩

theorem reserved0 : Statement .reserved0 := fun _ => ⟨_, [], rfl, by simp, rfl⟩

theorem reserved13 : Statement .reserved13 := fun _ => ⟨_, [], rfl, by simp, rfl⟩

theorem reserved14 : Statement .reserved14 := fun _ => ⟨_, [], rfl, by simp, rfl⟩

theorem reserved15 : Statement .reserved15 := fun _ => ⟨_, [], rfl, by simp, rfl⟩

end Sys2Proof.Laws.EncodedLength
end

