-- ==== Sys2Proof/Laws/Tags.lean ====
section
/-! SUPPORT. What a tag of a walk can do: raise an error, or move its bytes and advance the unit. -/

namespace Sys2Proof.Machine

/-- Every tag is a literal tag or a copy tag, by its kind. -/
theorem exec_tag {i : Instr} {f : TagFields} (h : tagFields i = some f) (s : State) :
    exec i s = if f.kind = 0 then literalTag f s else copyTag f s := by
  cases i <;> simp only [tagFields, Option.some.injEq, reduceCtorEq] at h <;> subst h <;> rfl

theorem tagFields_bounds {i : Instr} {f : TagFields} (h : tagFields i = some f) :
    f.kind < 4 ∧ 1 ≤ f.len ∧ f.len ≤ 2 ^ 32 ∧ f.off < 2 ^ 32 ∧ 1 ≤ f.hdr ∧ f.hdr ≤ 5 := by
  cases i <;> simp only [tagFields, Option.some.injEq, reduceCtorEq] at h <;> subst h
  case lit m => have := m.isLt; simp [literalFields]; omega
  case lit1 m => have := m.isLt; simp [literalFields]; omega
  case lit2 m => have := m.isLt; simp [literalFields]; omega
  case lit3 m => have := m.isLt; simp [literalFields]; omega
  case lit4 m => have := m.isLt; simp [literalFields]; omega
  case copy1 l o => have := l.isLt; have := o.isLt; simp [copy1Fields]; omega
  case copy2 l o => have := l.isLt; have := o.isLt; simp [copy2Fields]; omega
  case copy4 l o => have := l.isLt; have := o.isLt; simp [copy4Fields]; omega

theorem tagFields_some_iff (i : Instr) : (∃ f, tagFields i = some f) ↔ contextOf i = .tag := by
  cases i <;> simp [tagFields, contextOf]

@[simp] theorem walkRegs_noteTag (u : WalkUnit) (f : TagFields) (s : State) :
    walkRegs u (noteTag f s) = walkRegs u s := by cases u <;> rfl

@[simp] theorem activeUnit_noteTag (f : TagFields) (s : State) : activeUnit (noteTag f s) = activeUnit s := rfl

/-- A literal's moves change `OUT` alone, and not even that for the validator. -/
theorem moveLiteral_next {u : WalkUnit} {src len : Nat} {s t : State} (h : moveLiteral u src len s = .ok t) :
    ∃ out, t = { s with out := out } ∧ (u = .fv → out = s.out) := by
  cases u with
  | fv => cases h; exact ⟨s.out, rfl, fun _ => rfl⟩
  | dp =>
    simp only [moveLiteral] at h
    split at h
    · cases h
    · split at h
      · cases h; exact ⟨_, rfl, nofun⟩
      · cases h

/-- A copy's moves change `OUT` alone, and not even that for the validator. -/
theorem moveCopy_next {u : WalkUnit} {offset len : Nat} {s t : State} (h : moveCopy u offset len s = .ok t) :
    ∃ out, t = { s with out := out } ∧ (u = .fv → out = s.out) := by
  cases u with
  | fv => cases h; exact ⟨s.out, rfl, fun _ => rfl⟩
  | dp =>
    simp only [moveCopy] at h
    split at h
    · cases h
    · cases h; exact ⟨_, rfl, nofun⟩

theorem moveLiteral_wf {u : WalkUnit} {src len : Nat} {s t : State} (h : moveLiteral u src len s = .ok t)
    (hw : cellsWf s.params.maxOutputLen.toNat s.out = true) : cellsWf s.params.maxOutputLen.toNat t.out = true := by
  cases u with
  | fv => cases h; exact hw
  | dp =>
    simp only [moveLiteral] at h
    split at h
    · cases h
    next hp =>
    split at h
    · have hl : outLimit s ≤ s.params.maxOutputLen.toNat := Nat.min_le_right _ _
      cases h
      unfold readFrame at hp
      split at hp <;> cases hp
      exact cellsWf_setRange _ hw (by simp only [cellRange_length]; omega)
    · cases h

theorem moveCopy_wf {u : WalkUnit} {offset len : Nat} {s t : State} (h : moveCopy u offset len s = .ok t)
    (hw : cellsWf s.params.maxOutputLen.toNat s.out = true) : cellsWf s.params.maxOutputLen.toNat t.out = true := by
  cases u with
  | fv => cases h; exact hw
  | dp =>
    simp only [moveCopy] at h
    split at h
    · cases h
    next hp =>
    cases h
    exact copyForward_wf (Nat.min_le_right _ _) hw hp

/-- Where the cursor stands after a tag. -/
def pcAfter (f : TagFields) (w : WalkRegs) : Nat := w.pc + f.hdr + if f.kind = 0 then f.len else 0

/-- A tag that answers a next state either raises an error or advances the unit that walks, past its header and its
payload, inside the frame and the declared length; the validator leaves `OUT` alone, and `OUT` keeps its form. -/
theorem tag_next {i : Instr} {f : TagFields} {s t : State} (hf : tagFields i = some f) (h : exec i s = .next t) :
    (∃ c r, c ≠ .none ∧ t = raiseMalformed c { s with td := r }) ∨
      ∃ out, t = advance (activeUnit s) f.len (pcAfter f (walkRegs (activeUnit s) s)) { noteTag f s with out := out } ∧
        (activeUnit s = .fv → out = s.out) ∧
        (cellsWf s.params.maxOutputLen.toNat s.out = true → cellsWf s.params.maxOutputLen.toNat out = true) ∧
        pcAfter f (walkRegs (activeUnit s) s) ≤ (walkRegs (activeUnit s) s).endPos ∧
        (walkRegs (activeUnit s) s).produced.toNat + f.len ≤ (walkRegs (activeUnit s) s).declared.toNat := by
  rw [exec_tag hf] at h
  split at h
  · next hk =>
    unfold literalTag at h
    split at h
    · cases h; exact .inl ⟨_, _, by simp, rfl⟩
    unfold literalBody at h
    simp only [activeUnit_noteTag, walkRegs_noteTag] at h
    split at h
    · cases h; exact .inl ⟨_, _, by simp, rfl⟩
    split at h
    · cases h; exact .inl ⟨_, _, by simp, rfl⟩
    split at h
    · cases h
    next hm =>
    cases h
    refine .inr ?_
    rw [pcAfter, if_pos hk]
    have hw := moveLiteral_wf hm
    obtain ⟨out, rfl, ho⟩ := moveLiteral_next hm
    exact ⟨out, rfl, ho, hw, by omega, by omega⟩
  · next hk =>
    unfold copyTag at h
    split at h
    · cases h; exact .inl ⟨_, _, by simp, rfl⟩
    next hc =>
    unfold copyBody at h
    simp only [activeUnit_noteTag, walkRegs_noteTag] at h
    split at h
    · cases h; exact .inl ⟨_, _, by simp, rfl⟩
    split at h
    · cases h; exact .inl ⟨_, _, by simp, rfl⟩
    split at h
    · cases h; exact .inl ⟨_, _, by simp, rfl⟩
    split at h
    · cases h
    next hm =>
    cases h
    refine .inr ?_
    rw [pcAfter, if_neg hk]
    simp only [headerCut, decide_eq_true_eq] at hc
    have hw := moveCopy_wf hm
    obtain ⟨out, rfl, ho⟩ := moveCopy_next hm
    exact ⟨out, rfl, ho, hw, by omega, by omega⟩

/-- A literal tag of `UNCOMPRESS` that passes its checks. -/
theorem literalTag_dp {f : TagFields} {s : State} (hu : activeUnit s = .dp)
    (h : s.dp.pc + f.hdr + f.len ≤ s.dp.endPos) (h' : s.dp.produced.toNat + f.len ≤ outLimit s) :
    literalTag f s =
      .next (advance .dp f.len (s.dp.pc + f.hdr + f.len)
        { noteTag f s with
            out := cellSetRange s.out s.dp.produced.toNat (cellRange s.frame (s.dp.pc + f.hdr) f.len) }) := by
  have hl : outLimit s ≤ s.dp.declared.toNat := Nat.min_le_left _ _
  unfold literalTag literalBody
  rw [if_neg (by simp only [headerCut, hu, walkRegs, decide_eq_true_eq]; omega)]
  simp only [activeUnit_noteTag, hu, walkRegs, noteTag_dp]
  rw [if_neg (by omega), if_neg (by omega)]
  rw [moveLiteral_dp (s := noteTag f s) h h']
  rfl

/-- A literal tag of `IS_VALID` that passes its checks. -/
theorem literalTag_fv {f : TagFields} {s : State} (hu : activeUnit s = .fv)
    (h : s.fv.pc + f.hdr + f.len ≤ s.fv.endPos)
    (h' : s.fv.produced.toNat + f.len ≤ s.fv.declared.toNat) :
    literalTag f s = .next (advance .fv f.len (s.fv.pc + f.hdr + f.len) (noteTag f s)) := by
  unfold literalTag literalBody
  rw [if_neg (by simp only [headerCut, hu, walkRegs, decide_eq_true_eq]; omega)]
  simp only [activeUnit_noteTag, hu, walkRegs, noteTag_fv]
  rw [if_neg (by omega), if_neg (by omega)]
  rfl

/-- A copy tag of `UNCOMPRESS` that passes its checks. -/
theorem copyTag_dp {f : TagFields} {s : State} (hu : activeUnit s = .dp)
    (h : s.dp.pc + f.hdr ≤ s.dp.endPos) (ho : 1 ≤ f.off) (ho' : f.off ≤ s.dp.produced.toNat)
    (h' : s.dp.produced.toNat + f.len ≤ outLimit s) :
    ∃ out, copyForward (outLimit s) f.len (s.dp.produced.toNat - f.off) s.dp.produced.toNat s.out = .ok out ∧
      copyTag f s = .next (advance .dp f.len (s.dp.pc + f.hdr) { noteTag f s with out := out }) := by
  have hl : outLimit s ≤ s.dp.declared.toNat := Nat.min_le_left _ _
  obtain ⟨out, hc, -, -⟩ :=
    copyForward_ok (outLimit s) f.len (s.dp.produced.toNat - f.off) s.dp.produced.toNat s.out (by omega) h'
  refine ⟨out, hc, ?_⟩
  unfold copyTag copyBody
  rw [if_neg (by simp only [headerCut, hu, walkRegs, decide_eq_true_eq]; omega)]
  simp only [activeUnit_noteTag, hu, walkRegs, noteTag_dp]
  rw [if_neg (by omega), if_neg (by omega), if_neg (by omega)]
  have hm : moveCopy .dp f.off f.len (noteTag f s) = .ok { noteTag f s with out := out } := by
    unfold moveCopy
    simp only [outLimit, noteTag_dp, noteTag_params, noteTag_out] at hc ⊢
    rw [hc]
  rw [hm]
  rfl

/-- A copy tag of `IS_VALID` that passes its checks. -/
theorem copyTag_fv {f : TagFields} {s : State} (hu : activeUnit s = .fv)
    (h : s.fv.pc + f.hdr ≤ s.fv.endPos) (ho : 1 ≤ f.off) (ho' : f.off ≤ s.fv.produced.toNat)
    (h' : s.fv.produced.toNat + f.len ≤ s.fv.declared.toNat) :
    copyTag f s = .next (advance .fv f.len (s.fv.pc + f.hdr) (noteTag f s)) := by
  unfold copyTag copyBody
  rw [if_neg (by simp only [headerCut, hu, walkRegs, decide_eq_true_eq]; omega)]
  simp only [activeUnit_noteTag, hu, walkRegs, noteTag_fv]
  rw [if_neg (by omega), if_neg (by omega), if_neg (by omega)]
  rfl

/-- A tag of a walk always answers a next state, whatever its operands, once the declared length is inside the cap. -/
theorem tag_answers {i : Instr} {f : TagFields} {s : State} (hf : tagFields i = some f)
    (hcap : activeUnit s = .dp → s.dp.declared.toNat ≤ s.params.maxOutputLen.toNat) : ∃ t, exec i s = .next t := by
  have hl : activeUnit s = .dp → outLimit s = s.dp.declared.toNat := fun h => Nat.min_eq_left (hcap h)
  rw [exec_tag hf]
  split
  · unfold literalTag
    split
    · exact ⟨_, rfl⟩
    next hc =>
    simp only [headerCut, decide_eq_true_eq] at hc
    unfold literalBody
    simp only [activeUnit_noteTag, walkRegs_noteTag]
    split
    · exact ⟨_, rfl⟩
    split
    · exact ⟨_, rfl⟩
    cases hu : activeUnit s with
    | fv => exact ⟨_, rfl⟩
    | dp =>
      simp only [hu, walkRegs_dp] at *
      rw [moveLiteral_dp (s := noteTag f s) (by simp only [noteTag_dp]; omega)
        (by have := hl trivial; simp only [outLimit, noteTag_dp, noteTag_params] at *; omega)]
      exact ⟨_, rfl⟩
  · unfold copyTag
    split
    · exact ⟨_, rfl⟩
    unfold copyBody
    simp only [activeUnit_noteTag, walkRegs_noteTag]
    split
    · exact ⟨_, rfl⟩
    split
    · exact ⟨_, rfl⟩
    split
    · exact ⟨_, rfl⟩
    cases hu : activeUnit s with
    | fv => exact ⟨_, rfl⟩
    | dp =>
      simp only [hu, walkRegs_dp] at *
      obtain ⟨out, ho, -, -⟩ := copyForward_ok (outLimit s) f.len (s.dp.produced.toNat - f.off) s.dp.produced.toNat
        s.out (by omega) (by have := hl trivial; omega)
      have hm : moveCopy .dp f.off f.len (noteTag f s) = .ok { noteTag f s with out := out } := by
        unfold moveCopy
        simp only [outLimit, noteTag_dp, noteTag_params, noteTag_out] at ho ⊢
        rw [ho]
      rw [hm]
      exact ⟨_, rfl⟩

/-- What the parser fetches is an instruction of the tag stream. -/
theorem fetchTag_context {s : State} {a b : Nat} {i : Instr} (h : fetchTag s a b = .ok (.instr i)) :
    contextOf i = .tag := by
  have := fetchTag_eq s a b
  by_cases h1 : b ≤ a
  · rw [this.1 h1] at h; simp at h
  by_cases h2 : b < a + headerLen (cellGet s.frame a)
  · rw [this.2.1 (by omega) h2] at h; simp at h
  obtain ⟨j, -, hj, hk⟩ := this.2.2 (by omega)
  rw [hk] at h; simp at h; rw [← h]; exact hj

/-- The end of a varint completes the command, fails the cap, or hands on to the tags. -/
theorem varintDone_cases (s : State) :
    (∃ a b c d, varintDone s = completeNormal a b c d s ∧ (s.cmd.op = 2#4 ∨ s.cmd.op = 11#4)) ∨
      Raised .lengthCap s (varintDone s) ∨ ∃ w, varintDone s = setWalk (activeUnit s) w s := by
  unfold varintDone
  split
  · exact .inl ⟨_, _, _, _, rfl, by simp [*]⟩
  split
  · exact .inl ⟨_, _, _, _, rfl, by simp [*]⟩
  unfold preambleDone
  split
  · exact .inr (.inl (raised_raiseMalformed _ _))
  · exact .inr (.inr ⟨_, rfl⟩)

end Sys2Proof.Machine
end

