-- ==== Sys2Proof/Laws/Step.lean ====
section
/-! SUPPORT. What a step is in each of its cases, and runs up to the completion of a command. -/

namespace Sys2Proof.Machine

theorem step_busy {s : State} (hr : s.rst = false) (hb : busy s = true) : step s = stepBusy s := by
  simp [step, hr, hb]

theorem step_idle {s : State} (hr : s.rst = false) (hb : busy s = false) : step s = stepIdle s := by
  simp [step, hr, hb]

/-- The program of a walk's command, from its op code and the state of its unit. -/
theorem tagging_of {s : State} {u : WalkUnit} (h : s.cmd.op = 10#4 ∧ u = .dp ∨ s.cmd.op = 12#4 ∧ u = .fv)
    (h' : (walkRegs u s).state = .expectingTag) :
    taggingUnit s = some u ∧ varintRange s = none ∧ activeUnit s = u := by
  rcases h with ⟨h, rfl⟩ | ⟨h, rfl⟩ <;> simp only [walkRegs_dp, walkRegs_fv] at h' <;>
    simp [taggingUnit, varintRange, activeUnit, h, h']

theorem of_tagging {s : State} {u : WalkUnit} (h : taggingUnit s = some u) :
    (s.cmd.op = 10#4 ∧ u = .dp ∨ s.cmd.op = 12#4 ∧ u = .fv) ∧ (walkRegs u s).state = .expectingTag := by
  unfold taggingUnit at h
  split at h
  · next h1 => cases h; exact ⟨.inl ⟨h1.1, rfl⟩, h1.2⟩
  split at h
  · next h1 => cases h; exact ⟨.inr ⟨h1.1, rfl⟩, h1.2⟩
  · cases h

/-- A step of the varint decoder runs the byte at its position, if it lies before the end. -/
theorem step_varint {s : State} {pos endPos : Nat} (hr : s.rst = false) (hb : busy s = true)
    (hv : varintRange s = some (pos, endPos)) :
    step s =
      if endPos ≤ pos + s.vd.i.toNat then .next (raiseMalformed .varintTruncated s)
      else exec (decodePreamble (cellGet s.frame (pos + s.vd.i.toNat))) s := by
  rw [step_busy hr hb, stepBusy, hv]
  simp only [stepVarint]
  split
  · rfl
  · rw [readFrame_ok (by omega)]; rfl

/-- A step of the tag loop. -/
theorem step_tagging {s : State} {u : WalkUnit} (hr : s.rst = false) (hb : busy s = true)
    (hu : taggingUnit s = some u) : step s = stepTag u s := by
  obtain ⟨h1, h2⟩ := of_tagging hu
  rw [step_busy hr hb, stepBusy, (tagging_of h1 h2).2.1, hu]

theorem run_zero (s : State) : Sys2Proof.core.run 0 s = .next s := rfl

theorem run_succ {s t : State} (h : step s = .next t) (k : Nat) :
    Sys2Proof.core.run (k + 1) s = Sys2Proof.core.run k t := by
  have h' : Sys2Proof.core.step s = .next t := h
  simp only [Host.Core.run, h']

theorem Completes.here {s : State} (h : busy s = false) : Completes s s :=
  ⟨0, rfl, h, fun _ hj => absurd hj (Nat.not_lt_zero _)⟩

theorem Completes.step {s t u : State} (hb : busy s = true) (h : step s = .next t) (hc : Completes t u) :
    Completes s u := by
  obtain ⟨k, hk, hu, hj⟩ := hc
  refine ⟨k + 1, (run_succ h k).trans hk, hu, fun j hlt => ?_⟩
  cases j with
  | zero => exact ⟨s, rfl, hb⟩
  | succ j =>
    obtain ⟨v, hv, hvb⟩ := hj j (by omega)
    exact ⟨v, (run_succ h j).trans hv, hvb⟩

end Sys2Proof.Machine
end

