-- ==== Sys2Proof/Tests/Slice0.lean ====
section
/-! SUPPORT. Tests on fixed values, each from the spec's own examples (95_test_vectors.md unless another file is named),
and for every obligation with hypotheses a witness that meets them. -/

open Sys2Proof Sys2Proof.Machine

namespace Sys2Proof.Tests

/-- Consecutive bytes from address 0, written into an empty space. -/
def bytesAt0 (bs : List Byte) : List Host.Cell := cellSetRange [] 0 bs

/-- The machine after reset with arguments, `IN` and `FRAME` given by the host. -/
def host (a0 a1 a2 : Nat) (inBytes frameBytes : List Byte) : State :=
  { State.reset with cmd := ⟨0, a0, a1, a2⟩, inMem := bytesAt0 inBytes, frame := bytesAt0 frameBytes }

/-- A walk in its tags: both units hold the same registers, the op code says which one walks. -/
def walking (op : BitVec 4) (pc endPos : Nat) (declared produced : BitVec 32) (frameBytes outBytes : List Byte) : State :=
  { State.reset with
      cmd := ⟨op, endPos, 0, 0⟩, rsp := ⟨statusBusy, 0, 0, 0, 0, 0⟩, frame := bytesAt0 frameBytes
      out := bytesAt0 outBytes
      dp := ⟨.expectingTag, pc, endPos, declared, produced, 0⟩, fv := ⟨.expectingTag, pc, endPos, declared, produced, 0⟩ }

/-- A varint in progress at byte index `i` with value `val`. -/
def inVarint (op : BitVec 4) (endPos : Nat) (val : BitVec 32) (i : BitVec 3) (frameBytes : List Byte) : State :=
  { State.reset with
      cmd := ⟨op, 0, endPos, 0⟩, rsp := ⟨statusBusy, 0, 0, 0, 0, 0⟩, frame := bytesAt0 frameBytes, vd := ⟨val, i⟩
      dp := ⟨.idle, 0, endPos, 0, 0, 0⟩, fv := ⟨.idle, 0, endPos, 0, 0, 0⟩ }

/-- The state after an instruction, if it answers one. -/
def after (i : Instr) (s : State) : Option State :=
  match exec i s with
  | .next t => some t
  | .fault _ => none
  | .refused _ => none

/-- The state after a step, if it answers one. -/
def afterStep (s : State) : Option State :=
  match step s with
  | .next t => some t
  | .fault _ => none
  | .refused _ => none

/-! ## Ill-formed terms are refused (30_encoding.md R84, R91) -/

theorem test_illFormed_lit_60 : wellFormed (.lit 60) = false := by decide

theorem test_illFormed_lit_61 : wellFormed (.lit 61) = false := by decide

theorem test_illFormed_lit_62 : wellFormed (.lit 62) = false := by decide

theorem test_illFormed_lit_63 : wellFormed (.lit 63) = false := by decide

theorem test_wellFormed_lit_59 : wellFormed (.lit 59) = true := by decide

/-! ## Decoding, the words written out bit by bit from 30_encoding.md R82 to R88 and R100 -/

theorem test_decode_vcont : decode .preamble [0b10101100#8] = .ok (.vcont 0b0101100, []) := by decide

theorem test_decode_vlast : decode .preamble [0b00000010#8] = .ok (.vlast 2, []) := by decide

theorem test_decode_lit : decode .tag [0b11101100#8] = .ok (.lit 59, []) := by decide

theorem test_decode_lit1 : decode .tag [0b11110000#8, 0x3C#8] = .ok (.lit1 60, []) := by decide

theorem test_decode_lit2 : decode .tag [0b11110100#8, 0x00#8, 0x01#8] = .ok (.lit2 256, []) := by decide

theorem test_decode_lit3 : decode .tag [0b11111000#8, 0x00#8, 0x00#8, 0x01#8] = .ok (.lit3 65536, []) := by decide

theorem test_decode_lit4 : decode .tag [0b11111100#8, 0x00#8, 0x00#8, 0x00#8, 0x01#8] = .ok (.lit4 16777216, []) := by decide

theorem test_decode_copy1 : decode .tag [0b00100101#8, 0x2C#8] = .ok (.copy1 1 300, []) := by decide

theorem test_decode_copy2 : decode .tag [0b00010010#8, 0x34#8, 0x12#8] = .ok (.copy2 4 0x1234, []) := by decide

theorem test_decode_copy4 : decode .tag [0b00001111#8, 0x01#8, 0x00#8, 0x01#8, 0x00#8] = .ok (.copy4 3 65537, []) := by decide

theorem test_decode_reserved0 : decode .command [0#8] = .ok (.reserved0, []) := by decide

theorem test_decode_varintEnc : decode .command [1#8] = .ok (.varintEnc, []) := by decide

theorem test_decode_varintDec : decode .command [2#8] = .ok (.varintDec, []) := by decide

theorem test_decode_emitLit : decode .command [3#8] = .ok (.emitLit, []) := by decide

theorem test_decode_emitCopy : decode .command [4#8] = .ok (.emitCopy, []) := by decide

theorem test_decode_tagParse : decode .command [5#8] = .ok (.tagParse, []) := by decide

theorem test_decode_findMatchLen : decode .command [6#8] = .ok (.findMatchLen, []) := by decide

theorem test_decode_matchFrag : decode .command [7#8] = .ok (.matchFrag, []) := by decide

theorem test_decode_compress : decode .command [8#8] = .ok (.compress, []) := by decide

theorem test_decode_maxClen : decode .command [9#8] = .ok (.maxClen, []) := by decide

theorem test_decode_uncompress : decode .command [10#8] = .ok (.uncompress, []) := by decide

theorem test_decode_getUlen : decode .command [11#8] = .ok (.getUlen, []) := by decide

theorem test_decode_isValid : decode .command [12#8] = .ok (.isValid, []) := by decide

theorem test_decode_reserved13 : decode .command [13#8] = .ok (.reserved13, []) := by decide

theorem test_decode_reserved14 : decode .command [14#8] = .ok (.reserved14, []) := by decide

theorem test_decode_reserved15 : decode .command [15#8] = .ok (.reserved15, []) := by decide

theorem test_decode_short : decode .tag [0xF4#8, 0x10#8] = .error .headerTruncated := by decide

theorem test_decode_wide_op : decode .command [16#8] = .error .notAnOpCode := by decide

theorem test_tableWord_command : decodeTableWord 8 10 = some .uncompress := by decide

theorem test_tableWord_tag : decodeTableWord 24 0x000112 = some (.copy2 4 1) := by decide

/-- The next step of the word's state runs it. -/
theorem test_withFetchWord_copy2 :
    (afterStep (State.reset.withFetchWord 24 0x12)).map (·.rsp.cause) = some 8 := by decide

/-- After reset a command word is taken from the port. -/
theorem test_withFetchWord_command :
    (afterStep (State.reset.withFetchWord 8 13)).map (·.rsp.status) = some 0b1010 := by decide

/-! ## One step each, results from 95_test_vectors.md 2.1 to 2.8 -/

theorem test_vcont_takes_group : (after (.vcont 0x2C) (inVarint 2 2 0 0 [0xAC, 0x02])).map (·.vd) = some ⟨0x2C, 1⟩ := by decide

theorem test_vcont_too_long : (after (.vcont 0) (inVarint 2 6 0 4 [])).map (·.rsp.cause) = some 2 := by decide

theorem test_vlast_ends_300 : (after (.vlast 2) (inVarint 2 2 0x2C 1 [0xAC, 0x02])).map (fun t => (t.rsp.r0, t.rsp.r1)) = some (300, 2) := by decide

theorem test_vlast_overflow : (after (.vlast 0x10) (inVarint 2 5 0x0FFFFFFF 4 [])).map (·.rsp.cause) = some 3 := by decide

theorem test_lit_moves_payload : (after (.lit 0) (walking 10 1 5 8 0 [0x08, 0x00, 0x61, 0x0D, 0x01] [])).map (fun t => (t.out, t.dp.pc, t.dp.produced)) =
      some ([(0, 0x61)], 3, 1) := by decide

theorem test_lit_truncated : (after (.lit 0) (walking 10 1 2 1 0 [0x01, 0x00] [])).map (·.rsp.cause) = some 6 := by decide

theorem test_lit1_noncanonical : (after (.lit1 0) (walking 10 1 4 1 0 [0x01, 0xF0, 0x00, 0x61] [])).map (fun t => (t.out, t.dp.pc)) = some ([(0, 0x61)], 4) := by decide

theorem test_lit1_truncated : (after (.lit1 0) (walking 10 1 3 1 0 [0x01, 0xF0, 0x00] [])).map (·.rsp.cause) = some 6 := by decide

theorem test_lit2_moves_payload : (after (.lit2 0) (walking 10 1 5 1 0 [0x01, 0xF4, 0x00, 0x00, 0x61] [])).map (fun t => (t.out, t.dp.pc)) = some ([(0, 0x61)], 5) := by decide

theorem test_lit2_overflow : (after (.lit2 1) (walking 10 1 6 1 0 [0x01, 0xF4, 0x01, 0x00, 0x61, 0x62] [])).map (·.rsp.cause) = some 7 := by decide

theorem test_lit3_moves_payload : (after (.lit3 0) (walking 10 1 6 1 0 [0x01, 0xF8, 0x00, 0x00, 0x00, 0x61] [])).map (fun t => (t.out, t.dp.pc)) = some ([(0, 0x61)], 6) := by decide

theorem test_lit3_parsed_length : (after .tagParse (host 0 4 0 [] [0xF8, 0x00, 0x00, 0x01])).map (fun t => (t.rsp.r0, t.rsp.r1, t.rsp.r3)) = some (0, 65537, 4) := by decide

theorem test_lit4_moves_payload : (after (.lit4 0) (walking 10 1 7 1 0 [0x01, 0xFC, 0x00, 0x00, 0x00, 0x00, 0x61] [])).map (fun t => (t.out, t.dp.pc)) = some ([(0, 0x61)], 7) := by decide

theorem test_lit4_length_2_32 : (after .tagParse (host 0 5 0 [] [0xFC, 0xFF, 0xFF, 0xFF, 0xFF])).map (fun t => (t.rsp.r1, t.td.len)) = some (0x100000000, 0x100000000) := by decide

theorem test_copy1_repeats : (after (.copy1 3 1) (walking 10 3 5 8 1 [0x08, 0x00, 0x61, 0x0D, 0x01] [0x61])).map (fun t => (cellRange t.out 0 9, t.dp.produced)) =
      some ([0x61, 0x61, 0x61, 0x61, 0x61, 0x61, 0x61, 0x61, 0x00], 8) := by decide

theorem test_copy1_overflow : (after (.copy1 5 3) (walking 10 5 7 11 3 [] [0x61, 0x62, 0x63])).map (·.rsp.cause) = some 10 := by decide

theorem test_copy2_offset_zero : (after (.copy2 4 0) (walking 10 1 4 5 0 [0x05, 0x12, 0x00, 0x00] [])).map (fun t => (t.rsp.status, t.rsp.cause)) = some (6, 8) := by decide

theorem test_copy2_repeats_two : (after (.copy2 3 2) (walking 10 0 3 8 2 [] [0x61, 0x62])).map (fun t => cellRange t.out 0 6) =
      some [0x61, 0x62, 0x61, 0x62, 0x61, 0x62] := by decide

theorem test_copy4_one_byte : (after (.copy4 0 1) (walking 10 3 8 2 1 [] [0x61])).map (fun t => (cellRange t.out 0 2, t.dp.pc)) = some ([0x61, 0x61], 8) := by decide

theorem test_copy4_validator_too_far : (after (.copy4 0 2) (walking 12 3 8 2 1 [] [0x61])).map (fun t => (t.rsp.status, t.rsp.cause, t.fv.state, t.dp.state)) =
      some (2, 9, .error, .expectingTag) := by decide

theorem test_varintEnc_300 : (after .varintEnc (host 300 0 0 [] [])).map (fun t => (t.sink, t.rsp.r0)) = some ([0xAC, 0x02], 2) := by decide

theorem test_varintEnc_bad : (after .varintEnc (host 0x100000000 0 0 [] [])).map (fun t => (t.sink, t.rsp.status)) = some ([], 10) := by decide

theorem test_varintDec_starts : (after .varintDec (host 0 2 0 [] [0xAC, 0x02])).map (fun t => (t.rsp.status, t.vd)) = some (1, ⟨0, 0⟩) := by decide

theorem test_varintDec_truncated : (afterStep (inVarint 2 1 0 1 [0xF0])).map (fun t => (t.rsp.status, t.rsp.cause)) = some (6, 1) := by decide

theorem test_emitLit_abc : (after .emitLit (host 3 0 0 [0x61, 0x62, 0x63] [])).map (fun t => (t.sink, t.rsp.r0)) = some ([0x08, 0x61, 0x62, 0x63], 4) := by decide

theorem test_emitLit_61_header : literalHeader 61 = [0xF0, 0x3C] ∧ literalHeader 257 = [0xF4, 0x00, 0x01] ∧
    literalHeader 4294967295 = [0xFC, 0xFE, 0xFF, 0xFF, 0xFF] := by decide

theorem test_emitCopy_5_65 : (after .emitCopy (host 5 65 0 [] [])).map (·.sink) = some [0xEE, 0x05, 0x00, 0x05, 0x05] := by decide

theorem test_emitCopy_70000_100 : (after .emitCopy (host 70000 100 0 [] [])).map (·.sink) =
      some [0xFF, 0x70, 0x11, 0x01, 0x00, 0x8F, 0x70, 0x11, 0x01, 0x00] := by decide

theorem test_tagParse_copy1 : (after .tagParse (host 0 2 0 [] [0x25, 0x2C])).map (fun t => (t.rsp.r0, t.rsp.r1, t.rsp.r2, t.rsp.r3)) = some (1, 5, 300, 2) := by decide

theorem test_tagParse_truncated : (after .tagParse (host 0 4 0 [] [0x03, 0x01, 0x00, 0x00])).map (fun t => (t.rsp.status, t.rsp.cause)) = some (6, 5) := by decide

theorem test_findMatchLen_stops : (after .findMatchLen (host 0 3 10 [0x61, 0x62, 0x63, 0x61, 0x62, 0x63, 0x61, 0x62, 0x63, 0x78] [])).map (·.rsp.r0) = some 6 := by decide

theorem test_findMatchLen_bad : (after .findMatchLen (host 3 0 10 [] [])).map (·.rsp.status) = some 10 := by decide

theorem test_matchFrag_a9 : (after .matchFrag (host 0 9 0 [0x61, 0x61, 0x61, 0x61, 0x61, 0x61, 0x61, 0x61, 0x61] [])).map (·.sink) =
      some [0x0C, 0x61, 0x61, 0x61, 0x61, 0x05, 0x04] := by decide

theorem test_hash_values : hashWord State.reset.params.hash 0x64636261 8 = 174 ∧ hashWord State.reset.params.hash 0x61616161 8 = 242 := by decide

/-- Another function of the word and the table size is a hash as well. -/
theorem test_hash_table : hashWord (.table [⟨0x64636261, 8, 5⟩, ⟨0x64636261, 9, 300⟩]) 0x64636261 9 = 300 := by decide

/-- The registers of an instance with `POS_W` = 33 have 33 bits. -/
theorem test_pos_width : (afterStep { State.resetOf ⟨0, 0, .table []⟩ with port := [.writeA1 0x3FFFFFFFF] }).map (·.cmd.a1) = some 0x1FFFFFFFF := by decide

theorem test_compress_abcd4 : (after .compress (host 16 0 0 [0x61, 0x62, 0x63, 0x64, 0x61, 0x62, 0x63, 0x64, 0x61, 0x62, 0x63, 0x64, 0x61, 0x62, 0x63, 0x64] [])).map
      (fun t => (t.sink, t.rsp.r0, t.ht)) = some ([0x10, 0x0C, 0x61, 0x62, 0x63, 0x64, 0x2E, 0x04, 0x00], 9, [(174, 4)]) := by decide

theorem test_compress_empty : (after .compress (host 0 0 0 [] [])).map (fun t => (t.sink, t.rsp.r0)) = some ([0x00], 1) := by decide

theorem test_maxClen_largest : (after .maxClen (host 0xFFFFFFFF 0 0 [] [])).map (·.rsp.r0) = some 5010795209 := by decide

theorem test_maxClen_65551 : (after .maxClen (host 65551 0 0 [] [])).map (·.rsp.r0) = some 76508 := by decide

theorem test_uncompress_starts : (after .uncompress (host 5 0 0 [] [])).map (fun t => (t.rsp.status, t.dp.state, t.dp.endPos)) = some (1, .idle, 5) := by decide

theorem test_uncompress_ends : (afterStep (walking 10 5 5 8 8 [] [])).map (fun t => (t.rsp.status, t.rsp.r0, t.dp.state)) = some (2, 8, .done) := by decide

theorem test_uncompress_length_cap : (after (.vlast 0x0B) (inVarint 10 5 0x0FFFFFFF 4 [])).map (fun t => (t.rsp.status, t.rsp.cause)) = some (6, 4) := by decide

theorem test_getUlen_no_cap : (after (.vlast 0x0B) (inVarint 11 5 0x0FFFFFFF 4 [])).map (fun t => (t.rsp.status, t.rsp.r0)) = some (2, 3221225471) := by decide

theorem test_isValid_ends : (afterStep (walking 12 5 5 8 8 [] [])).map (fun t => (t.rsp.status, t.rsp.r0, t.fv.state)) = some (2, 1, .done) := by decide

theorem test_isValid_mismatch : (afterStep (walking 12 1 1 1 0 [0x01] [])).map (fun t => (t.rsp.status, t.rsp.r0, t.rsp.cause)) = some (2, 0, 11) := by decide

theorem test_reserved0_bad : (after .reserved0 (host 1 2 3 [] [])).map (·.rsp) = some ⟨10, 0, 0, 0, 0, 0⟩ := by decide

theorem test_reserved13_bad : (after .reserved13 (host 1 2 3 [] [])).map (·.rsp) = some ⟨10, 0, 0, 0, 0, 0⟩ := by decide

theorem test_reserved14_bad : (after .reserved14 (host 1 2 3 [] [])).map (·.rsp) = some ⟨10, 0, 0, 0, 0, 0⟩ := by decide

theorem test_reserved15_bad : (after .reserved15 (host 1 2 3 [] [])).map (·.rsp) = some ⟨10, 0, 0, 0, 0, 0⟩ := by decide

/-! ## Witnesses: states and operands that meet the hypotheses of each obligation -/

/-- A walk that is in its tags meets the invariant. -/
theorem inv_walking (op : BitVec 4) (pc endPos : Nat) (declared produced : BitVec 32) (frameBytes : List Byte)
    (h : op = 10#4 ∨ op = 12#4) (hp : pc ≤ endPos) (he : endPos < 2 ^ 64) (hd : produced.toNat ≤ declared.toNat)
    (hc : declared.toNat ≤ Config.maxOutputLenOfVectors.toNat) (hf : frameBytes.length ≤ 100) :
    Inv (walking op pc endPos declared produced frameBytes []) := by
  refine ⟨⟨cellsWf_nil _, cellsWf_setRange _ (cellsWf_nil _) ?_, cellsWf_nil _, cellsWf_nil _⟩, ?_, ?_, ?_, ?_⟩
  · have h2 : (100 : Nat) ≤ 2 ^ State.reset.params.posW := by decide
    exact Nat.le_trans (by omega) h2
  · exact .inl ⟨.inr (.inl rfl), rfl, rfl, rfl, rfl, rfl⟩
  · have hz : 0 < 2 ^ State.reset.params.posW := by decide
    have hw : endPos < 2 ^ State.reset.params.posW := he
    have hw' : pc < 2 ^ State.reset.params.posW := Nat.lt_of_le_of_lt hp hw
    exact ⟨hw, hz, hz, hz, hz, hz, hz, hz, hw', hw, hw', hw⟩
  · intro _
    rcases h with h | h
    · exact .inr (.inl ⟨h, .inr ⟨rfl, hp, hd, hc⟩⟩)
    · exact .inr (.inr (.inr ⟨h, .inr ⟨rfl, hp, hd, hc⟩⟩))
  · simp [walking, State.reset, State.resetOf]

theorem witness_ResetLeavesTheSpecifiedValues : { walking 10 1 5 8 0 [0x08] [] with rst := true }.rst = true := by decide

theorem witness_EveryStepAnswersAndKeepsTheInvariant :
    Inv (walking 10 1 5 8 0 [0x08, 0x00, 0x61, 0x0D, 0x01] []) ∧ Inv (walking 12 5 5 8 8 [0x08] []) :=
  ⟨inv_walking _ _ _ _ _ _ (.inl rfl) (by decide) (by decide) (by decide) (by decide) (by decide),
    inv_walking _ _ _ _ _ _ (.inr rfl) (by decide) (by decide) (by decide) (by decide) (by decide)⟩

theorem witness_StepRunsTheDecodedInstruction_command : (host 5 0 0 [] []).rst = false ∧ busy (host 5 0 0 [] []) = false ∧
    { host 5 0 0 [] [] with port := [.writeOp 15] }.port = [.writeOp 15] ∧
    decode .command [BitVec.ofNat 8 (15#4).toNat] = .ok (.reserved15, []) := by decide

theorem witness_StepRunsTheDecodedInstruction_preamble : let s := inVarint 2 2 0x2C 1 [0xAC, 0x02]
    s.rst = false ∧ busy s = true ∧ varintRange s = some (0, 2) ∧ 0 + s.vd.i.toNat < 2 ∧
      decode .preamble [cellGet s.frame (0 + s.vd.i.toNat)] = .ok (.vlast 2, []) := by decide

theorem witness_StepRunsTheDecodedInstruction_tag : let s := walking 10 3 5 8 1 [0x08, 0x00, 0x61, 0x0D, 0x01] [0x61]
    s.rst = false ∧ busy s = true ∧ taggingUnit s = some .dp ∧ (walkRegs .dp s).pc + 2 ≤ (walkRegs .dp s).endPos ∧
      decode .tag (cellRange s.frame (walkRegs .dp s).pc 2) = .ok (.copy1 3 1, []) := by decide

theorem witness_EachCommandFetchesFromItsProgram : (inVarint 2 2 0 0 []).cmd.op = 2#4 ∧
    (inVarint 10 2 0 0 []).cmd.op = 10#4 ∧ (inVarint 10 2 0 0 []).dp.state = .idle ∧
    (inVarint 11 2 0 0 []).cmd.op = 11#4 ∧ (inVarint 11 2 0 0 []).dp.state = .idle ∧
    (inVarint 12 2 0 0 []).cmd.op = 12#4 ∧ (inVarint 12 2 0 0 []).fv.state = .idle ∧
    (walking 10 0 0 0 0 [] []).cmd.op = 10#4 ∧ (walking 10 0 0 0 0 [] []).dp.state = .expectingTag ∧
    (walking 12 0 0 0 0 [] []).cmd.op = 12#4 ∧ (walking 12 0 0 0 0 [] []).fv.state = .expectingTag := by decide

theorem witness_DecodeInvertsEncode : WellFormed (.lit 59) ∧ WellFormed (.copy4 63 0xFFFFFFFF) := by decide

theorem witness_EncodeInvertsDecode : decode .preamble [0x80#8] = .ok (.vcont 0, []) ∧ decode .tag [0xEC#8, 0x61#8] = .ok (.lit 59, [0x61#8]) ∧
    decode .command [15#8] = .ok (.reserved15, []) := by decide

theorem witness_EncodedFieldsAreTheOperands : 128 ≤ (0x80#8).toNat ∧ (0x7F#8).toNat < 128 ∧ ((0xEC#8).toNat % 4 = 0 ∧ (0xEC#8).toNat / 4 ≤ 59) ∧
    (0xFD#8).toNat % 4 = 1 ∧ (0xFE#8).toNat % 4 = 2 ∧ (0xFF#8).toNat % 4 = 3 := by decide

theorem witness_TagByteGivesTheHeaderLength : headerLen 0xFC#8 ≤ [0x00#8, 0x00#8, 0x00#8, 0x00#8].length + 1 ∧
    [0x00#8, 0x00#8, 0x00#8].length + 1 < headerLen 0xFC#8 := by decide

theorem witness_NoInstructionWritesWhatTheHostOwns : ∃ t, exec .maxClen (host 6 0 0 [] []) = .next t := ⟨_, rfl⟩

theorem witness_UnitsKeepToTheirOwnState : (∃ t, exec (.vcont 1) (inVarint 12 2 0 0 []) = .next t) ∧ (∃ t, exec (.lit 0) (walking 12 1 3 1 0 [] []) = .next t) ∧
    (∃ t, exec (.copy1 0 0) (walking 10 1 3 1 0 [] []) = .next t) ∧ (∃ t, exec .maxClen (host 6 0 0 [] []) = .next t) ∧
    (∃ t, exec .uncompress (host 6 0 0 [] []) = .next t) ∧ (∃ t, exec .isValid (host 6 0 0 [] []) = .next t) := ⟨⟨_, rfl⟩, ⟨_, rfl⟩, ⟨_, rfl⟩, ⟨_, rfl⟩, ⟨_, rfl⟩, ⟨_, rfl⟩⟩

theorem witness_BusyBlockHoldsThePort : let s := { inVarint 2 2 0 0 [0xAC, 0x02] with port := [.writeA0 7] }
    s.rst = false ∧ busy s = true ∧ ∃ t, step s = .next t := ⟨rfl, by decide, _, rfl⟩

theorem witness_IdleBlockAcceptsTheOldestMove : let s := fun h : List HostMove => { State.reset with port := h }
    (∀ h, (s h).rst = false ∧ busy (s h) = false ∧ (s h).port = h) ∧
      (2 ^ 64 - 1 < 2 ^ (s [.storeFrame (2 ^ 64 - 1) 1]).params.posW) ∧ (0x7FFFFFFE#32).toNat < (s [.storeOut 0x7FFFFFFE 1]).params.maxOutputLen.toNat := ⟨fun _ => ⟨rfl, (by decide : busy State.reset = false), rfl⟩, by decide, by decide⟩

theorem witness_HostReadsTheResponseRegisters : (3 : Nat) < 4 ∧ (9 : Nat) < 10 := by decide

/-- Each way an argument is turned away, at the boundary. -/
theorem witness_BadArgumentsAreBadCommand :
    (let s := host 0x100000000 0 0 [] []; 2 ^ 32 ≤ s.cmd.a0) ∧
    (let s := host 3 2 0 [] []; s.cmd.a1 < s.cmd.a0) ∧
    (let s := host 0x100000000 0 0 [] []; 2 ^ 32 ≤ s.cmd.a0) ∧
    (let s := host 1 0x100000000 0 [] []; 2 ^ 32 ≤ s.cmd.a1) ∧
    (let s := host 0 0 0 [] []; s.cmd.a0 = 0) ∧
    (let s := host 2 0xFFFFFFFF 0 [] []; 2 ^ 32 < s.cmd.a1 + s.cmd.a0) ∧
    (let s := host 0x100000000 4 0 [] []; 2 ^ 32 ≤ s.cmd.a0) ∧
    (let s := host 1 0x100000000 0 [] []; 2 ^ 32 ≤ s.cmd.a1) ∧
    (let s := host 0 4 0 [] []; s.cmd.a0 = 0) ∧
    (let s := host 5 3 0 [] []; s.cmd.a1 < 4) ∧
    (let s := host 1 0 0 [] []; s.cmd.a1 < s.cmd.a0) ∧
    (let s := host 0x100000000 0x100000000 0x100000000 [] []; 2 ^ 32 ≤ s.cmd.a0) ∧
    (let s := host 0 0x100000000 0x100000000 [] []; 2 ^ 32 ≤ s.cmd.a1) ∧
    (let s := host 0 0 0x200000000 [] []; 2 ^ 33 ≤ s.cmd.a2) ∧
    (let s := host 1 0 0 [] []; s.cmd.a1 < s.cmd.a0) ∧
    (let s := host 0 1 0 [] []; s.cmd.a2 < s.cmd.a1) ∧
    (let s := host 0 0 0x100000001 [] []; 2 ^ 32 < s.cmd.a2) ∧
    (let s := host 0x100000000 1 0 [] []; 2 ^ 32 ≤ s.cmd.a0) ∧
    (let s := host 0 0x20000 0 [] []; 2 ^ 17 ≤ s.cmd.a1) ∧
    (let s := host 0 0 0 [] []; s.cmd.a1 = 0) ∧
    (let s := host 0 65537 0 [] []; 65536 < s.cmd.a1) ∧
    (let s := host 0xFFFFFFFF 2 0 [] []; 2 ^ 32 < s.cmd.a0 + s.cmd.a1) ∧
    (let s := host 0x100000000 0 0 [] []; 2 ^ 32 ≤ s.cmd.a0) ∧
    (let s := host 0x100000000 0 0 [] []; 2 ^ 32 ≤ s.cmd.a0) := by decide

theorem witness_VcontTakesSevenBitsOrIsTooLong : (inVarint 2 6 0 3 []).vd.i.toNat ≤ 3 ∧ (inVarint 2 6 0 4 []).vd.i.toNat = 4 := by decide

theorem witness_VlastEndsTheVarint : (let s := inVarint 2 5 0 4 []; s.vd.i.toNat ≤ 4 ∧ s.vd.i.toNat = 4 ∧ 0x0F < (0x10#7).toNat) ∧
    (let s := inVarint 2 5 0 4 []; ¬ (s.vd.i.toNat = 4 ∧ 0x0F < (0x0F#7).toNat) ∧ s.cmd.op = 2#4) ∧
    (let s := inVarint 11 5 0 0 []; ¬ (s.vd.i.toNat = 4 ∧ 0x0F < (0x7F#7).toNat) ∧ s.cmd.op = 11#4) := by decide

theorem witness_PreambleEndsInTagsOrLengthCap : (let s := inVarint 10 5 0x0FFFFFFF 4 [];
      s.vd.i.toNat ≤ 4 ∧ ¬ (s.vd.i.toNat = 4 ∧ 0x0F < (0x07#7).toNat) ∧ s.cmd.op = 10#4 ∧
        (s.vd.val ||| BitVec.ofNat 32 ((0x07#7).toNat <<< (7 * s.vd.i.toNat))).toNat = s.params.maxOutputLen.toNat) ∧
    (let s := inVarint 12 5 0 4 [];
      s.vd.i.toNat ≤ 4 ∧ ¬ (s.vd.i.toNat = 4 ∧ 0x0F < (0x08#7).toNat) ∧ s.cmd.op = 12#4 ∧
        (s.vd.val ||| BitVec.ofNat 32 ((0x08#7).toNat <<< (7 * s.vd.i.toNat))).toNat = s.params.maxOutputLen.toNat + 1) := by decide

theorem witness_VarintEncPushesTheMinimalVarint : (host 0xFFFFFFFF 0 0 [] []).cmd.a0 < 2 ^ 32 := by decide

theorem witness_VarintsRoundTrip : let rd : Nat → Byte := cellGet (bytesAt0 [0xAC, 0x02])
    300 < 2 ^ 32 ∧ 0 + (varintEncode 300).length ≤ 2 ∧ (∀ j, j < 2 → rd (0 + j) = (varintEncode 300).getD j 0) ∧
      varintDecode rd 0 2 = .ok (300, 2) := by decide

theorem witness_VarintDecCompletesWithTheDecodedValue : (host 2 2 0 [] []).rst = false ∧ (host 2 2 0 [] []).cmd.a0 ≤ (host 2 2 0 [] []).cmd.a1 := by decide

theorem witness_EmitLitPushesHeaderAndPayload : (let s := host 60 0 0 [] [];
      1 ≤ s.cmd.a0 ∧ s.cmd.a0 < 2 ^ 32 ∧ s.cmd.a1 + s.cmd.a0 ≤ 2 ^ 32 ∧ s.cmd.a1 < 2 ^ 32 ∧
        s.cmd.a0 ≤ 60) ∧
    (let s := host 61 0xFFFFFFC3 0 [] [];
      1 ≤ s.cmd.a0 ∧ s.cmd.a0 < 2 ^ 32 ∧ s.cmd.a1 + s.cmd.a0 ≤ 2 ^ 32 ∧ s.cmd.a1 < 2 ^ 32 ∧
        60 < s.cmd.a0) := by decide

theorem witness_EmitCopyPushesThePieces : let s := host 1 4 0 [] []
    1 ≤ s.cmd.a0 ∧ s.cmd.a0 < 2 ^ 32 ∧ 4 ≤ s.cmd.a1 ∧ s.cmd.a1 < 2 ^ 32 := by decide

theorem witness_ParseInvertsEmit : (1 ≤ 0xFFFFFFFF ∧ 0xFFFFFFFF < 2 ^ 32) ∧ 1 ≤ 65536 ∧ 65536 < 2 ^ 32 ∧ 4 ≤ 64 ∧ 64 ≤ 64 := by decide

theorem witness_TagParseReturnsTheFields_whole : let s := host 0 2 0 [] [0xFD, 0xFF]
    s.cmd.a0 ≤ s.cmd.a1 ∧ 0 + headerLen (cellGet s.frame 0) ≤ 2 ∧
      decode .tag (cellRange s.frame 0 (headerLen (cellGet s.frame 0))) = .ok (.copy1 7 2047, []) ∧
      tagFields (.copy1 7 2047) = some ⟨1, 11, 2047, 2⟩ := by decide

theorem witness_TagParseReturnsTheFields_cut : let s := host 0 1 0 [] [0x01]
    s.cmd.a0 ≤ s.cmd.a1 ∧ 1 < 0 + headerLen (cellGet s.frame 0) := by decide

theorem witness_FindMatchLenReturnsTheCommonPrefix : let s := host 0 0xFFFFFFFF 0x100000000 [] []
    s.cmd.a0 ≤ s.cmd.a1 ∧ s.cmd.a1 < 2 ^ 32 ∧ s.cmd.a1 ≤ s.cmd.a2 ∧ s.cmd.a2 ≤ 2 ^ 32 := by decide

/-- A fragment of 16 bytes: an entry a probe filled, one that is 0, one above the part in use. -/
theorem witness_TableIsSizedAndZeroedPerFragment :
    let s := { host 16 0 0 [0x61, 0x62, 0x63, 0x64, 0x61, 0x62, 0x63, 0x64] [] with ht := [(3, 7), (300, 9)] }
    16 ≤ 65536 ∧ (174 : Nat) < 2 ^ tableBits 16 ∧ cellGet (matchFragment s 0 16).ht 174 = 4 ∧ (3 : Nat) < 2 ^ tableBits 16 ∧
      cellGet (matchFragment s 0 16).ht 3 = 0 ∧ 2 ^ tableBits 16 ≤ 300 ∧ (8 : Nat) ≤ 8 ∧ 65536 ≤ 65536 := by decide

theorem witness_HashIsAConfigurationFunction :
    (∀ (_ : BitVec 32) (tbits : Nat), (fun _ _ => 0 : BitVec 32 → Nat → Nat) 0 tbits < 2 ^ tbits) ∧ 8 ≤ 8 ∧ 14 ≤ 14 :=
  ⟨fun _ _ => Nat.two_pow_pos _, by decide, by decide⟩

theorem witness_MatchFragPushesTheEvents : let s := host 0xFFFF0000 65536 0 [] []
    s.cmd.a0 < 2 ^ 32 ∧ 1 ≤ s.cmd.a1 ∧ s.cmd.a1 ≤ 65536 ∧ s.cmd.a0 + s.cmd.a1 ≤ 2 ^ 32 := by decide

/-- Both kinds of event occur: "xxxxabcdxxxxabcdyyyy" gives Lit(0,8), Copy(8,8), Lit(16,4). -/
theorem witness_MatcherMeetsItsContract :
    1 ≤ 20 ∧ 20 ≤ 65536 ∧
      (matchFragment (host 0 20 0 [0x78, 0x78, 0x78, 0x78, 0x61, 0x62, 0x63, 0x64, 0x78, 0x78, 0x78, 0x78, 0x61, 0x62,
        0x63, 0x64, 0x79, 0x79, 0x79, 0x79] []) 0 20).events = [.lit 0 8, .copy 8 8, .lit 16 4] := by decide

theorem witness_CompressPushesPreambleAndFragments : (host 0xFFFFFFFF 0 0 [] []).cmd.a0 < 2 ^ 32 := by decide

theorem witness_CompressDependsOnItsInputAlone : let s := host 1 0 0 [0x61] []
    let s' := { host 1 0 0 [0x61, 0x62] [0x01] with ht := [(3, 7)], sink := [0x05] }
    s.params.hash = s'.params.hash ∧ s.cmd.a0 = s'.cmd.a0 ∧ s.cmd.a0 < 2 ^ 32 ∧
      ∀ a, a < s.cmd.a0 → cellGet s.inMem a = cellGet s'.inMem a := by decide

theorem witness_MaxClenIsExact : (host 0xFFFFFFFF 0 0 [] []).cmd.a0 < 2 ^ 32 := by decide

theorem witness_CompressedLengthIsBounded : (host 0xFFFFFFFF 0 0 [] []).cmd.a0 < 2 ^ 32 := by decide

/-- The frame of "a" is `01 00 61` (V-E2). -/
theorem witness_UncompressInvertsCompress :
    let s := host 1 0 0 [0x61] []
    let u := host 3 0 0 [] [0x01, 0x00, 0x61]
    ∃ t, s.cmd.a0 < 2 ^ 32 ∧ s.cmd.a0 ≤ u.params.maxOutputLen.toNat ∧
      { u with params := ⟨0, 0, .table []⟩ }.params.maxOutputLen.toNat < s.cmd.a0 ∧ exec .compress s = .next t ∧
      t.sink = s.sink ++ [0x01, 0x00, 0x61] ∧ u.rst = false ∧ u.cmd.a0 = [0x01#8, 0x00#8, 0x61#8].length ∧
      ∀ j (h : j < [0x01#8, 0x00#8, 0x61#8].length), cellGet u.frame j = [0x01#8, 0x00#8, 0x61#8][j] :=
  ⟨_, by decide, by decide, by decide, rfl, by decide, by decide, by decide, by decide⟩

/-- The frame of "a" is `01 00 61` (V-E2). -/
theorem witness_GetUlenOfCompressIsTheLength :
    let s := host 1 0 0 [0x61] []
    let u := host 3 0 0 [] [0x01, 0x00, 0x61]
    ∃ t, s.cmd.a0 < 2 ^ 32 ∧ exec .compress s = .next t ∧ t.sink = s.sink ++ [0x01, 0x00, 0x61] ∧
      u.rst = false ∧ u.cmd.a0 = [0x01#8, 0x00#8, 0x61#8].length ∧
      ∀ j (h : j < [0x01#8, 0x00#8, 0x61#8].length), cellGet u.frame j = [0x01#8, 0x00#8, 0x61#8][j] :=
  ⟨_, by decide, rfl, by decide, by decide, by decide, by decide⟩

theorem witness_LiteralTagsMoveTheirPayload : let s := walking 10 1 3 1 0 [0x01, 0x00, 0x61] []
    tagFields (.lit 0) = some ⟨0, 1, 0, 1⟩ ∧ s.cmd.op = 10#4 ∧ s.dp.pc + 1 + 1 ≤ s.dp.endPos ∧
      s.dp.produced.toNat + 1 ≤ s.dp.declared.toNat ∧ s.dp.declared.toNat ≤ s.params.maxOutputLen.toNat := by decide

theorem witness_CopyTagsRepeatForward : let s := walking 10 3 5 8 1 [0x08, 0x00, 0x61, 0x0D, 0x01] [0x61]
    tagFields (.copy1 3 1) = some ⟨1, 7, 1, 2⟩ ∧ s.cmd.op = 10#4 ∧ s.dp.pc + 2 ≤ s.dp.endPos ∧
      1 ≤ s.dp.produced.toNat ∧ s.dp.produced.toNat + 7 ≤ s.dp.declared.toNat ∧
      s.dp.declared.toNat ≤ s.params.maxOutputLen.toNat := by decide

theorem witness_ValidatorMovesNoByte : (let s := walking 12 1 3 1 0 [0x01, 0x00, 0x61] [];
      tagFields (.lit 0) = some ⟨0, 1, 0, 1⟩ ∧ s.cmd.op = 12#4 ∧ s.fv.pc + 1 + 1 ≤ s.fv.endPos ∧
        s.fv.produced.toNat + 1 ≤ s.fv.declared.toNat) ∧
    (let s := walking 12 3 5 8 1 [0x08, 0x00, 0x61, 0x0D, 0x01] [];
      tagFields (.copy1 3 1) = some ⟨1, 7, 1, 2⟩ ∧ s.cmd.op = 12#4 ∧ s.fv.pc + 2 + 0 ≤ s.fv.endPos ∧
        1 ≤ s.fv.produced.toNat ∧ s.fv.produced.toNat + 7 ≤ s.fv.declared.toNat) := by decide

/-- One state for each cause, at the boundary; the decoder for the first three, the validator for the others. -/
theorem witness_TagErrorsComeInTheirOrder :
    tagFields (.copy1 3 1) = some ⟨1, 7, 1, 2⟩ ∧ tagFields (.lit 0) = some ⟨0, 1, 0, 1⟩ ∧
    tagFields (.copy1 3 0) = some ⟨1, 7, 0, 2⟩ ∧
    (let w := walkRegs .dp (walking 10 1 2 8 1 [] []); w.endPos < w.pc + 2) ∧
    (let w := walkRegs .dp (walking 10 1 2 8 1 [] []);
      w.pc + 1 ≤ w.endPos ∧ w.endPos < w.pc + 1 + 1) ∧
    (let w := walkRegs .dp (walking 10 1 3 8 8 [] []);
      w.pc + 1 + 1 ≤ w.endPos ∧ w.declared.toNat < w.produced.toNat + 1) ∧
    (let w := walkRegs .fv (walking 12 1 3 8 0 [] []); w.pc + 2 ≤ w.endPos) ∧
    (let w := walkRegs .fv (walking 12 1 3 8 0 [] []);
      w.pc + 2 ≤ w.endPos ∧ w.produced.toNat < 1) ∧
    (let w := walkRegs .fv (walking 12 1 3 8 2 [] []);
      w.pc + 2 ≤ w.endPos ∧ 1 ≤ w.produced.toNat ∧ w.declared.toNat < w.produced.toNat + 7) := by decide

theorem witness_MissingBytesAreTruncation_varint : let s := inVarint 2 1 0x70 1 [0xF0]
    s.rst = false ∧ busy s = true ∧ varintRange s = some (0, 1) ∧ 1 ≤ 0 + s.vd.i.toNat := by decide

theorem witness_MissingBytesAreTruncation_tag : let s := walking 10 1 2 1 0 [0x01, 0x01] []
    s.rst = false ∧ busy s = true ∧ varintRange s = none ∧ taggingUnit s = some .dp ∧
      (walkRegs .dp s).pc < (walkRegs .dp s).endPos ∧
      (walkRegs .dp s).endPos < (walkRegs .dp s).pc + headerLen (cellGet s.frame (walkRegs .dp s).pc) := by decide

theorem witness_FrameEndCompletesOrMismatches : (let s := walking 10 5 5 8 8 [] [];
      s.rst = false ∧ busy s = true ∧ s.cmd.op = 10#4 ∧ (walkRegs .dp s).state = .expectingTag ∧
        (walkRegs .dp s).endPos ≤ (walkRegs .dp s).pc ∧
        (walkRegs .dp s).produced = (walkRegs .dp s).declared) ∧
    (let s := walking 12 5 5 8 7 [] [];
      s.rst = false ∧ busy s = true ∧ s.cmd.op = 12#4 ∧ (walkRegs .fv s).state = .expectingTag ∧
        (walkRegs .fv s).endPos ≤ (walkRegs .fv s).pc ∧
        (walkRegs .fv s).produced ≠ (walkRegs .fv s).declared) := by decide

theorem witness_EveryTagMovesTheWalkForward :
    let s := walking 12 1 5 8 0 [0x08, 0x00, 0x61, 0x0D, 0x01] []
    Inv s ∧ s.rst = false ∧ busy s = true ∧ taggingUnit s = some .fv ∧
      (walkRegs .fv s).pc < (walkRegs .fv s).endPos :=
  ⟨inv_walking _ _ _ _ _ _ (.inr rfl) (by decide) (by decide) (by decide) (by decide) (by decide), by decide, by decide, by decide, by decide⟩

theorem witness_WalkEndsWithinItsBound :
    let s := walking 12 1 5 8 0 [0x08, 0x00, 0x61, 0x0D, 0x01] []
    Inv s ∧ s.rst = false ∧ busy s = true ∧ taggingUnit s = some .fv :=
  ⟨inv_walking _ _ _ _ _ _ (.inr rfl) (by decide) (by decide) (by decide) (by decide) (by decide), by decide, by decide, by decide⟩

theorem witness_FetchingCommandsStart : (host 2 2 0 [] []).cmd.a0 ≤ (host 2 2 0 [] []).cmd.a1 := by decide

/-- For `UNCOMPRESS`, `GET_ULEN` and `IS_VALID`: a frame that is accepted and one that is not (V-E2, V-E5). -/
theorem witness_UncompressCompletesAsTheWalk :
    (let s := host 3 0 0 [] [0x01, 0x00, 0x61];
      s.rst = false ∧ walk (cellGet s.frame) s.cmd.a0 s.params.maxOutputLen.toNat = .ok [0x61]) ∧
    (let s := host 4 0 0 [] [0x05, 0x12, 0x00, 0x00];
      s.rst = false ∧ walk (cellGet s.frame) s.cmd.a0 s.params.maxOutputLen.toNat = .error .copyOffsetZero) := by decide

theorem witness_GetUlenCompletesWithTheLength : let s := host 4 0 0 [] [0x05, 0x12, 0x00, 0x00]
    s.rst = false ∧ varintDecode (cellGet s.frame) 0 s.cmd.a0 = .ok (5, 1) := by decide

theorem witness_IsValidCompletesWithTheVerdict : let s := host 3 0 0 [] [0x02, 0x00, 0x61]
    s.rst = false ∧ walk (cellGet s.frame) s.cmd.a0 s.params.maxOutputLen.toNat = .error .lengthMismatch := by decide

theorem witness_ValidatorAgreesWithDecoder : (host 3 0 0 [] [0x01, 0x00, 0x61]).rst = false := by decide

theorem witness_CommandsDependOnNothingLeftBehind :
    let s := host 1 2 3 [0x61] [0x00]
    let s' := { walking 10 1 5 8 0 [0x00] [0x07] with cmd := ⟨9, 1, 2, 3⟩, inMem := bytesAt0 [0x61], sink := [0x05] }
    s.rst = false ∧ s'.rst = false ∧ s.params = s'.params ∧ s.cmd.a0 = s'.cmd.a0 ∧ s.cmd.a1 = s'.cmd.a1 ∧
      s.cmd.a2 = s'.cmd.a2 ∧ SameBytes s.inMem s'.inMem ∧ SameBytes s.frame s'.frame :=
  ⟨rfl, rfl, rfl, rfl, rfl, rfl, fun _ => rfl, fun _ => rfl⟩

end Sys2Proof.Tests
end

section
/-! The varints: the two preamble instructions, what the encoder pushes, and what `varintDecode` answers. -/

namespace Sys2Proof.Machine

/-! ### VCONT and VLAST -/

/-- One group is taken, with the index counted up in its own register. -/
theorem takeGroup_eq (g : BitVec 7) (s : State) :
    takeGroup g s =
      { s with vd := ⟨s.vd.val ||| BitVec.ofNat 32 (g.toNat <<< (7 * s.vd.i.toNat)), s.vd.i + 1⟩ } := by
  have hi : BitVec.ofNat 3 (s.vd.i.toNat + 1) = s.vd.i + 1 := by simp [BitVec.ofNat_add]
  simp only [takeGroup, hi]

theorem exec_vcont_of_le {s : State} (g : BitVec 7) (h : s.vd.i.toNat ≤ 3) :
    exec (.vcont g) s = .next (takeGroup g s) := if_neg (by omega)

theorem exec_vcont_fifth {s : State} (g : BitVec 7) (h : 4 ≤ s.vd.i.toNat) :
    exec (.vcont g) s = .next (raiseMalformed .varintTooLong s) := if_pos h

theorem exec_vlast_overflow {s : State} {g : BitVec 7} (h : 4 ≤ s.vd.i.toNat ∧ Config.varintLastMax < g.toNat) :
    exec (.vlast g) s = .next (raiseMalformed .varintOverflow s) := if_pos h

theorem exec_vlast_ends {s : State} {g : BitVec 7} (h : ¬ (4 ≤ s.vd.i.toNat ∧ Config.varintLastMax < g.toNat)) :
    exec (.vlast g) s = .next (varintDone (takeGroup g s)) := if_neg h

@[simp] theorem preambleDone_vd (u : WalkUnit) (s : State) : (preambleDone u s).vd = s.vd := by
  unfold preambleDone
  split
  · exact raiseMalformed_vd _ _
  · exact setWalk_vd _ _ _

@[simp] theorem varintDone_vd (s : State) : (varintDone s).vd = s.vd := by
  unfold varintDone
  split
  · rfl
  split
  · rfl
  · exact preambleDone_vd _ _

/-- `VARINT_DEC` returns the value and the number of bytes, `GET_ULEN` the value (40_varint.md R116, 44_lz_decoder.md
R225); both fit their result registers whole. -/
theorem varintDone_returns {s : State} (h : s.cmd.op = 2#4 ∨ s.cmd.op = 11#4) :
    varintDone s =
      { s with rsp := ⟨statusDone, 0, s.vd.val.toNat, if s.cmd.op = 2#4 then s.vd.i.toNat else 0, 0, 0⟩ } := by
  have hi : toPos s.params s.vd.i.toNat = s.vd.i.toNat := toPos_toNat _ (by decide) _
  rcases h with h | h
  · simp [varintDone, completeNormal, h, hi]
  · simp [varintDone, completeNormal, h]

/-- Settles O18: the two arms of `VCONT`, the second by what entering an error does. -/
theorem vcontTakesSevenBitsOrIsTooLong : Obligations.VcontTakesSevenBitsOrIsTooLong := by
  intro g s
  refine ⟨fun h => ?_, fun h => ?_⟩
  · rw [exec_vcont_of_le g h, takeGroup_eq]
  · exact ⟨_, exec_vcont_fifth g h.ge, raised_raiseMalformed _ _, raiseMalformed_td _ _⟩

/-- Settles O19: the two arms of `VLAST`; the end of the varint leaves `VD`, and returns it for the two commands. -/
theorem vlastEndsTheVarint : Obligations.VlastEndsTheVarint := by
  intro g s hi
  refine ⟨fun h => ?_, fun h => ?_, fun h hop => ?_⟩
  · exact ⟨_, exec_vlast_overflow ⟨h.1.ge, h.2⟩, raised_raiseMalformed _ _, raiseMalformed_td _ _⟩
  · refine ⟨_, exec_vlast_ends fun h' => h ⟨by omega, h'.2⟩, ?_⟩
    rw [varintDone_vd, takeGroup_eq]
  · rw [exec_vlast_ends fun h' => h ⟨by omega, h'.2⟩, varintDone_returns (s := takeGroup g s) hop, takeGroup_eq]
    rfl

/-! ### The encoder -/

/-- The number the value groups of a list of bytes make, the first the least significant (40_varint.md R110). -/
def groupsValue (bs : List Byte) : Nat := (bs.mapIdx fun j b => b.toNat % 128 * 128 ^ j).sum

theorem groupsValue_cons (b : Byte) (bs : List Byte) :
    groupsValue (b :: bs) = b.toNat % 128 + 128 * groupsValue bs := by
  simp only [groupsValue, List.mapIdx_cons, List.sum_cons, pow_zero, mul_one]
  rw [List.mapIdx_eq_zipIdx_map, List.mapIdx_eq_zipIdx_map, ← List.sum_map_mul_left]
  congr 3
  funext p
  ring

theorem varintBytes_of_lt (fuel : Nat) {v : Nat} (h : v < 128) : varintBytes fuel v = [BitVec.ofNat 8 v] := by
  cases fuel with
  | zero => rw [varintBytes, Nat.mod_eq_of_lt h]
  | succ fuel => exact if_pos h

theorem varintBytes_of_ge (fuel : Nat) {v : Nat} (h : 128 ≤ v) :
    varintBytes (fuel + 1) v = BitVec.ofNat 8 (128 + v % 128) :: varintBytes fuel (v / 128) := if_neg (by omega)

theorem varintBytes_length (fuel v : Nat) :
    1 ≤ (varintBytes fuel v).length ∧ (varintBytes fuel v).length ≤ fuel + 1 := by
  induction fuel generalizing v with
  | zero => simp [varintBytes]
  | succ fuel ih =>
    rcases Nat.lt_or_ge v 128 with h | h
    · simp [varintBytes_of_lt _ h]
    · have := ih (v / 128)
      rw [varintBytes_of_ge _ h, List.length_cons]
      omega

/-- Bit 7 is set on all bytes but the last. -/
theorem varintBytes_bit7 (fuel v j : Nat) (h : j < (varintBytes fuel v).length) :
    (varintBytes fuel v)[j].toNat / 128 = if j + 1 = (varintBytes fuel v).length then 0 else 1 := by
  induction fuel generalizing v j with
  | zero =>
    obtain rfl : j = 0 := by simpa [varintBytes] using h
    simp [varintBytes]; omega
  | succ fuel ih =>
    rcases Nat.lt_or_ge v 128 with hv | hv
    · simp only [varintBytes_of_lt _ hv, List.length_singleton] at h ⊢
      obtain rfl : j = 0 := by omega
      simp; omega
    · simp only [varintBytes_of_ge _ hv, List.length_cons] at h ⊢
      cases j with
      | zero =>
        have := (varintBytes_length fuel (v / 128)).1
        rw [if_neg (by omega)]
        simp; omega
      | succ j => simpa using ih (v / 128) j (by omega)

/-- The groups carry the value, if the passes suffice for it. -/
theorem groupsValue_varintBytes (fuel v : Nat) (h : v < 128 ^ (fuel + 1)) : groupsValue (varintBytes fuel v) = v := by
  induction fuel generalizing v with
  | zero =>
    rw [varintBytes_of_lt _ (by simpa using h), groupsValue_cons]
    simp [groupsValue]; omega
  | succ fuel ih =>
    rcases Nat.lt_or_ge v 128 with hv | hv
    · rw [varintBytes_of_lt _ hv, groupsValue_cons]
      simp [groupsValue]; omega
    · have hq : v / 128 < 128 ^ (fuel + 1) := Nat.div_lt_of_lt_mul (by rwa [pow_succ'] at h)
      rw [varintBytes_of_ge _ hv, groupsValue_cons, ih _ hq, BitVec.toNat_ofNat]
      omega

theorem varintBytes_getLast?_of_lt (fuel : Nat) {v : Nat} (h0 : 0 < v) (hv : v < 128) :
    (varintBytes fuel v).getLast? ≠ some 0#8 := by
  simp only [varintBytes_of_lt _ hv, List.getLast?_singleton, ne_eq, Option.some.injEq, ← BitVec.toNat_inj,
    BitVec.toNat_ofNat]
  omega

/-- The last group of a value above 0 is not superfluous. -/
theorem varintBytes_getLast? (fuel v : Nat) (h0 : 0 < v) (h : v < 128 ^ (fuel + 1)) :
    (varintBytes fuel v).getLast? ≠ some 0#8 := by
  induction fuel generalizing v with
  | zero =>
    exact varintBytes_getLast?_of_lt 0 h0 (by simpa using h)
  | succ fuel ih =>
    rcases Nat.lt_or_ge v 128 with hv | hv
    · exact varintBytes_getLast?_of_lt _ h0 hv
    · have hne : varintBytes fuel (v / 128) ≠ [] := List.ne_nil_of_length_pos (varintBytes_length _ _).1
      rw [varintBytes_of_ge _ hv, List.getLast?_cons_of_ne_nil hne]
      exact ih _ (by omega) (Nat.div_lt_of_lt_mul (by rwa [pow_succ'] at h))

/-- A varint of more than one byte has no superfluous last group. -/
theorem varintEncode_minimal {v : Nat} (h : v < 2 ^ 32) (hl : 1 < (varintEncode v).length) :
    (varintEncode v).getLast? ≠ some 0#8 := by
  refine varintBytes_getLast? 4 v ?_ (by omega)
  by_contra h0
  rw [varintEncode, varintBytes_of_lt _ (by omega)] at hl
  exact absurd hl (by simp)

theorem exec_varintEnc {s : State} (h : s.cmd.a0 < 2 ^ 32) :
    exec .varintEnc s = .next (completePushed (pushVarint s.cmd.a0 (clearCount (beginCommand 1#4 s)))) :=
  if_pos ((varintEncArgs_iff _).2 h)

/-- Settles O21: the bytes are those of `varintEncode`, whose loop gives the length, bit 7, the value and the last group. -/
theorem varintEncPushesTheMinimalVarint : Obligations.VarintEncPushesTheMinimalVarint := by
  intro s h
  obtain ⟨hl, hu⟩ := varintBytes_length 4 s.cmd.a0
  have hpush := pushes_pushVarint s.cmd.a0 (clearCount (beginCommand 1#4 s))
  have hcount : toPos s.params (varintEncode s.cmd.a0).length = (varintEncode s.cmd.a0).length :=
    toPos_small (Nat.lt_of_le_of_lt hu (by decide))
  refine ⟨_, varintEncode s.cmd.a0, exec_varintEnc h, rfl, rfl, ?_, hl, hu, varintBytes_bit7 4 s.cmd.a0,
    (groupsValue_varintBytes 4 _ (by omega)).symm, varintEncode_minimal h, ?_,
    ⟨rfl, rfl, rfl, rfl, rfl, rfl, .rfl', .rfl'⟩, ⟨rfl, rfl, rfl, rfl, .rfl'⟩, rfl, rfl, rfl⟩
  · rw [hpush.rsp_from_zero rfl]
    simp [hcount, statusDone]
  · simp [pushVarint, pushBytes, clearCount, hcount]

/-! ### The decoder as a function -/

section
variable (rd : Nat → Byte) (pos endPos : Nat)

/-- The number the first `k` value groups make (40_varint.md R111). -/
def varintValue (k : Nat) : Nat := ((List.range k).map fun j => (rd (pos + j)).toNat % 128 * 128 ^ j).sum

/-- The first `n` bytes lie before the end and each says that another follows. -/
def ContinuesFor (n : Nat) : Prop := ∀ j, j < n → pos + j < endPos ∧ 128 ≤ (rd (pos + j)).toNat

variable {rd pos endPos}

theorem varintValue_succ (k : Nat) :
    varintValue rd pos (k + 1) = varintValue rd pos k + (rd (pos + k)).toNat % 128 * 128 ^ k := by
  simp [varintValue, List.range_succ]

theorem varintValue_lt (k : Nat) : varintValue rd pos k < 128 ^ k := by
  induction k with
  | zero => simp [varintValue]
  | succ k ih =>
    have hg : (rd (pos + k)).toNat % 128 + 1 ≤ 128 := by omega
    calc varintValue rd pos (k + 1)
      _ < ((rd (pos + k)).toNat % 128 + 1) * 128 ^ k := by rw [varintValue_succ, Nat.succ_mul]; omega
      _ ≤ 128 ^ (k + 1) := by rw [pow_succ']; exact Nat.mul_le_mul_right _ hg

/-- Up to four groups always fit 32 bits; a fifth fits exactly up to 0F. -/
theorem varintValue_lt_u32 {k : Nat} (hk : k < 5) (hlast : (rd (pos + k)).toNat < 128) :
    varintValue rd pos (k + 1) < 2 ^ 32 ↔ (k = 4 → (rd (pos + k)).toNat ≤ 0x0F) := by
  rcases Nat.lt_or_ge k 4 with h | h
  · have h128 : 128 ^ (k + 1) ≤ 128 ^ 4 := Nat.pow_le_pow_right (by decide) (by omega)
    have := varintValue_lt (rd := rd) (pos := pos) (k + 1)
    omega
  · obtain rfl : k = 4 := by omega
    have := varintValue_lt (rd := rd) (pos := pos) 4
    rw [varintValue_succ, Nat.mod_eq_of_lt hlast]
    omega

theorem ContinuesFor.succ {n : Nat} (h : ContinuesFor rd pos endPos n) (he : pos + n < endPos)
    (hb : 128 ≤ (rd (pos + n)).toNat) : ContinuesFor rd pos endPos (n + 1) := fun j hj =>
  (Nat.lt_succ_iff_lt_or_eq.1 hj).elim (h j) fun e => e ▸ ⟨he, hb⟩

/-- Either all of the first `n` bytes continue, or a first one does not: it is missing, or it is a last byte. -/
theorem continuesFor_or_stops (n : Nat) :
    ContinuesFor rd pos endPos n ∨
      ∃ k, k < n ∧ ContinuesFor rd pos endPos k ∧
        (endPos ≤ pos + k ∨ pos + k < endPos ∧ (rd (pos + k)).toNat < 128) := by
  induction n with
  | zero => exact .inl fun j hj => absurd hj (Nat.not_lt_zero j)
  | succ n ih =>
    obtain h | ⟨k, hk, hc, hs⟩ := ih
    · by_cases hs : endPos ≤ pos + n ∨ pos + n < endPos ∧ (rd (pos + n)).toNat < 128
      · exact .inr ⟨n, n.lt_succ_self, h, hs⟩
      · exact .inl (h.succ (by omega) (by omega))
    · exact .inr ⟨k, by omega, hc, hs⟩

/-- After `n` continuing bytes the decoder is at index `n` with the value of their groups. -/
theorem varintDecode_after {n left : Nat} (h : ContinuesFor rd pos endPos n) (hn : n + left = 4) :
    varintDecode rd pos endPos = varintFrom rd pos endPos (left + 1) n (varintValue rd pos n) := by
  induction n generalizing left with
  | zero =>
    obtain rfl : left = 4 := by omega
    rfl
  | succ n ih =>
    obtain ⟨he, hb⟩ := h n n.lt_succ_self
    have hg : (rd (pos + n)).toNat - 128 = (rd (pos + n)).toNat % 128 := by omega
    rw [ih (fun j hj => h j (by omega)) (show n + (left + 1) = 4 by omega), varintValue_succ, varintFrom,
      if_neg (by omega)]
    simp only [Nat.add_one_ne_zero, false_and, if_false, hg, if_neg (Nat.not_lt.2 hb)]

theorem varintDecode_truncated {n : Nat} (h : ContinuesFor rd pos endPos n) (hn : n < 5) (he : endPos ≤ pos + n) :
    varintDecode rd pos endPos = .error .varintTruncated := by
  rw [varintDecode_after h (show n + (4 - n) = 4 by omega), varintFrom, if_pos he]

theorem varintDecode_tooLong (h : ContinuesFor rd pos endPos 5) :
    varintDecode rd pos endPos = .error .varintTooLong := by
  obtain ⟨he, hb⟩ := h 4 (by decide)
  rw [varintDecode_after (n := 4) (left := 0) (fun j hj => h j (by omega)) rfl, varintFrom, if_neg (by omega)]
  exact if_pos ⟨rfl, hb⟩

theorem varintDecode_overflow (h : ContinuesFor rd pos endPos 4) (he : pos + 4 < endPos)
    (hb : (rd (pos + 4)).toNat < 128) (ho : 0x0F < (rd (pos + 4)).toNat) :
    varintDecode rd pos endPos = .error .varintOverflow := by
  rw [varintDecode_after (left := 0) h rfl, varintFrom, if_neg (by omega)]
  exact (if_neg (by omega)).trans (if_pos ⟨rfl, ho⟩)

theorem varintDecode_last {k : Nat} (h : ContinuesFor rd pos endPos k) (hk : k < 5) (he : pos + k < endPos)
    (hb : (rd (pos + k)).toNat < 128) (hl : k = 4 → (rd (pos + k)).toNat ≤ 0x0F) :
    varintDecode rd pos endPos = .ok (varintValue rd pos (k + 1), k + 1) := by
  rw [varintDecode_after h (show k + (4 - k) = 4 by omega), varintFrom, if_neg (by omega), varintValue_succ]
  simp only [if_neg (show ¬ (4 - k = 0 ∧ 128 ≤ (rd (pos + k)).toNat) by omega),
    if_neg (show ¬ (4 - k = 0 ∧ Config.varintLastMax < (rd (pos + k)).toNat) by simp only [Config.varintLastMax]; omega),
    if_pos hb, Nat.mod_eq_of_lt hb]

variable (rd pos endPos)

/-- Everything `varintDecode` can answer, and when (40_varint.md R111, R113). -/
theorem varintDecode_cases :
    (∃ n, n < 5 ∧ ContinuesFor rd pos endPos n ∧ endPos ≤ pos + n ∧
      varintDecode rd pos endPos = .error .varintTruncated) ∨
    (ContinuesFor rd pos endPos 5 ∧ varintDecode rd pos endPos = .error .varintTooLong) ∨
    (ContinuesFor rd pos endPos 4 ∧ pos + 4 < endPos ∧ (rd (pos + 4)).toNat < 128 ∧ 0x0F < (rd (pos + 4)).toNat ∧
      varintDecode rd pos endPos = .error .varintOverflow) ∨
    (∃ k, k < 5 ∧ ContinuesFor rd pos endPos k ∧ pos + k < endPos ∧ (rd (pos + k)).toNat < 128 ∧
      (k = 4 → (rd (pos + k)).toNat ≤ 0x0F) ∧
      varintDecode rd pos endPos = .ok (varintValue rd pos (k + 1), k + 1)) := by
  obtain h | ⟨k, hk, h, he | ⟨he, hb⟩⟩ := continuesFor_or_stops (rd := rd) (pos := pos) (endPos := endPos) 5
  · exact .inr (.inl ⟨h, varintDecode_tooLong h⟩)
  · exact .inl ⟨k, hk, h, he, varintDecode_truncated h hk he⟩
  · by_cases hl : k = 4 → (rd (pos + k)).toNat ≤ 0x0F
    · exact .inr (.inr (.inr ⟨k, hk, h, he, hb, hl, varintDecode_last h hk he hb hl⟩))
    · obtain ⟨rfl, ho⟩ := Classical.not_imp.1 hl
      exact .inr (.inr (.inl ⟨h, he, hb, by omega, varintDecode_overflow h he hb (by omega)⟩))

end

/-- Settles O22: only the last of the answers of `varintDecode` is a success, and its bytes are what is asked for. -/
theorem varintDecodeAcceptsExactlyTheVarints : Obligations.VarintDecodeAcceptsExactlyTheVarints := by
  intro rd pos endPos v k
  constructor
  · intro hv
    obtain ⟨_, -, -, -, h⟩ | ⟨-, h⟩ | ⟨-, -, -, -, h⟩ | ⟨n, hn, hc, he, hb, hl, h⟩ := varintDecode_cases rd pos endPos
    · cases h.symm.trans hv
    · cases h.symm.trans hv
    · cases h.symm.trans hv
    · obtain ⟨rfl, rfl⟩ : varintValue rd pos (n + 1) = v ∧ n + 1 = k := by simpa using h.symm.trans hv
      refine ⟨by omega, by omega, by omega, fun j hj => ⟨fun hj' => ?_, fun hj' => ?_⟩, rfl,
        (varintValue_lt_u32 hn hb).2 hl⟩
      · by_contra hne
        have := (hc j (by omega)).2
        omega
      · obtain rfl : j = n := by omega
        exact hb
  · rintro ⟨h1, h5, he, hbytes, rfl, hv⟩
    obtain ⟨n, rfl⟩ : ∃ n, k = n + 1 := ⟨k - 1, by omega⟩
    have hb : (rd (pos + n)).toNat < 128 := (hbytes n n.lt_succ_self).2 rfl
    refine varintDecode_last (fun j hj => ⟨by omega, ?_⟩) (by omega) (by omega) hb ((varintValue_lt_u32 (by omega) hb).1 hv)
    have := hbytes j (by omega)
    omega

/-- Settles O23: the three failing answers of `varintDecode`, each with the bytes that cause it. -/
theorem varintErrorsComeInTheirOrder : Obligations.VarintErrorsComeInTheirOrder := by
  intro rd pos endPos c
  constructor
  · intro hc
    obtain ⟨n, hn, h, he, hd⟩ | ⟨h, hd⟩ | ⟨h, he, hb, ho, hd⟩ | ⟨_, -, -, -, -, -, hd⟩ :=
      varintDecode_cases rd pos endPos
    all_goals cases hd.symm.trans hc
    · exact .inl ⟨rfl, by omega, fun j hj => (h j (by omega)).2⟩
    · obtain ⟨he, hb⟩ := h 4 (by decide)
      exact .inr ⟨he, fun j hj => (h j (by omega)).2, .inl ⟨rfl, hb⟩⟩
    · exact .inr ⟨he, fun j hj => (h j hj).2, .inr ⟨rfl, hb, ho⟩⟩
  · rintro (⟨rfl, he, h⟩ | ⟨he, h, ⟨rfl, hb⟩ | ⟨rfl, hb, ho⟩⟩)
    · exact varintDecode_truncated (n := endPos - pos) (fun j hj => ⟨by omega, h j (by omega)⟩) (by omega) (by omega)
    · have h4 : ContinuesFor rd pos endPos 4 := fun j hj => ⟨by omega, h j hj⟩
      exact varintDecode_tooLong (h4.succ (by omega) hb)
    · exact varintDecode_overflow (fun j hj => ⟨by omega, h j hj⟩) (by omega) hb ho

end Sys2Proof.Machine
end

section
/-! The tag encoder: what `EMIT_LIT` and `EMIT_COPY` push and return. -/

namespace Sys2Proof.Machine

/-! ### A command that pushes, from its start to its completion -/

section
variable {op : BitVec 4} {bs : List Byte} {s t : State} (h : Pushes bs (clearCount (beginCommand op s)) t)
include h

theorem Pushes.command_count (hl : bs.length < 2 ^ 33) : t.ep.count = bs.length := by
  rw [h.count_from_zero rfl, toPos_small hl]

theorem Pushes.command_rsp (hl : bs.length < 2 ^ 33) :
    (completePushed t).rsp = ⟨statusDone, 0, bs.length, 0, 0, 0⟩ := by
  rw [h.rsp_from_zero rfl, toPos_small hl]

theorem Pushes.command_hostKept : HostKept s (completePushed t) := by
  obtain ⟨⟩ := h.hostKept
  constructor <;> assumption

theorem Pushes.command_decoderKept : DecoderKept s (completePushed t) := by
  obtain ⟨⟩ := h.decoderKept
  constructor <;> assumption

end

/-! ### Literals -/

theorem literalHeader_inline {runLen : Nat} (h : runLen ≤ 60) :
    literalHeader runLen = [BitVec.ofNat 8 ((runLen - 1) * 4)] := if_pos h

theorem literalHeader_extended {runLen : Nat} (h : 60 < runLen) :
    literalHeader runLen = BitVec.ofNat 8 ((59 + literalExtBytes (runLen - 1)) * 4) ::
      leBytes (literalExtBytes (runLen - 1)) (runLen - 1) := if_neg (Nat.not_le.2 h)

/-- `k` is the least number of bytes, one to four, that hold a number of 32 bits (41_tag_codec.md R131). -/
theorem literalExtBytes_least {m : Nat} (h : m < 2 ^ 32) :
    1 ≤ literalExtBytes m ∧ literalExtBytes m ≤ 4 ∧ m < 256 ^ literalExtBytes m ∧
      (1 < literalExtBytes m → 256 ^ (literalExtBytes m - 1) ≤ m) := by
  unfold literalExtBytes
  split
  · omega
  split
  · omega
  split <;> omega

theorem literalHeader_length_le {runLen : Nat} (h : runLen ≤ 2 ^ 32) : (literalHeader runLen).length ≤ 5 := by
  rcases Nat.lt_or_ge 60 runLen with hr | hr
  · obtain ⟨-, hk, -⟩ := literalExtBytes_least (m := runLen - 1) (by omega)
    simpa [literalHeader_extended hr, Nat.lt_succ_iff] using hk
  · simp [literalHeader_inline hr]

theorem exec_emitLit {s : State} (h1 : 1 ≤ s.cmd.a0) (h2 : s.cmd.a0 < 2 ^ 32) (h3 : s.cmd.a1 + s.cmd.a0 ≤ 2 ^ 32)
    (h4 : s.cmd.a1 < 2 ^ 32) :
    exec .emitLit s =
      .next (completePushed (emitLiteral s.cmd.a0 s.cmd.a1 (clearCount (beginCommand 3#4 s)))) :=
  if_pos ((emitLitArgs_iff _).2 ⟨⟨⟨h2, h4⟩, h1⟩, h3⟩)

/-- Settles O26: the bytes are those of `literalHeader`, short up to 60 and with the least `k` above, and the range
of `IN`. -/
theorem emitLitPushesHeaderAndPayload : Obligations.EmitLitPushesHeaderAndPayload := by
  intro s h1 h2 h3 h4
  have hpush : Pushes (literalHeader s.cmd.a0 ++ bytesFrom (cellGet s.inMem) s.cmd.a1 s.cmd.a0) _ _ :=
    pushes_emitLiteral s.cmd.a0 s.cmd.a1 (clearCount (beginCommand 3#4 s))
  have hlen : (literalHeader s.cmd.a0 ++ bytesFrom (cellGet s.inMem) s.cmd.a1 s.cmd.a0).length =
      (literalHeader s.cmd.a0).length + s.cmd.a0 := by rw [List.length_append, bytesFrom_length]
  have hfits : (literalHeader s.cmd.a0 ++ bytesFrom (cellGet s.inMem) s.cmd.a1 s.cmd.a0).length < 2 ^ 33 := by
    have := literalHeader_length_le h2.le
    omega
  refine ⟨_, literalHeader s.cmd.a0, bytesFrom (cellGet s.inMem) s.cmd.a1 s.cmd.a0, exec_emitLit h1 h2 h3 h4, rfl,
    hpush.sink, ?_, rfl, literalHeader_inline, fun hr => ?_, ?_, hpush.command_hostKept,
    hpush.command_decoderKept, rfl, rfl, rfl, rfl⟩
  · rw [← hlen]
    exact hpush.command_rsp hfits
  · obtain ⟨hk1, hk4, hm, hleast⟩ := literalExtBytes_least (m := s.cmd.a0 - 1) (by omega)
    refine ⟨_, _, hk1, hk4, literalHeader_extended hr, leBytes_length _ _, ?_, hleast⟩
    rw [leNat_leBytes, Nat.mod_eq_of_lt hm]
  · rw [← hlen, ← hpush.command_count hfits]
    rfl

/-! ### Copies -/

theorem oneCopyBytes_length_le (offset len : Nat) : (oneCopyBytes offset len).length ≤ 5 := by
  unfold oneCopyBytes
  split
  · simp
  split <;> simp

theorem flatMap_oneCopyBytes_length_le (offset : Nat) (lens : List Nat) :
    (lens.flatMap (oneCopyBytes offset)).length ≤ 5 * lens.length := by
  induction lens with
  | nil => simp
  | cons len lens ih =>
    have := oneCopyBytes_length_le offset len
    simp only [List.flatMap_cons, List.length_append, List.length_cons]
    omega

theorem exec_emitCopy {s : State} (h1 : 1 ≤ s.cmd.a0) (h2 : s.cmd.a0 < 2 ^ 32) (h3 : 4 ≤ s.cmd.a1)
    (h4 : s.cmd.a1 < 2 ^ 32) :
    exec .emitCopy s = .next (completePushed (emitCopy s.cmd.a0 s.cmd.a1 (clearCount (beginCommand 4#4 s)))) :=
  if_pos ((emitCopyArgs_iff _).2 ⟨⟨⟨h2, h4⟩, h1⟩, h3⟩)

/-- Settles O27: the pieces are those of `copyPieces_spec`; at most five bytes each, their count fits its register. -/
theorem emitCopyPushesThePieces : Obligations.EmitCopyPushesThePieces := by
  intro s h1 h2 h3 h4
  obtain ⟨q, r, tail, hpieces, htail, hsum⟩ := copyPieces_spec (s.cmd.a1 / 64) s.cmd.a1 h3 le_rfl
  have hpush := pushes_emitCopy s.cmd.a0 s.cmd.a1 (clearCount (beginCommand 4#4 s))
  have htail2 : tail.length ≤ 2 := by rcases htail with ⟨rfl, -⟩ | ⟨rfl, -⟩ <;> simp
  have hle := flatMap_oneCopyBytes_length_le s.cmd.a0 (List.replicate q 64 ++ tail)
  have hfits : ((List.replicate q 64 ++ tail).flatMap (oneCopyBytes s.cmd.a0)).length < 2 ^ 33 := by
    rw [List.length_append, List.length_replicate] at hle
    omega
  rw [copyBytes, hpieces] at hpush
  refine ⟨_, q, r, tail, exec_emitCopy h1 h2 h3 h4, rfl, htail, hsum,
    ⟨hpush.sink, hpush.command_rsp hfits, ?_⟩, hpush.command_hostKept, hpush.command_decoderKept, rfl, rfl, rfl⟩
  rw [← hpush.command_count hfits]
  rfl

end Sys2Proof.Machine
end

section
/-! The hash matcher: what `FIND_MATCH_LEN` returns. -/

namespace Sys2Proof.Machine

/-- `FindMatchLength` is the length of the common prefix, up to the end of the second range (42_hash_matcher.md R163). -/
theorem findMatchLength_spec (s : State) (p : Nat) {q qEnd : Nat} (h : q ≤ qEnd) :
    q + findMatchLength s p q qEnd ≤ qEnd ∧
      (∀ j, j < findMatchLength s p q qEnd → cellGet s.inMem (p + j) = cellGet s.inMem (q + j)) ∧
      (q + findMatchLength s p q qEnd = qEnd ∨
        cellGet s.inMem (p + findMatchLength s p q qEnd) ≠ cellGet s.inMem (q + findMatchLength s p q qEnd)) := by
  obtain ⟨hle, hprefix, hstop⟩ := matchLength_spec s (qEnd - q) p q
  unfold findMatchLength
  exact ⟨by omega, hprefix, hstop.imp_left fun hall => by omega⟩

/-- A command that returns one number of at most 33 bits changes the op code and the response alone (10_state.md R24). -/
theorem completeNormal_beginCommand {r0 : Nat} (h : r0 < 2 ^ 33) (op : BitVec 4) (s : State) :
    completeNormal r0 0 0 0 (beginCommand op s) =
      { s with cmd := { s.cmd with op := op }, rsp := ⟨statusDone, 0, r0, 0, 0, 0⟩ } := by
  simp [completeNormal, beginCommand, toPos_small h]

theorem exec_findMatchLen {s : State} (h1 : s.cmd.a0 ≤ s.cmd.a1) (h2 : s.cmd.a1 < 2 ^ 32)
    (h3 : s.cmd.a1 ≤ s.cmd.a2) (h4 : s.cmd.a2 ≤ 2 ^ 32) :
    exec .findMatchLen s =
      .next (completeNormal (findMatchLength (beginCommand 6#4 s) s.cmd.a0 s.cmd.a1 s.cmd.a2) 0 0 0
        (beginCommand 6#4 s)) :=
  if_pos ((findMatchLenArgs_iff _).2 ⟨⟨⟨⟨⟨Nat.lt_of_le_of_lt h1 h2, h2⟩, Nat.lt_of_le_of_lt h4 (by decide)⟩, h1⟩, h3⟩, h4⟩)

/-- Settles O30: the length is that of `findMatchLength`, at most 2^32 and so returned whole. -/
theorem findMatchLenReturnsTheCommonPrefix : Obligations.FindMatchLenReturnsTheCommonPrefix := by
  intro s h1 h2 h3 h4
  obtain ⟨hle, hprefix, hstop⟩ := findMatchLength_spec (beginCommand 6#4 s) s.cmd.a0 h3
  refine ⟨_, ?_, hle, hprefix, hstop⟩
  rw [exec_findMatchLen h1 h2 h3 h4, completeNormal_beginCommand (by omega)]
  rfl

end Sys2Proof.Machine
end

section
/-! A tag decodes back from its encoding, whatever stands after it (30_encoding.md R84 to R88, R91). -/

namespace Sys2Proof

/-- A number that fits a register is held whole. -/
theorem toNat_ofNat_of_lt {w n : Nat} (h : n < 2 ^ w) : (BitVec.ofNat w n).toNat = n := by
  rw [BitVec.toNat_ofNat, Nat.mod_eq_of_lt h]

theorem ofNat_leNat_leBytes {w : Nat} (k : Nat) (hk : 8 * k = w) (v : BitVec w) :
    BitVec.ofNat w (leNat (leBytes k v.toNat)) = v := by
  have h256 : 256 ^ k = 2 ^ w := by rw [← hk, pow_mul]; rfl
  rw [leNat_leBytes, h256, Nat.mod_eq_of_lt v.isLt, BitVec.ofNat_toNat, BitVec.setWidth_eq]

theorem toNat_tagByte (u : BitVec 6) {c : Nat} (hc : c < 4) :
    (BitVec.ofNat 8 (u.toNat * 4 + c)).toNat = u.toNat * 4 + c := by
  have := u.isLt
  exact toNat_ofNat_of_lt (by omega)

theorem tagUpper_tagByte (u : BitVec 6) {c : Nat} (hc : c < 4) : tagUpper (BitVec.ofNat 8 (u.toNat * 4 + c)) = u :=
  BitVec.eq_of_toNat_eq (by rw [tagUpper_toNat, toNat_tagByte u hc]; omega)

theorem decodeTag_lit {m : BitVec 6} (hm : m.toNat < 60) (rest : List Byte) :
    decodeTag (encode (.lit m) ++ rest) = .ok (.lit m, rest) := by
  have hT : (BitVec.ofNat 8 (m.toNat * 4)).toNat = m.toNat * 4 := toNat_tagByte m (c := 0) (by decide)
  have hu : tagUpper (BitVec.ofNat 8 (m.toNat * 4)) = m := tagUpper_tagByte m (c := 0) (by decide)
  rw [encode, List.singleton_append, decodeTag_eq, hT, hu, if_neg (by omega), if_neg (by omega), if_neg (by omega),
    if_pos (by omega)]

theorem decodeTag_copy1 (l : BitVec 3) (offset : BitVec 11) (rest : List Byte) :
    decodeTag (encode (.copy1 l offset) ++ rest) = .ok (.copy1 l offset, rest) := by
  have hl := l.isLt
  have ho := offset.isLt
  simp only [encode, List.cons_append, List.nil_append]
  generalize hbyte : BitVec.ofNat 8 (offset.toNat / 256 * 32 + l.toNat * 4 + 1) = T
  have hT : T.toNat = offset.toNat / 256 * 32 + l.toNat * 4 + 1 := hbyte ▸ toNat_ofNat_of_lt (by omega)
  have hlen : T.extractLsb' 2 3 = l := by
    apply BitVec.eq_of_toNat_eq
    rw [BitVec.extractLsb'_toNat, hT, Nat.shiftRight_eq_div_pow]
    omega
  have hhigh : (T.extractLsb' 5 3).toNat = offset.toNat / 256 := by
    rw [BitVec.extractLsb'_toNat, hT, Nat.shiftRight_eq_div_pow]
    omega
  have hoff : BitVec.ofNat 11 (offset.toNat / 256 * 256 + (BitVec.ofNat 8 offset.toNat).toNat) = offset := by
    apply BitVec.eq_of_toNat_eq
    simp only [BitVec.toNat_ofNat]
    omega
  rw [decodeTag_eq, hT, if_pos (by omega), decodeCopy1, hlen, hhigh, hoff]

/-- A tag decodes to itself. -/
theorem decodeTag_encode {i : Instr} (hw : WellFormed i) (hc : contextOf i = .tag) (rest : List Byte) :
    decodeTag (encode i ++ rest) = .ok (i, rest) := by
  cases i <;> simp only [contextOf, reduceCtorEq] at hc
  case lit m => exact decodeTag_lit (by simpa [WellFormed, wellFormed] using hw) rest
  case lit1 m =>
    have hd : decodeTag (encode (.lit1 m) ++ rest) = .ok (.lit1 (BitVec.ofNat 8 m.toNat), rest) := rfl
    rw [hd, BitVec.ofNat_toNat, BitVec.setWidth_eq]
  case lit2 m =>
    have hd : decodeTag (encode (.lit2 m) ++ rest) =
        .ok (.lit2 (BitVec.ofNat 16 (leNat (leBytes 2 m.toNat))), rest) := rfl
    rw [hd, ofNat_leNat_leBytes 2 rfl]
  case lit3 m =>
    have hd : decodeTag (encode (.lit3 m) ++ rest) =
        .ok (.lit3 (BitVec.ofNat 24 (leNat (leBytes 3 m.toNat))), rest) := rfl
    rw [hd, ofNat_leNat_leBytes 3 rfl]
  case lit4 m =>
    have hd : decodeTag (encode (.lit4 m) ++ rest) =
        .ok (.lit4 (BitVec.ofNat 32 (leNat (leBytes 4 m.toNat))), rest) := rfl
    rw [hd, ofNat_leNat_leBytes 4 rfl]
  case copy1 l offset => exact decodeTag_copy1 l offset rest
  case copy2 l offset =>
    have hT := toNat_tagByte l (c := 2) (by decide)
    have hd (T : Byte) : decodeCopy2 T (leBytes 2 offset.toNat ++ rest) =
        .ok (.copy2 (tagUpper T) (BitVec.ofNat 16 (leNat (leBytes 2 offset.toNat))), rest) := rfl
    rw [encode, List.cons_append, decodeTag_eq, hT, if_neg (by omega), if_pos (by omega), hd,
      tagUpper_tagByte l (by decide), ofNat_leNat_leBytes 2 rfl]
  case copy4 l offset =>
    have hT := toNat_tagByte l (c := 3) (by decide)
    have hd (T : Byte) : decodeCopy4 T (leBytes 4 offset.toNat ++ rest) =
        .ok (.copy4 (tagUpper T) (BitVec.ofNat 32 (leNat (leBytes 4 offset.toNat))), rest) := rfl
    rw [encode, List.cons_append, decodeTag_eq, hT, if_neg (by omega), if_neg (by omega), if_pos (by omega), hd,
      tagUpper_tagByte l (by decide), ofNat_leNat_leBytes 4 rfl]

end Sys2Proof
end

section
/-! The matcher's contract: the literals and copies of a matching pass cover the fragment from left to right. -/

namespace Sys2Proof.Machine

/-! ### Reading the same bytes -/

theorem bytesFrom_getElem (rd : Nat → Byte) (a n j : Nat) (h : j < (bytesFrom rd a n).length) :
    (bytesFrom rd a n)[j] = rd (a + j) := by simp [bytesFrom]

theorem leNat_inj {bs bs' : List Byte} (hl : bs.length = bs'.length) (h : leNat bs = leNat bs') : bs = bs' := by
  rw [← leBytes_leNat bs, ← leBytes_leNat bs', hl, h]

/-- Equal words are four equal bytes. -/
theorem load32_eq {s : State} {a b : Nat} (h : load32 s a = load32 s b) (j : Nat) (hj : j < 4) :
    cellGet s.inMem (a + j) = cellGet s.inMem (b + j) := by
  unfold load32 readInRange at h
  rw [cellRange_eq, cellRange_eq] at h
  have he := leNat_inj (by simp) h
  have hg := congrArg (·[j]?) he
  simpa [bytesFrom, hj] using hg

/-! ### What the events of a pass cover -/

/-- A copy 42_hash_matcher.md R168 allows at position `ip` of the fragment `rd[base .. base+n)`. -/
structure IsMatch (rd : Nat → Byte) (base n ip offset len : Nat) : Prop where
  head : 4 ≤ ip
  tail : ip + 5 ≤ n
  long : 4 ≤ len
  inside : ip + len ≤ n
  offset_pos : 1 ≤ offset
  offset_le : offset ≤ ip
  same : ∀ j, j < len → rd (base + ip + j) = rd (base + ip - offset + j)

/-- Events that cover the first `p` bytes of a fragment, in the shape the pass emits them (42_hash_matcher.md R166):
each copy after the literal run that was pending, if there was one. -/
inductive Covers (rd : Nat → Byte) (base n : Nat) : List Event → Nat → Prop
  | start : Covers rd base n [] 0
  | round {es : List Event} {p ip offset len : Nat} : Covers rd base n es p → p ≤ ip →
      IsMatch rd base n ip offset len →
      Covers rd base n (es ++ pendingLiteral p ip ++ [.copy offset len]) (ip + len)

theorem Covers.le {rd : Nat → Byte} {base n p : Nat} {es : List Event} (h : Covers rd base n es p) : p ≤ n := by
  cases h with
  | start => exact Nat.zero_le n
  | round _ _ hm => exact hm.inside

/-- What holds of a matching pass between two probes: its events cover the fragment up to `nextEmit`, the cursor is past
the head guard, the skip makes a step of at least 1, and the table holds only positions before the cursor. -/
structure PassOk (s : State) (base n tbits : Nat) (m : MatchPass) : Prop where
  covers : Covers (cellGet s.inMem) base n m.events m.nextEmit
  pending : m.nextEmit ≤ m.ip
  head : 4 ≤ m.ip
  skip : 32 ≤ m.skip
  table : ∀ h, h < 2 ^ tbits → (cellGet m.ht h).toNat < m.ip

theorem skipStep_pos {skip : Nat} (h : 32 ≤ skip) : 1 ≤ skipStep skip := by
  simp only [skipStep, Config.skipShift, Config.skipCap, Nat.shiftRight_eq_div_pow]
  omega

/-- The table stays below the cursor when it takes the probed position and the cursor moves on. -/
theorem table_after_probe {m : Cells 16} {tbits ip ip' h : Nat} (ht : ∀ h, h < 2 ^ tbits → (cellGet m h).toNat < ip)
    (hip : ip < ip') :
    ∀ k, k < 2 ^ tbits → (cellGet (cellSet m h (BitVec.ofNat 16 ip)) k).toNat < ip' := by
  intro k hk
  have := ht k hk
  rw [cellGet_set]
  split
  · have : ip % 2 ^ 16 ≤ ip := Nat.mod_le _ _
    simp only [BitVec.toNat_ofNat]
    omega
  · omega

/-- Where the words at the cursor and at a candidate before it are equal, there is a match as long as the common
prefix. -/
theorem isMatch_of_word {s : State} {base n ip cand : Nat} (head : 4 ≤ ip) (tail : ip + 5 ≤ n) (hc : cand < ip)
    (hw : load32 s (base + cand) = load32 s (base + ip)) :
    IsMatch (cellGet s.inMem) base n ip (ip - cand)
      (4 + findMatchLength s (base + cand + 4) (base + ip + 4) (base + n)) := by
  obtain ⟨hle, hsame, -⟩ := findMatchLength_spec s (base + cand + 4) (q := base + ip + 4) (qEnd := base + n) (by omega)
  refine ⟨head, tail, by omega, by omega, by omega, by omega, fun j hj => ?_⟩
  rw [show base + ip - (ip - cand) = base + cand by omega]
  rcases Nat.lt_or_ge j 4 with h4 | h4
  · exact (load32_eq hw j h4).symm
  · have := hsame (j - 4) (by omega)
    rw [show base + cand + 4 + (j - 4) = base + cand + j by omega,
      show base + ip + 4 + (j - 4) = base + ip + j by omega] at this
    exact this.symm

theorem matchLoop_ok {s : State} {base n tbits : Nat} (ht : tbits ≤ 14) (fuel : Nat) (m : MatchPass)
    (h : PassOk s base n tbits m) : PassOk s base n tbits (matchLoop s base n tbits fuel m) := by
  induction fuel generalizing m with
  | zero => exact h
  | succ fuel ih =>
    obtain ⟨covers, pending, head, skip, table⟩ := h
    simp only [matchLoop, Config.tailGuard]
    split
    case isFalse => exact ⟨covers, pending, head, skip, table⟩
    case isTrue hn =>
      have hhash : hashWord s.params.hash (load32 s (base + m.ip)) tbits < 2 ^ tbits := hashWord_lt _ _ _ (by omega)
      split
      case isTrue hw =>
        have hm := isMatch_of_word head (show m.ip + 5 ≤ n by omega) (table _ hhash) hw
        exact ih _ ⟨covers.round pending hm, le_rfl, by simp only; omega, le_rfl,
          table_after_probe table (by simp only; omega)⟩
      case isFalse =>
        have := skipStep_pos skip
        exact ih _ ⟨covers, by simp only; omega, by simp only; omega, by simp only; omega,
          table_after_probe table (by simp only; omega)⟩

/-- The events of a fragment cover it: rounds, then what is left as one literal (42_hash_matcher.md R166, R168). -/
def CoversFragment (rd : Nat → Byte) (base n : Nat) (events : List Event) : Prop :=
  ∃ es p, events = es ++ pendingLiteral p n ∧ Covers rd base n es p

theorem matchFragment_covers (s : State) (base n : Nat) :
    CoversFragment (cellGet s.inMem) base n (matchFragment s base n).events := by
  have h : PassOk s base n (tableBits n) (matchLoop s base n (tableBits n) n
      { events := [], ip := Config.headGuard, nextEmit := 0, skip := Config.skipInit
        ht := cellsFrom s.ht (2 ^ tableBits n) }) := by
    refine matchLoop_ok (tableBits_le n).2 n _ ⟨.start, Nat.zero_le _, le_rfl, le_rfl, fun k hk => ?_⟩
    rw [cellGet_from, if_neg (by omega)]
    exact Nat.zero_lt_succ 3
  exact ⟨_, _, rfl, h.covers⟩

end Sys2Proof.Machine
end

section
/-! The encoder pipeline: what `MAX_CLEN` returns, the shape of what `COMPRESS` pushes, and its length. -/

namespace Sys2Proof.Machine

/-! ### MAX_CLEN -/

theorem exec_maxClen {s : State} (h : s.cmd.a0 < 2 ^ 32) :
    exec .maxClen s = .next (completeNormal (maxCompressedLength s.cmd.a0) 0 0 0 (beginCommand 9#4 s)) :=
  if_pos ((maxClenArgs_iff _).2 h)

/-- Settles O37: the result needs at most 33 bits, so it is returned whole. -/
theorem maxClenIsExact : Obligations.MaxClenIsExact := by
  intro s h
  have hfits : maxCompressedLength s.cmd.a0 < 2 ^ 33 := by unfold maxCompressedLength; omega
  rw [exec_maxClen h, completeNormal_beginCommand hfits]
  rfl

/-! ### The length of the tags -/

/-- A literal header is one byte, and each further byte stands for at least twelve bytes of payload. -/
theorem literalHeader_length_bound (len : Nat) : 12 * (literalHeader len).length ≤ len + 12 := by
  rcases Nat.lt_or_ge 60 len with h | h
  · rw [literalHeader_extended h, List.length_cons, leBytes_length, literalExtBytes]
    repeat' split
    all_goals omega
  · rw [literalHeader_inline h, List.length_singleton]
    omega

theorem oneCopyBytes_length_le_three {offset : Nat} (h : offset < 65536) (len : Nat) :
    (oneCopyBytes offset len).length ≤ 3 := by
  unfold oneCopyBytes
  split <;> simp

theorem flatMap_oneCopyBytes_length_le_three {offset : Nat} (h : offset < 65536) (lens : List Nat) :
    (lens.flatMap (oneCopyBytes offset)).length ≤ 3 * lens.length := by
  induction lens with
  | nil => simp
  | cons len lens ih =>
    have := oneCopyBytes_length_le_three h len
    simp only [List.flatMap_cons, List.length_append, List.length_cons]
    omega

/-- A copy from less than 65536 back is shorter than what it stands for. -/
theorem copyBytes_length_lt {offset len : Nat} (ho : offset < 65536) (hl : 4 ≤ len) :
    (copyBytes offset len).length < len := by
  obtain ⟨q, r, tail, hpieces, htail, hsum⟩ := copyPieces_spec (len / 64) len hl le_rfl
  have hle := flatMap_oneCopyBytes_length_le_three ho (List.replicate q 64 ++ tail)
  rw [copyBytes, hpieces]
  rw [List.length_append, List.length_replicate] at hle
  rcases htail with ⟨rfl, -⟩ | ⟨rfl, -⟩ <;>
    simp only [List.length_cons, List.length_nil, List.sum_cons, List.sum_nil] at hle hsum <;> omega

/-- A pending run grows by its header at most. -/
theorem pendingLiteral_length_bound (rd : Nat → Byte) (base : Nat) {p ip : Nat} :
    12 * ((pendingLiteral p ip).flatMap (eventBytes rd base)).length ≤ 13 * (ip - p) + 12 := by
  unfold pendingLiteral
  split
  · have := literalHeader_length_bound (ip - p)
    simp only [List.flatMap_singleton, eventBytes, List.length_append, bytesFrom_length]
    omega
  · simp

section
variable {rd : Nat → Byte} {base n : Nat} {es : List Event}

/-- In a fragment of at most 65536 bytes a round's copy saves what its literal's header costs, but for a twelfth. -/
theorem Covers.length_bound {p : Nat} (hn : n ≤ 65536) (h : Covers rd base n es p) :
    12 * (es.flatMap (eventBytes rd base)).length ≤ 13 * p := by
  induction h with
  | start => simp
  | @round es p ip offset len _ hp hm ih =>
    obtain ⟨-, tail, long, -, -, offset_le, -⟩ := hm
    have hlit := pendingLiteral_length_bound rd base (p := p) (ip := ip)
    have hcopy : (copyBytes offset len).length < len := copyBytes_length_lt (by omega) long
    simp only [List.flatMap_append, List.flatMap_singleton, List.length_append, eventBytes]
    omega

theorem CoversFragment.length_bound (hn : n ≤ 65536) (h : CoversFragment rd base n es) :
    12 * (es.flatMap (eventBytes rd base)).length ≤ 13 * n + 12 := by
  obtain ⟨es, p, rfl, hc⟩ := h
  have hrounds := hc.length_bound hn
  have hlit := pendingLiteral_length_bound rd base (p := p) (ip := n)
  have := hc.le
  simp only [List.flatMap_append, List.length_append]
  omega

end

/-! ### The fragments of a frame -/

/-- The tags of `rd[base .. n)` as `Compress` pushes them (43_lz_encoder.md R191): fragment after fragment of
`ENC_FRAGMENT` bytes, the last the remainder, each covered by its events. -/
inductive FrameTags (rd : Nat → Byte) (n : Nat) : Nat → List Byte → Prop
  | done : FrameTags rd n n []
  | fragment {base : Nat} {es : List Event} {bs : List Byte} : base < n →
      CoversFragment rd base (min (n - base) 32768) es →
      FrameTags rd n (base + min (n - base) 32768) bs →
      FrameTags rd n base (es.flatMap (eventBytes rd base) ++ bs)

theorem FrameTags.le {rd : Nat → Byte} {n base : Nat} {bs : List Byte} (h : FrameTags rd n base bs) : base ≤ n := by
  cases h with
  | done => exact le_rfl
  | fragment h _ _ => exact h.le

theorem FrameTags.eq_nil {rd : Nat → Byte} {n : Nat} {bs : List Byte} (h : FrameTags rd n n bs) : bs = [] := by
  cases h with
  | done => rfl
  | fragment h _ _ => exact absurd h (Nat.lt_irrefl n)

/-- A full fragment grows by less than a sixth, the last one by at most one byte more. -/
theorem FrameTags.length_bound {rd : Nat → Byte} {n base : Nat} {bs : List Byte} (h : FrameTags rd n base bs) :
    6 * bs.length ≤ 7 * (n - base) + 6 := by
  induction h with
  | done => simp
  | @fragment base es bs hb hc ht ih =>
    have hfrag := hc.length_bound (by omega)
    rw [List.length_append]
    rcases Nat.lt_or_ge (n - base) 32768 with hl | hl
    · rw [Nat.min_eq_left hl.le] at hfrag ht
      rw [show base + (n - base) = n by omega] at ht
      rw [ht.eq_nil, List.length_nil]
      omega
    · rw [Nat.min_eq_right hl] at hfrag ih
      omega

/-! ### COMPRESS -/

theorem fragmentBytes_covers (s : State) :
    ∃ es, fragmentBytes s = es.flatMap (eventBytes (cellGet s.inMem) s.ep.fragBase.toNat) ∧
      CoversFragment (cellGet s.inMem) s.ep.fragBase.toNat (fragLenAt s) es :=
  ⟨_, rfl, matchFragment_covers (noteFragLen (fragLenAt s) s) _ _⟩

theorem compressFragment_fragBase {s : State} (h : s.ep.fragBase.toNat ≤ s.ep.inLen.toNat) :
    (compressFragment s).ep.fragBase.toNat = s.ep.fragBase.toNat + fragLenAt s := by
  have := s.ep.inLen.isLt
  rw [compressFragment, noteFragBase_ep]
  exact toNat_ofNat_of_lt (by unfold fragLenAt; omega)

/-- With passes for what is left, the fragment loop pushes the tags of all of it. -/
theorem compressFragments_tags (fuel : Nat) (s : State) (hb : s.ep.fragBase.toNat ≤ s.ep.inLen.toNat)
    (hf : s.ep.inLen.toNat ≤ s.ep.fragBase.toNat + fuel * 32768) :
    ∃ bs, Pushes bs s (compressFragments fuel s) ∧
      FrameTags (cellGet s.inMem) s.ep.inLen.toNat s.ep.fragBase.toNat bs := by
  induction fuel generalizing s with
  | zero =>
    have he : s.ep.fragBase.toNat = s.ep.inLen.toNat := by omega
    exact ⟨[], by constructor <;> simp [compressFragments], he ▸ .done⟩
  | succ fuel ih =>
    simp only [compressFragments]
    split
    case isTrue hlt =>
      have hpush := pushes_compressFragment s
      have hbase := compressFragment_fragBase hb
      have hlen : fragLenAt s = min (s.ep.inLen.toNat - s.ep.fragBase.toNat) 32768 := rfl
      obtain ⟨es, hes, hcovers⟩ := fragmentBytes_covers s
      obtain ⟨bs, hrest, htags⟩ := ih (compressFragment s) (by rw [hpush.inLen]; omega) (by rw [hpush.inLen]; omega)
      rw [hpush.inMem, hpush.inLen, hbase] at htags
      exact ⟨_, hpush.trans hrest, hes ▸ .fragment hlt hcovers htags⟩
    case isFalse =>
      have he : s.ep.fragBase.toNat = s.ep.inLen.toNat := by omega
      exact ⟨[], by constructor <;> simp, he ▸ .done⟩

/-- `Compress(n)` pushes the varint of `n` and the tags of `IN[0 .. n)`. -/
theorem compressFrame_tags {n : Nat} (s : State) (h : n < 2 ^ 32) :
    ∃ bs, Pushes (varintEncode n ++ bs) (startCompress n s) (compressFrame n s) ∧
      FrameTags (cellGet s.inMem) n 0 bs := by
  have hvarint := pushes_pushVarint n (startCompress n s)
  have hin : (pushVarint n (startCompress n s)).ep.inLen.toNat = n := by
    rw [hvarint.inLen, startCompress_ep]
    exact toNat_ofNat_of_lt h
  have hbase : (pushVarint n (startCompress n s)).ep.fragBase.toNat = 0 := rfl
  obtain ⟨bs, hpush, htags⟩ := compressFragments_tags (n / Config.encFragment + 1) (pushVarint n (startCompress n s))
    (by omega) (by simp only [Config.encFragment]; omega)
  rw [hin, hbase] at htags
  exact ⟨bs, hvarint.trans hpush, htags⟩

theorem exec_compress {s : State} (h : s.cmd.a0 < 2 ^ 32) :
    exec .compress s = .next (completePushed (compressFrame s.cmd.a0 (beginCommand 8#4 s))) :=
  if_pos ((compressArgs_iff _).2 h)

/-- `COMPRESS` completes; its frame is the varint of the length and the tags of the input, and it returns the count. -/
theorem compress_pushes {s : State} (h : s.cmd.a0 < 2 ^ 32) :
    ∃ t bs, exec .compress s = .next t ∧ t.sink = s.sink ++ (varintEncode s.cmd.a0 ++ bs) ∧
      t.rsp = ⟨statusDone, 0, toPos s.params (varintEncode s.cmd.a0 ++ bs).length, 0, 0, 0⟩ ∧
      FrameTags (cellGet s.inMem) s.cmd.a0 0 bs := by
  obtain ⟨bs, hpush, htags⟩ := compressFrame_tags (beginCommand 8#4 s) h
  exact ⟨_, bs, exec_compress h, hpush.sink, hpush.rsp_from_zero rfl, htags⟩

/-- Settles O38: the varint has at most five bytes and the tags grow by at most a sixth and one byte, so the count
of all fits its register. -/
theorem compressedLengthIsBounded : Obligations.CompressedLengthIsBounded := by
  intro s h
  obtain ⟨t, bs, hexec, hsink, hrsp, htags⟩ := compress_pushes h
  have hvarint : (varintEncode s.cmd.a0).length ≤ 5 := (varintBytes_length 4 s.cmd.a0).2
  have hlen : (varintEncode s.cmd.a0 ++ bs).length ≤ 32 + s.cmd.a0 + s.cmd.a0 / 6 := by
    have := htags.length_bound
    rw [List.length_append]
    omega
  have hr0 : t.rsp.r0 = (varintEncode s.cmd.a0 ++ bs).length := by
    rw [hrsp]
    exact toPos_small (by omega)
  exact ⟨t, hexec, by rw [hsink, List.length_append, hr0], hr0 ▸ hlen⟩

end Sys2Proof.Machine
end

section
/-! A varint of the program: its bytes execute as `varintDecode` says, and what was encoded decodes. -/

namespace Sys2Proof.Machine

/-! ### The machine takes the groups of a varint -/

/-- The varint decoder after `k` bytes of the varint at `pos` (40_varint.md R111). -/
def afterGroups (pos k : Nat) (s : State) : State :=
  { s with vd := ⟨BitVec.ofNat 32 (varintValue (cellGet s.frame) pos k), BitVec.ofNat 3 k⟩ }

theorem afterGroups_index (s : State) (pos : Nat) {k : Nat} (hk : k < 8) : (afterGroups pos k s).vd.i.toNat = k :=
  toNat_ofNat_of_lt hk

/-- The next group lies above those taken, so taking it adds it. -/
theorem takeGroup_afterGroups {s : State} {pos k : Nat} (hk : k < 5) :
    takeGroup ((cellGet s.frame (pos + k)).extractLsb' 0 7) (afterGroups pos k s) = afterGroups pos (k + 1) s := by
  have hlow : varintValue (cellGet s.frame) pos k < 2 ^ (7 * k) := by
    rw [pow_mul]
    exact varintValue_lt k
  have hval : varintValue (cellGet s.frame) pos (k + 1) =
      varintValue (cellGet s.frame) pos k ||| ((cellGet s.frame (pos + k)).toNat % 128) <<< (7 * k) := by
    rw [Nat.or_comm, ← Nat.shiftLeft_add_eq_or_of_lt hlow, varintValue_succ, Nat.shiftLeft_eq, pow_mul, Nat.add_comm]
    rfl
  have hg : ((cellGet s.frame (pos + k)).extractLsb' 0 7).toNat = (cellGet s.frame (pos + k)).toNat % 128 := by simp
  have hi : (BitVec.ofNat 3 k).toNat = k := toNat_ofNat_of_lt (by omega)
  simp only [takeGroup, afterGroups, hi, hg, hval, BitVec.ofNat_or]

section
variable {s t : State} {pos endPos : Nat} (hr : s.rst = false) (hb : busy s = true)
  (hv : varintRange s = some (pos, endPos))
include hr hb hv

/-- A byte before the end executes at its index. -/
theorem step_afterGroups {k : Nat} (hk : k < 5) (he : pos + k < endPos) :
    step (afterGroups pos k s) = exec (decodePreamble (cellGet s.frame (pos + k))) (afterGroups pos k s) := by
  rw [step_varint (s := afterGroups pos k s) hr hb hv, afterGroups_index s pos (by omega), if_neg (by omega)]
  rfl

/-- The continuing bytes of a varint execute one a step. -/
theorem completes_of_continues {k : Nat} (hk : k ≤ 4) (hc : ContinuesFor (cellGet s.frame) pos endPos k)
    (h : Completes (afterGroups pos k s) t) : Completes (startVarint s) t := by
  induction k with
  | zero => exact h
  | succ k ih =>
    obtain ⟨he, hbyte⟩ := hc k k.lt_succ_self
    refine ih (by omega) (fun j hj => hc j (by omega)) (.step hb ?_ h)
    have hi : (afterGroups pos k s).vd.i.toNat ≤ 3 := by
      rw [afterGroups_index s pos (by omega)]
      omega
    rw [step_afterGroups hr hb hv (by omega) he, decodePreamble_eq, if_pos hbyte, exec_vcont_of_le _ hi,
      takeGroup_afterGroups (by omega)]

/-- A varint that decodes executes to its end (40_varint.md R111, R114). -/
theorem completes_of_varintDecode {v k : Nat} (hd : varintDecode (cellGet s.frame) pos endPos = .ok (v, k))
    (h : Completes (varintDone { s with vd := ⟨BitVec.ofNat 32 v, BitVec.ofNat 3 k⟩ }) t) :
    Completes (startVarint s) t := by
  obtain ⟨_, -, -, -, he⟩ | ⟨-, he⟩ | ⟨-, -, -, -, he⟩ | ⟨n, hn, hc, hlt, hbyte, hlast, he⟩ :=
    varintDecode_cases (cellGet s.frame) pos endPos
  · cases he.symm.trans hd
  · cases he.symm.trans hd
  · cases he.symm.trans hd
  · obtain ⟨rfl, rfl⟩ : varintValue (cellGet s.frame) pos (n + 1) = v ∧ n + 1 = k := by simpa using he.symm.trans hd
    refine completes_of_continues hr hb hv (by omega) hc (.step hb ?_ h)
    have hg : ((cellGet s.frame (pos + n)).extractLsb' 0 7).toNat = (cellGet s.frame (pos + n)).toNat % 128 := by simp
    have hends : ¬ (4 ≤ (afterGroups pos n s).vd.i.toNat ∧
        Config.varintLastMax < ((cellGet s.frame (pos + n)).extractLsb' 0 7).toNat) := by
      rw [afterGroups_index s pos (by omega), hg]
      simp only [Config.varintLastMax]
      omega
    rw [step_afterGroups hr hb hv hn hlt, decodePreamble_eq, if_neg (by omega), exec_vlast_ends hends,
      takeGroup_afterGroups hn]
    rfl

end

/-! ### Reading back what was encoded -/

/-- Memory read by `rd` holds the bytes at `pos`. -/
def HoldsAt (rd : Nat → Byte) (pos : Nat) (bs : List Byte) : Prop := bytesFrom rd pos bs.length = bs

theorem HoldsAt.get {rd : Nat → Byte} {pos : Nat} {bs : List Byte} (h : HoldsAt rd pos bs) (j : Nat)
    (hj : j < bs.length) : rd (pos + j) = bs[j] := by
  rw [← bytesFrom_getElem rd pos bs.length j (by simpa using hj)]
  congr 1

theorem holdsAt_iff {rd : Nat → Byte} {pos : Nat} {bs : List Byte} :
    HoldsAt rd pos bs ↔ ∀ j (h : j < bs.length), rd (pos + j) = bs[j] := by
  refine ⟨HoldsAt.get, fun h => List.ext_getElem (by simp) fun j hj hj' => ?_⟩
  rw [bytesFrom_getElem]
  exact h j hj'

theorem holdsAt_append {rd : Nat → Byte} {pos : Nat} {as bs : List Byte} :
    HoldsAt rd pos (as ++ bs) ↔ HoldsAt rd pos as ∧ HoldsAt rd (pos + as.length) bs := by
  unfold HoldsAt
  rw [List.length_append, bytesFrom_add, List.append_eq_append_iff_of_size_eq_left (bytesFrom_length _ _ _)]

/-- The groups of bytes and of the memory they are read from make one number. -/
theorem groupsValue_bytesFrom (rd : Nat → Byte) (pos k : Nat) :
    groupsValue (bytesFrom rd pos k) = varintValue rd pos k := by
  unfold groupsValue varintValue
  congr 1
  exact List.ext_getElem (by simp) fun j hj hj' => by simp [bytesFrom]

/-- Where the encoding of a value stands, it decodes to it (40_varint.md R118). -/
theorem varintDecode_of_holdsAt {rd : Nat → Byte} {pos endPos v : Nat} (hv : v < 2 ^ 32)
    (he : pos + (varintEncode v).length ≤ endPos) (h : HoldsAt rd pos (varintEncode v)) :
    varintDecode rd pos endPos = .ok (v, (varintEncode v).length) := by
  obtain ⟨hl, hu⟩ := varintBytes_length 4 v
  refine (varintDecodeAcceptsExactlyTheVarints rd pos endPos v _).2 ⟨hl, hu, he, fun j hj => ?_, ?_, hv⟩
  · have hbit : (varintEncode v)[j].toNat / 128 = if j + 1 = (varintEncode v).length then 0 else 1 :=
      varintBytes_bit7 4 v j hj
    rw [h.get j hj]
    split at hbit <;> omega
  · have hvalue : groupsValue (varintEncode v) = v := groupsValue_varintBytes 4 v (by omega)
    rw [← h, groupsValue_bytesFrom] at hvalue
    exact hvalue.symm

end Sys2Proof.Machine
end

section
/-! The round trip: `UNCOMPRESS` walks over what `COMPRESS` pushed and rebuilds its input (43_lz_encoder.md R194). -/

namespace Sys2Proof.Machine

/-! ### Fetching an encoded tag -/

theorem encodedLength_tag : ∀ {i : Instr}, contextOf i = .tag → Laws.EncodedLength.Statement i
  | .lit m, _ => Laws.EncodedLength.lit m
  | .lit1 m, _ => Laws.EncodedLength.lit1 m
  | .lit2 m, _ => Laws.EncodedLength.lit2 m
  | .lit3 m, _ => Laws.EncodedLength.lit3 m
  | .lit4 m, _ => Laws.EncodedLength.lit4 m
  | .copy1 l offset, _ => Laws.EncodedLength.copy1 l offset
  | .copy2 l offset, _ => Laws.EncodedLength.copy2 l offset
  | .copy4 l offset, _ => Laws.EncodedLength.copy4 l offset

/-- Where the encoding of a tag stands before the end, the parser finds it. -/
theorem fetchTag_encode {s : State} {pc endPos : Nat} {i : Instr} (hw : WellFormed i) (hc : contextOf i = .tag)
    (h : HoldsAt (cellGet s.frame) pc (encode i)) (he : pc + (encode i).length ≤ endPos) :
    fetchTag s pc endPos = .ok (.instr i) := by
  obtain ⟨T, rest, hT, -, hlen⟩ := encodedLength_tag hc hw
  rw [if_pos hc] at hlen
  have hbyte : cellGet s.frame pc = T := by simpa [hT] using h.get 0 (by simp [hT])
  obtain ⟨j, hj, -, hfetch⟩ := (fetchTag_eq s pc endPos).2.2 (by rwa [hbyte, ← hlen])
  have hi : decodeTag (encode i) = .ok (i, []) := by simpa using decodeTag_encode hw hc []
  rw [hbyte, ← hlen, cellRange_eq, h, hi] at hj
  obtain rfl : i = j := by simpa using hj
  exact hfetch

/-! ### The walk rebuilds the input -/

/-- An `UNCOMPRESS` between two tags, at `pc`, with `n` declared and the first `p` bytes of `rd` in `OUT`. -/
structure InTags (rd : Nat → Byte) (n pc p : Nat) (s : State) : Prop where
  rst : s.rst = false
  busy : busy s = true
  op : s.cmd.op = 10#4
  state : s.dp.state = .expectingTag
  pc : s.dp.pc = pc
  declared : s.dp.declared.toNat = n
  cap : n ≤ s.params.maxOutputLen.toNat
  produced : s.dp.produced.toNat = p
  out : ∀ j, j < p → cellGet s.out j = rd j

/-- Wherever the bytes stand before the frame end, the walk over them takes the output from the first `p` bytes of `rd`
to the first `p'`. -/
def Rebuilds (rd : Nat → Byte) (n : Nat) (bs : List Byte) (p p' : Nat) : Prop :=
  ∀ pc s, InTags rd n pc p s → HoldsAt (cellGet s.frame) pc bs → pc + bs.length ≤ s.dp.endPos →
    ∃ s', InTags rd n (pc + bs.length) p' s' ∧ s'.frame = s.frame ∧ s'.dp.endPos = s.dp.endPos ∧
      ∀ t, Completes s' t → Completes s t

section
variable {rd : Nat → Byte} {n : Nat}

theorem Rebuilds.nil (p : Nat) : Rebuilds rd n [] p p := fun _ s h _ _ => ⟨s, h, rfl, rfl, fun _ => id⟩

theorem Rebuilds.append {as bs : List Byte} {p p' p'' : Nat} (h : Rebuilds rd n as p p')
    (h' : Rebuilds rd n bs p' p'') : Rebuilds rd n (as ++ bs) p p'' := by
  intro pc s hs hh he
  rw [List.length_append] at he ⊢
  obtain ⟨ha, hb⟩ := holdsAt_append.1 hh
  obtain ⟨s', hs', hf', he', hc'⟩ := h pc s hs ha (by omega)
  obtain ⟨s'', hs'', hf'', he'', hc''⟩ := h' _ s' hs' (by rwa [hf']) (by omega)
  exact ⟨s'', by rwa [← Nat.add_assoc], hf''.trans hf', he''.trans he', fun t ht => hc' t (hc'' t ht)⟩

section
variable {pc p : Nat} {s : State} (h : InTags rd n pc p s)
include h

theorem InTags.activeUnit : activeUnit s = .dp := if_neg (by rw [h.op]; decide)

theorem InTags.outLimit : outLimit s = n := by
  unfold Machine.outLimit
  rw [h.declared, Nat.min_eq_left h.cap]

theorem InTags.step : step s = stepTag .dp s :=
  step_tagging h.rst h.busy (tagging_of (.inl ⟨h.op, rfl⟩) h.state).1

theorem InTags.step_tag {i : Instr} {f : TagFields} (hf : tagFields i = some f) (hw : WellFormed i)
    (hh : HoldsAt (cellGet s.frame) pc (encode i)) (he : pc + (encode i).length ≤ s.dp.endPos) :
    Machine.step s = if f.kind = 0 then literalTag f s else copyTag f s := by
  have hc : contextOf i = .tag := (tagFields_some_iff i).1 ⟨f, hf⟩
  have hpos : 1 ≤ (encode i).length := by
    obtain ⟨_, _, hT, -⟩ := encodedLength_tag hc hw
    simp [hT]
  have hfetch : fetchTag s (walkRegs .dp s).pc (walkRegs .dp s).endPos = .ok (.instr i) := by
    rw [walkRegs_dp, h.pc]
    exact fetchTag_encode hw hc hh he
  rw [h.step, stepTag, if_pos (by rw [walkRegs_dp, h.pc]; omega), hfetch]
  exact exec_tag hf s

/-- After a tag that moved the next `len` bytes. -/
theorem InTags.advance {f : TagFields} {len pc' : Nat} {out : List Host.Cell} (hn : p + len ≤ n)
    (hout : ∀ j, j < p + len → cellGet out j = rd j) :
    InTags rd n pc' (p + len) (advance .dp len pc' { noteTag f s with out := out }) := by
  have hp : (BitVec.ofNat 32 (s.dp.produced.toNat + len)).toNat = p + len := by
    have := s.dp.declared.isLt
    rw [h.declared] at this
    rw [h.produced, toNat_ofNat_of_lt (by omega)]
  exact ⟨h.rst, h.busy, h.op, h.state, rfl, h.declared, h.cap, hp, hout⟩

end

/-- A literal appends its payload. -/
theorem rebuilds_literal {p len : Nat} (h1 : 1 ≤ len) (hn : p + len ≤ n) (h32 : len < 2 ^ 32) :
    Rebuilds rd n (literalHeader len ++ bytesFrom rd p len) p (p + len) := by
  intro pc s hs hh he
  rw [List.length_append, bytesFrom_length] at he ⊢
  obtain ⟨i, hi, hw, -, hf⟩ := literalHeader_encode len h1 h32
  obtain ⟨hhead, hpayload⟩ := holdsAt_append.1 hh
  have hstep := hs.step_tag hf hw (hi ▸ hhead) (by rw [← hi]; omega)
  have htag := literalTag_dp (f := ⟨0, len, 0, (literalHeader len).length⟩) hs.activeUnit
    (by rw [hs.pc]; simp only; omega) (by rw [hs.produced, hs.outLimit]; exact hn)
  rw [if_pos rfl, htag, hs.pc, hs.produced] at hstep
  refine ⟨_, ?_, ?_, ?_, fun t => .step hs.busy hstep⟩
  · rw [Nat.add_assoc pc]
    refine hs.advance hn fun j hj => ?_
    rw [cellGet_setRange]
    simp only [cellRange_length]
    split
    case isTrue hj' =>
      rw [cellRange_getElem, hpayload.get (j - p) (by rw [bytesFrom_length]; exact hj'.2), bytesFrom_getElem]
      congr 1
      omega
    case isFalse => exact hs.out j (by omega)
  · simp
  · rfl

/-- One copy is a copy tag with its length, its offset and a header that is all of its bytes. -/
theorem oneCopyBytes_tag {offset len : Nat} (h32 : offset < 2 ^ 32) (h4 : 4 ≤ len) (h64 : len ≤ 64) :
    ∃ i kind, oneCopyBytes offset len = encode i ∧ WellFormed i ∧ kind ≠ 0 ∧
      tagFields i = some ⟨kind, len, offset, (oneCopyBytes offset len).length⟩ := by
  obtain ⟨i, hi, hw, -, hf⟩ := oneCopyBytes_encode offset len h32 h4 h64
  by_cases h1 : len ≤ 11 ∧ offset < 2048
  · exact ⟨i, 1, hi, hw, by decide, by simp [hf, oneCopyBytes, h1, h4]⟩
  by_cases h2 : offset < 65536
  · exact ⟨i, 2, hi, hw, by decide, by simp [hf, oneCopyBytes, h1, h2]⟩
  · exact ⟨i, 3, hi, hw, by decide, by simp [hf, oneCopyBytes, h1, h2]⟩

/-- Memory that agrees with `rd` below `p`, and from there on repeats what stands `offset` back as `rd` does, agrees
with `rd`. -/
theorem agrees_of_repeats {out : List Host.Cell} {p offset len : Nat} (ho : 1 ≤ offset) (hop : offset ≤ p)
    (hbelow : ∀ j, j < p → cellGet out j = rd j)
    (hout : ∀ j, j < len → cellGet out (p + j) = cellGet out (p - offset + j))
    (hrd : ∀ j, j < len → rd (p + j) = rd (p - offset + j)) :
    ∀ j, j < p + len → cellGet out j = rd j := by
  intro j
  induction j using Nat.strong_induction_on with
  | _ j ih =>
    intro hj
    rcases Nat.lt_or_ge j p with hlt | hge
    · exact hbelow j hlt
    · obtain ⟨i, rfl⟩ := Nat.exists_eq_add_of_le hge
      rw [hout i (by omega), ih _ (by omega) (by omega), hrd i (by omega)]

/-- One copy tag appends what stands `offset` back. -/
theorem rebuilds_oneCopy {p offset len : Nat} (ho : 1 ≤ offset) (hop : offset ≤ p) (h32 : offset < 2 ^ 32)
    (h4 : 4 ≤ len) (h64 : len ≤ 64) (hn : p + len ≤ n) (hsame : ∀ j, j < len → rd (p + j) = rd (p - offset + j)) :
    Rebuilds rd n (oneCopyBytes offset len) p (p + len) := by
  intro pc s hs hh he
  obtain ⟨i, kind, hi, hw, hkind, hf⟩ := oneCopyBytes_tag h32 h4 h64
  have hstep := hs.step_tag hf hw (hi ▸ hh) (hi ▸ he)
  obtain ⟨out, hcopy, htag⟩ := copyTag_dp (f := ⟨kind, len, offset, (oneCopyBytes offset len).length⟩) hs.activeUnit
    (by rw [hs.pc]; exact he) ho (by rw [hs.produced]; exact hop) (by rw [hs.produced, hs.outLimit]; exact hn)
  obtain ⟨out', hcopy', hkept, hrepeat⟩ := copyForward_ok (outLimit s) len (s.dp.produced.toNat - offset)
    s.dp.produced.toNat s.out (by rw [hs.produced]; omega) (by rw [hs.produced, hs.outLimit]; exact hn)
  obtain rfl : out = out' := by simpa using hcopy.symm.trans hcopy'
  rw [if_neg hkind, htag, hs.pc] at hstep
  rw [hs.produced] at hkept hrepeat
  have hbelow : ∀ j, j < p → cellGet out j = rd j := fun j hj => (hkept j (.inl hj)).trans (hs.out j hj)
  exact ⟨_, hs.advance hn (agrees_of_repeats ho hop hbelow hrepeat hsame), by simp, rfl,
    fun t => .step hs.busy hstep⟩

/-- The pieces of a copy append one after the other. -/
theorem rebuilds_pieces {p offset : Nat} (ho : 1 ≤ offset) (hop : offset ≤ p) (h32 : offset < 2 ^ 32) (lens : List Nat)
    (hlens : ∀ len ∈ lens, 4 ≤ len ∧ len ≤ 64) (hn : p + lens.sum ≤ n)
    (hsame : ∀ j, j < lens.sum → rd (p + j) = rd (p - offset + j)) :
    Rebuilds rd n (lens.flatMap (oneCopyBytes offset)) p (p + lens.sum) := by
  induction lens generalizing p with
  | nil => exact .nil p
  | cons len lens ih =>
    obtain ⟨h4, h64⟩ := hlens len List.mem_cons_self
    rw [List.sum_cons] at hn hsame ⊢
    have hfirst := rebuilds_oneCopy (n := n) ho hop h32 h4 h64 (by omega) fun j hj => hsame j (by omega)
    have hsame' : ∀ j, j < lens.sum → rd (p + len + j) = rd (p + len - offset + j) := fun j hj => by
      have := hsame (len + j) (by omega)
      rwa [← Nat.add_assoc, show p - offset + (len + j) = p + len - offset + j by omega] at this
    have hrest := ih (p := p + len) (by omega) (fun l hl => hlens l (List.mem_cons_of_mem len hl)) (by omega) hsame'
    rw [List.flatMap_cons, ← Nat.add_assoc]
    exact hfirst.append hrest

theorem rebuilds_copy {p offset len : Nat} (ho : 1 ≤ offset) (hop : offset ≤ p) (h32 : offset < 2 ^ 32) (h4 : 4 ≤ len)
    (hn : p + len ≤ n) (hsame : ∀ j, j < len → rd (p + j) = rd (p - offset + j)) :
    Rebuilds rd n (copyBytes offset len) p (p + len) := by
  obtain ⟨q, r, tail, hpieces, htail, hsum⟩ := copyPieces_spec (len / 64) len h4 le_rfl
  have hpsum : (List.replicate q 64 ++ tail).sum = len := by
    rw [List.sum_append, List.sum_replicate, smul_eq_mul, Nat.mul_comm, hsum]
  have hlens : ∀ l ∈ List.replicate q 64 ++ tail, 4 ≤ l ∧ l ≤ 64 := by
    intro l hl
    rcases List.mem_append.1 hl with hl | hl
    · rw [List.eq_of_mem_replicate hl]
      decide
    · rcases htail with ⟨rfl, h⟩ | ⟨rfl, h⟩ <;>
        simp only [List.mem_cons, List.not_mem_nil, or_false] at hl <;> omega
  have hpiecewise := rebuilds_pieces (n := n) ho hop h32 _ hlens (by rwa [hpsum]) (by rwa [hpsum])
  rwa [hpsum, ← hpieces] at hpiecewise

/-- A pending literal run appends its bytes, and nothing where there is none. -/
theorem rebuilds_pendingLiteral {base p ip : Nat} (hp : p ≤ ip) (hn : base + ip ≤ n) (h32 : n < 2 ^ 32) :
    Rebuilds rd n ((pendingLiteral p ip).flatMap (eventBytes rd base)) (base + p) (base + ip) := by
  unfold pendingLiteral
  split
  case isTrue hlt =>
    have h := rebuilds_literal (rd := rd) (n := n) (p := base + p) (len := ip - p) (by omega) (by omega) (by omega)
    rw [show base + p + (ip - p) = base + ip by omega] at h
    simpa [eventBytes] using h
  case isFalse hge =>
    obtain rfl : p = ip := by omega
    exact .nil _

theorem Covers.rebuilds {base len p : Nat} {es : List Event} (h : Covers rd base len es p) (hn : base + len ≤ n)
    (h32 : n < 2 ^ 32) : Rebuilds rd n (es.flatMap (eventBytes rd base)) base (base + p) := by
  induction h with
  | start => exact .nil base
  | @round es p ip offset l _ hp hm ih =>
    obtain ⟨-, -, long, inside, offset_pos, offset_le, same⟩ := hm
    have hcopy : Rebuilds rd n (copyBytes offset l) (base + ip) (base + ip + l) :=
      rebuilds_copy offset_pos (by omega) (by omega) long (by omega) same
    rw [List.flatMap_append, List.flatMap_append, List.flatMap_singleton, ← Nat.add_assoc]
    exact (ih.append (rebuilds_pendingLiteral hp (by omega) h32)).append hcopy

theorem FrameTags.rebuilds {base : Nat} {bs : List Byte} (h : FrameTags rd n base bs) (h32 : n < 2 ^ 32) :
    Rebuilds rd n bs base n := by
  induction h with
  | done => exact .nil n
  | @fragment base _ bs hb hc _ ih =>
    obtain ⟨es, p, rfl, hrounds⟩ := hc
    have hp := hrounds.le
    rw [List.flatMap_append]
    exact ((hrounds.rebuilds (by omega) h32).append (rebuilds_pendingLiteral hp (by omega) h32)).append ih

end

/-! ### From the start of the command to its end -/

theorem busy_completeNormal (r0 r1 r2 r3 : Nat) (s : State) : busy (completeNormal r0 r1 r2 r3 s) = false := by
  simp [busy, statusDone]

/-- At the frame end, with all of it rebuilt, the command completes with the declared length (44_lz_decoder.md R224). -/
theorem InTags.completes {rd : Nat → Byte} {n pc : Nat} {s : State} (h : InTags rd n pc n s) (he : s.dp.endPos ≤ pc) :
    ∃ t, Completes s t ∧ t.rsp = ⟨statusDone, 0, n, 0, 0, 0⟩ ∧ t.out = s.out := by
  have hpd : s.dp.produced = s.dp.declared := BitVec.eq_of_toNat_eq (h.produced.trans h.declared.symm)
  have hstep : Machine.step s =
      .next (completeNormal s.dp.declared.toNat 0 0 0 (setWalk .dp { s.dp with state := .done } s)) := by
    rw [h.step, stepTag, if_neg (by rw [walkRegs_dp, h.pc]; omega), endOfFrame, walkRegs_dp, if_pos hpd]
  refine ⟨_, .step h.busy hstep (.here (busy_completeNormal ..)), ?_, rfl⟩
  rw [completeNormal_rsp, toPos_word, h.declared]
  simp

/-- The state in which `UNCOMPRESS` has started, before its first preamble byte (44_lz_decoder.md R224, R211). -/
def uncompressStart (s : State) : State := startWalk .dp s.cmd.a0 (beginCommand 10#4 s)

theorem exec_uncompress (s : State) : exec .uncompress s = .next (uncompressStart s) := rfl

theorem busy_uncompressStart (s : State) : busy (uncompressStart s) = true := by
  simp [uncompressStart, busy, statusBusy]

@[simp] theorem uncompressStart_params (s : State) : (uncompressStart s).params = s.params := rfl

section
variable {s : State} {n k : Nat} (hr : s.rst = false)
  (hd : varintDecode (cellGet s.frame) 0 s.cmd.a0 = .ok (n, k))
include hr hd

/-- A preamble that decodes executes to its end, where the cap is tested. -/
theorem uncompress_completes_of_preamble {t : State}
    (h : Completes (preambleDone .dp { uncompressStart s with
      vd := ⟨BitVec.ofNat 32 n, BitVec.ofNat 3 k⟩ }) t) :
    Completes (uncompressStart s) t :=
  completes_of_varintDecode (s := uncompressStart s) hr (busy_uncompressStart s) rfl hd h

/-- Where the cap admits the length, the command goes on to the tags, with nothing produced (44_lz_decoder.md R211). -/
theorem uncompress_reaches_tags {rd : Nat → Byte} (hcap : n ≤ s.params.maxOutputLen.toNat) :
    ∃ t, InTags rd n k 0 t ∧ t.frame = s.frame ∧ t.dp.endPos = s.cmd.a0 ∧
      ∀ u, Completes t u → Completes (uncompressStart s) u := by
  obtain ⟨-, hk, -, -, -, hn⟩ := (varintDecodeAcceptsExactlyTheVarints ..).1 hd
  have hval : (BitVec.ofNat 32 n).toNat = n := toNat_ofNat_of_lt hn
  have hpc : (BitVec.ofNat 3 k).toNat = k := toNat_ofNat_of_lt (by omega)
  refine ⟨_, ?_, ?_, ?_, fun u hu => uncompress_completes_of_preamble hr hd hu⟩
  all_goals rw [preambleDone, if_neg (by simp only [uncompressStart_params, hval]; omega)]
  · exact ⟨hr, busy_uncompressStart s, rfl, rfl, hpc, hval, hcap, rfl, fun j hj => absurd hj (Nat.not_lt_zero j)⟩
  · rfl
  · rfl

/-- Where the cap does not, it completes with `LENGTH_CAP` and `OUT` untouched (44_lz_decoder.md R211). -/
theorem uncompress_completes_lengthCap (hcap : s.params.maxOutputLen.toNat < n) :
    ∃ t, Completes (uncompressStart s) t ∧
      t.rsp = ⟨statusMalformed, causeCode .lengthCap, 0, 0, 0, 0⟩ ∧ SameBytes s.out t.out := by
  obtain ⟨-, -, -, -, -, hn⟩ := (varintDecodeAcceptsExactlyTheVarints ..).1 hd
  have hval : (BitVec.ofNat 32 n).toNat = n := toNat_ofNat_of_lt hn
  have hraised := raised_raiseMalformed .lengthCap { uncompressStart s with
    vd := ⟨BitVec.ofNat 32 n, BitVec.ofNat 3 k⟩ }
  refine ⟨_, uncompress_completes_of_preamble hr hd ?_, hraised.rsp, hraised.out⟩
  rw [preambleDone, if_pos (by simpa only [uncompressStart_params, hval] using hcap)]
  exact .here hraised.not_busy

end

/-- Settles O39: the preamble decodes to `n`, which fails the cap or hands on to the tags; these rebuild the input. -/
theorem uncompressInvertsCompress : Obligations.UncompressInvertsCompress := by
  intro s t u bs hn hexec hsink hr ha0 hframe
  obtain ⟨t', tags, hexec', hsink', -, htags⟩ := compress_pushes hn
  obtain rfl : t' = t := by simpa using hexec'.symm.trans hexec
  obtain rfl : varintEncode s.cmd.a0 ++ tags = bs := List.append_cancel_left (hsink'.symm.trans hsink)
  have hholds : HoldsAt (cellGet u.frame) 0 (varintEncode s.cmd.a0 ++ tags) :=
    holdsAt_iff.2 fun j hj => by rw [Nat.zero_add, hframe j hj]
  obtain ⟨hvarint, hrest⟩ := holdsAt_append.1 hholds
  rw [List.length_append] at ha0
  have hd := varintDecode_of_holdsAt (endPos := u.cmd.a0) hn (by omega) hvarint
  rcases Nat.lt_or_ge u.params.maxOutputLen.toNat s.cmd.a0 with hcap | hcap
  · obtain ⟨v, hv, hrsp, hout⟩ := uncompress_completes_lengthCap hr hd hcap
    exact ⟨_, v, exec_uncompress u, hv, fun h => absurd h (by omega), fun _ => ⟨hrsp, hout⟩⟩
  · obtain ⟨w, hw, hframe', hend, hstart⟩ := uncompress_reaches_tags (rd := cellGet s.inMem) hr hd hcap
    rw [Nat.zero_add, ← hframe'] at hrest
    obtain ⟨w', hw', -, hend', hwalk⟩ := htags.rebuilds hn _ w hw hrest (by omega)
    obtain ⟨v, hv, hrsp, hout⟩ := hw'.completes (by omega)
    exact ⟨_, v, exec_uncompress u, hstart v (hwalk v hv), fun _ => ⟨hrsp, fun j hj => by rw [hout, hw'.out j hj]⟩,
      fun h => absurd h (by omega)⟩

end Sys2Proof.Machine
end

section
/-! A varint of the program that does not decode raises its cause (40_varint.md R111, R113). -/

namespace Sys2Proof.Machine

/-- A varint that does not decode executes up to the byte that raises its cause. -/
theorem completes_of_varintDecode_error {s : State} {pos endPos : Nat} {c : Cause} (hr : s.rst = false)
    (hb : busy s = true) (hv : varintRange s = some (pos, endPos))
    (hd : varintDecode (cellGet s.frame) pos endPos = .error c) :
    ∃ k, Completes (startVarint s) (raiseMalformed c (afterGroups pos k s)) := by
  have raises {k : Nat} (hk : k ≤ 4) (hc : ContinuesFor (cellGet s.frame) pos endPos k)
      (hstep : step (afterGroups pos k s) = .next (raiseMalformed c (afterGroups pos k s))) :
      ∃ k, Completes (startVarint s) (raiseMalformed c (afterGroups pos k s)) :=
    ⟨k, completes_of_continues hr hb hv hk hc (.step hb hstep (.here (raised_raiseMalformed ..).not_busy))⟩
  have fifth : 4 ≤ (afterGroups pos 4 s).vd.i.toNat := (afterGroups_index s pos (by decide)).ge
  obtain ⟨k, hk, hc, hend, he⟩ | ⟨hc, he⟩ | ⟨hc, hlt, hbyte, hbig, he⟩ | ⟨_, -, -, -, -, -, he⟩ :=
    varintDecode_cases (cellGet s.frame) pos endPos
  · cases he.symm.trans hd
    refine raises (by omega) hc ?_
    rw [step_varint (s := afterGroups pos k s) hr hb hv, afterGroups_index s pos (by omega), if_pos hend]
  · cases he.symm.trans hd
    obtain ⟨hlt, hbyte⟩ := hc 4 (by decide)
    refine raises le_rfl (fun j hj => hc j (by omega)) ?_
    rw [step_afterGroups hr hb hv (by decide) hlt, decodePreamble_eq, if_pos hbyte, exec_vcont_fifth _ fifth]
  · cases he.symm.trans hd
    have hg : ((cellGet s.frame (pos + 4)).extractLsb' 0 7).toNat = (cellGet s.frame (pos + 4)).toNat % 128 := by simp
    refine raises le_rfl hc ?_
    rw [step_afterGroups hr hb hv (by decide) hlt, decodePreamble_eq, if_neg (by omega),
      exec_vlast_overflow ⟨fifth, by rw [hg]; simp only [Config.varintLastMax]; omega⟩]
  · cases he.symm.trans hd

end Sys2Proof.Machine
end

section
/-! The walk of either unit completes as `Walk` says (44_lz_decoder.md R210 to R212, 45_frame_validator.md R251). -/

namespace Sys2Proof.Machine

/-! ### The tag at the cursor -/

/-- The header bytes a tag counts are those its first byte announces (30_encoding.md R89). -/
theorem hdr_of_decodeTag {T : Byte} {r rest : List Byte} {i : Instr} {f : TagFields}
    (h : decodeTag (T :: r) = .ok (i, rest)) (hf : tagFields i = some f) : f.hdr = headerLen T := by
  have hT := T.isLt
  rw [decodeTag_eq] at h
  rw [headerLen_eq]
  simp only [decodeCopy1, decodeCopy2, decodeCopy4, decodeLit1, decodeLit2, decodeLit3, decodeLit4] at h
  repeat' split at h
  -- of the eight forms, each with its header bytes or without, those without are no tag
  all_goals cases h
  all_goals
    cases hf
    simp only [copy1Fields, copy2Fields, copy4Fields, literalFields]
    split_ifs
    omega

/-- What `TagParse` finds, the machine fetches (41_tag_codec.md R140). -/
theorem fetchTag_of_parseTag (s : State) (pc endPos : Nat) :
    (parseTag (cellGet s.frame) pc endPos = none ∧ ∃ T, fetchTag s pc endPos = .ok (.truncated T)) ∨
      ∃ i f, parseTag (cellGet s.frame) pc endPos = some f ∧ fetchTag s pc endPos = .ok (.instr i) ∧
        tagFields i = some f ∧ pc + f.hdr ≤ endPos := by
  obtain ⟨hnone, hcut, hinstr⟩ := fetchTag_eq s pc endPos
  by_cases h : endPos ≤ pc ∨ endPos < pc + headerLen (cellGet s.frame pc)
  · refine .inl ⟨if_pos h, ?_⟩
    rcases Nat.lt_or_ge pc endPos with hlt | hge
    · exact ⟨_, hcut hlt (by omega)⟩
    · exact ⟨_, hnone hge⟩
  · obtain ⟨i, hi, hc, hfetch⟩ := hinstr (by omega)
    obtain ⟨f, hf⟩ := (tagFields_some_iff i).2 hc
    rw [cellRange_eq] at hi
    have hparse : parseTag (cellGet s.frame) pc endPos = some f := by rw [parseTag, if_neg h, hi]; exact hf
    have hhdr : f.hdr = headerLen (cellGet s.frame pc) := by
      rw [← Nat.sub_add_cancel (headerLen_pos _), bytesFrom_succ] at hi
      exact hdr_of_decodeTag hi hf
    exact .inr ⟨i, f, hparse, hfetch, hf, by omega⟩

/-! ### The checks of a tag -/

/-- The check that a tag with its whole header inside the frame fails, if any (44_lz_decoder.md R212). -/
def tagCause (f : TagFields) (w : WalkRegs) : Option Cause :=
  if f.kind = 0 then
    if w.endPos < w.pc + f.hdr + f.len then some .literalTruncated
    else if w.declared.toNat < w.produced.toNat + f.len then some .literalOverflow
    else none
  else if f.off = 0 then some .copyOffsetZero
  else if w.produced.toNat < f.off then some .copyOffsetTooFar
  else if w.declared.toNat < w.produced.toNat + f.len then some .copyOverflow
  else none

theorem produced_le_of_tagCause {f : TagFields} {w : WalkRegs} (h : tagCause f w = none) :
    w.produced.toNat + f.len ≤ w.declared.toNat := by
  unfold tagCause at h
  split_ifs at h <;> omega

/-- `Walk` makes the same checks: a tag that fails one ends it, any other appends its length. -/
theorem walkTags_tag {rd : Nat → Byte} {f : TagFields} {w : WalkRegs} {out : List Byte} (fuel : Nat)
    (hpc : w.pc < w.endPos) (hf : parseTag rd w.pc w.endPos = some f) (hout : out.length = w.produced.toNat) :
    match tagCause f w with
    | some c => walkTags rd w.endPos w.declared.toNat (fuel + 1) w.pc out = .error c
    | none => ∃ out', out'.length = out.length + f.len ∧
        walkTags rd w.endPos w.declared.toNat (fuel + 1) w.pc out =
          walkTags rd w.endPos w.declared.toNat fuel (pcAfter f w) out' := by
  simp only [walkTags, if_pos hpc, hf, tagCause, pcAfter, hout]
  by_cases hk : f.kind = 0
  · simp only [if_pos hk]
    split_ifs
    · rfl
    · rfl
    · exact ⟨_, by simp [hout], rfl⟩
  · simp only [if_neg hk]
    split_ifs
    · rfl
    · rfl
    · rfl
    · exact ⟨_, by simp [repeatCopy_length, hout], rfl⟩

/-- The machine makes the same checks, whichever unit walks: a tag that fails one raises its cause, any other advances
the unit. -/
theorem exec_tag_of_tagCause {i : Instr} {f : TagFields} {s : State} {u : WalkUnit} (hf : tagFields i = some f)
    (hu : activeUnit s = u) (hcap : (walkRegs u s).declared.toNat ≤ s.params.maxOutputLen.toNat)
    (hhdr : (walkRegs u s).pc + f.hdr ≤ (walkRegs u s).endPos) :
    ∃ t, exec i s = .next t ∧
      match tagCause f (walkRegs u s) with
      | some c => Raised c s t
      | none => ∃ out, t = advance u f.len (pcAfter f (walkRegs u s)) { noteTag f s with out := out } := by
  subst hu
  obtain ⟨t, ht⟩ := tag_answers (s := s) hf fun hdp => by rwa [hdp] at hcap
  refine ⟨t, ht, ?_⟩
  have hcut : headerCut f.hdr s = false := by simpa [headerCut] using hhdr
  rw [exec_tag hf] at ht
  by_cases hk : f.kind = 0
  · simp only [if_pos hk, literalTag, hcut, Bool.false_eq_true, if_false, literalBody,
      activeUnit_noteTag, walkRegs_noteTag] at ht
    simp only [tagCause, if_pos hk, pcAfter]
    split_ifs at ht ⊢
    · cases ht; exact raised_noteTag ..
    · cases ht; exact raised_noteTag ..
    · split at ht <;> cases ht
      next hm =>
      obtain ⟨out, rfl, -⟩ := moveLiteral_next hm
      exact ⟨out, rfl⟩
  · simp only [if_neg hk, copyTag, hcut, Bool.false_eq_true, if_false, copyBody,
      activeUnit_noteTag, walkRegs_noteTag] at ht
    simp only [tagCause, if_neg hk, pcAfter]
    split_ifs at ht ⊢
    · cases ht; exact raised_noteTag ..
    · cases ht; exact raised_noteTag ..
    · cases ht; exact raised_noteTag ..
    · split at ht <;> cases ht
      next hm =>
      obtain ⟨out, rfl, -⟩ := moveCopy_next hm
      exact ⟨out, rfl⟩

/-- An advance counts the bytes and moves the cursor. -/
theorem walkRegs_advance (u : WalkUnit) (len pc : Nat) (f : TagFields) (out : List Host.Cell) (s : State) :
    walkRegs u (advance u len pc { noteTag f s with out := out }) =
      { walkRegs u s with produced := BitVec.ofNat _ ((walkRegs u s).produced.toNat + len), pc := pc } := by
  cases u <;> rfl

/-! ### The tag loop -/

/-- The op code under which a unit walks (44_lz_decoder.md R210). -/
def walkOp : WalkUnit → BitVec 4
  | .dp => 10#4
  | .fv => 12#4

/-- The response that ends a walk: `UNCOMPRESS` returns the length or raises the cause (44_lz_decoder.md R224),
`IS_VALID` returns 1, or 0 with the cause (45_frame_validator.md R251). -/
def walkResponse : WalkUnit → Except Cause (List Byte) → RspRegs
  | .dp, .ok out => ⟨statusDone, 0, out.length, 0, 0, 0⟩
  | .dp, .error c => ⟨statusMalformed, causeCode c, 0, 0, 0, 0⟩
  | .fv, .ok _ => ⟨statusDone, 0, 1, 0, 0, 0⟩
  | .fv, .error c => ⟨statusDone, causeCode c, 0, 0, 0, 0⟩

/-- From `s` the command in progress completes with the response of `u` to the result `r`. -/
def EndsAs (u : WalkUnit) (s : State) (r : Except Cause (List Byte)) : Prop :=
  ∃ t, Completes s t ∧ t.rsp = walkResponse u r

theorem Raised.walkResponse {c : Cause} {s t : State} {u : WalkUnit} (h : Raised c s t) (hop : s.cmd.op = walkOp u) :
    t.rsp = walkResponse u (.error c) := by
  rw [h.rsp, hop]
  cases u <;> rfl

/-- A unit between two tags, its declared length inside the cap. -/
structure Walking (u : WalkUnit) (s : State) : Prop where
  rst : s.rst = false
  busy : busy s = true
  op : s.cmd.op = walkOp u
  state : (walkRegs u s).state = .expectingTag
  cap : (walkRegs u s).declared.toNat ≤ s.params.maxOutputLen.toNat

section
variable {u : WalkUnit} {s t : State} (h : Walking u s)
include h

theorem Walking.tagging : taggingUnit s = some u ∧ varintRange s = none ∧ activeUnit s = u := by
  refine tagging_of ?_ h.state
  have hop := h.op
  cases u
  · exact .inl ⟨hop, rfl⟩
  · exact .inr ⟨hop, rfl⟩

theorem Walking.step : step s = stepTag u s := step_tagging h.rst h.busy h.tagging.1

theorem Walking.endsAs_error {c : Cause} (hstep : Machine.step s = .next t) (hr : Raised c s t) :
    EndsAs u s (.error c) :=
  ⟨t, .step h.busy hstep (.here hr.not_busy), hr.walkResponse h.op⟩

/-- After a tag that passed its checks the unit walks on. -/
theorem Walking.advance (f : TagFields) (pc : Nat) (out : List Host.Cell) :
    Walking u (advance u f.len pc { noteTag f s with out := out }) := by
  obtain ⟨hr, hb, hop, hstate, hcap⟩ := h
  cases u <;> exact ⟨hr, hb, hop, hstate, hcap⟩

/-- A step at a tag: its header is cut, or it is executed with its checks (44_lz_decoder.md R212). -/
theorem Walking.step_tag (hpc : (walkRegs u s).pc < (walkRegs u s).endPos) :
    (parseTag (cellGet s.frame) (walkRegs u s).pc (walkRegs u s).endPos = none ∧
      ∃ t, Machine.step s = .next t ∧ Raised .tagTruncated s t) ∨
    ∃ f t, parseTag (cellGet s.frame) (walkRegs u s).pc (walkRegs u s).endPos = some f ∧ 1 ≤ f.hdr ∧
      Machine.step s = .next t ∧
      match tagCause f (walkRegs u s) with
      | some c => Raised c s t
      | none => ∃ out, t = Machine.advance u f.len (pcAfter f (walkRegs u s)) { noteTag f s with out := out } := by
  have hstep := h.step
  rw [stepTag, if_pos hpc] at hstep
  obtain ⟨hparse, T, hfetch⟩ | ⟨i, f, hparse, hfetch, hf, hhdr⟩ :=
    fetchTag_of_parseTag s (walkRegs u s).pc (walkRegs u s).endPos
  · simp only [hfetch] at hstep
    exact .inl ⟨hparse, _, hstep, raised_noteKind ..⟩
  · simp only [hfetch] at hstep
    obtain ⟨t, hexec, ht⟩ := exec_tag_of_tagCause hf h.tagging.2.2 h.cap hhdr
    obtain ⟨-, -, -, -, hpos, -⟩ := tagFields_bounds hf
    exact .inr ⟨f, t, hparse, hpos, hstep.trans hexec, ht⟩

/-- At the frame end the walk completes, if exactly the declared length was produced (44_lz_decoder.md R222). -/
theorem Walking.endsAs_frameEnd {out : List Byte} (hend : (walkRegs u s).endPos ≤ (walkRegs u s).pc)
    (hout : out.length = (walkRegs u s).produced.toNat) :
    EndsAs u s (if out.length = (walkRegs u s).declared.toNat then .ok out else .error .lengthMismatch) := by
  have hstep : Machine.step s = .next (endOfFrame u s) := by rw [h.step, stepTag, if_neg (by omega)]
  by_cases hpd : (walkRegs u s).produced = (walkRegs u s).declared
  · have hlen : out.length = (walkRegs u s).declared.toNat := by rw [hout, hpd]
    rw [if_pos hlen]
    rw [endOfFrame, if_pos hpd] at hstep
    cases u
    · exact ⟨_, .step h.busy hstep (.here (busy_completeNormal ..)), by simp [walkResponse, hlen]⟩
    · exact ⟨_, .step h.busy hstep (.here (busy_completeNormal ..)), by simp [walkResponse]⟩
  · rw [if_neg (by rw [hout]; exact fun he => hpd (BitVec.eq_of_toNat_eq he))]
    rw [endOfFrame, if_neg hpd] at hstep
    exact h.endsAs_error hstep (raised_raiseMalformed ..)

end

theorem EndsAs.step {u : WalkUnit} {s t : State} {r : Except Cause (List Byte)} (h : EndsAs u t r)
    (hb : busy s = true) (hstep : step s = .next t) : EndsAs u s r := by
  obtain ⟨v, hv, hrsp⟩ := h
  exact ⟨v, .step hb hstep hv, hrsp⟩

/-- The tag loop of either unit ends as that of `Walk` (44_lz_decoder.md R212). -/
theorem Walking.endsAs_walkTags {u : WalkUnit} (fuel : Nat) {s : State} {out : List Byte} (h : Walking u s)
    (hout : out.length = (walkRegs u s).produced.toNat) (hfuel : (walkRegs u s).endPos - (walkRegs u s).pc < fuel) :
    EndsAs u s (walkTags (cellGet s.frame) (walkRegs u s).endPos (walkRegs u s).declared.toNat fuel
      (walkRegs u s).pc out) := by
  induction fuel generalizing s out with
  | zero => omega
  | succ fuel ih =>
    rcases Nat.lt_or_ge (walkRegs u s).pc (walkRegs u s).endPos with hpc | hpc
    · obtain ⟨hparse, t, hstep, ht⟩ | ⟨f, t, hparse, hhdr, hstep, ht⟩ := h.step_tag hpc
      · simp only [walkTags, if_pos hpc, hparse]
        exact h.endsAs_error hstep ht
      · have hwalk := walkTags_tag fuel hpc hparse hout
        cases hcause : tagCause f (walkRegs u s) with
        | some c =>
          simp only [hcause] at ht hwalk
          rw [hwalk]
          exact h.endsAs_error hstep ht
        | none =>
          simp only [hcause] at ht hwalk
          obtain ⟨mem, rfl⟩ := ht
          obtain ⟨out', hout', hwalk⟩ := hwalk
          have hregs := walkRegs_advance u f.len (pcAfter f (walkRegs u s)) f mem s
          have hprod := produced_le_of_tagCause hcause
          have hnext := ih (h.advance f (pcAfter f (walkRegs u s)) mem) (out := out')
            (by rw [hregs, hout', hout, toNat_ofNat_of_lt (by omega)])
            (by rw [hregs]; simp only [pcAfter]; omega)
          rw [hregs] at hnext
          simp only [advance_frame, noteTag_frame] at hnext
          rw [hwalk]
          exact hnext.step h.busy hstep
    · simp only [walkTags, if_neg (Nat.not_lt.2 hpc)]
      exact h.endsAs_frameEnd hpc hout

/-! ### From the start of the command to its end -/

/-- The command of a walk (44_lz_decoder.md R224, 45_frame_validator.md R251). -/
def walkCommand : WalkUnit → Instr
  | .dp => .uncompress
  | .fv => .isValid

/-- The state in which it has started, before its first preamble byte. -/
def walkStart (u : WalkUnit) (s : State) : State := startWalk u s.cmd.a0 (beginCommand (walkOp u) s)

theorem exec_walkCommand (u : WalkUnit) (s : State) : exec (walkCommand u) s = .next (walkStart u s) := by
  cases u <;> rfl

theorem busy_walkStart (u : WalkUnit) (s : State) : busy (walkStart u s) = true := by
  simp [walkStart, busy, statusBusy]

theorem varintRange_walkStart (u : WalkUnit) (s : State) : varintRange (walkStart u s) = some (0, s.cmd.a0) := by
  cases u <;> rfl

@[simp] theorem walkStart_rst (u : WalkUnit) (s : State) : (walkStart u s).rst = s.rst := by simp [walkStart]
@[simp] theorem walkStart_params (u : WalkUnit) (s : State) : (walkStart u s).params = s.params := by simp [walkStart]
@[simp] theorem walkStart_frame (u : WalkUnit) (s : State) : (walkStart u s).frame = s.frame := by simp [walkStart]
@[simp] theorem walkStart_op (u : WalkUnit) (s : State) : (walkStart u s).cmd.op = walkOp u := by simp [walkStart]

/-- The preamble is decoded to `n` in `k` bytes, and the cap not yet tested (44_lz_decoder.md R211). -/
def afterPreamble (u : WalkUnit) (n k : Nat) (s : State) : State :=
  { walkStart u s with vd := ⟨BitVec.ofNat 32 n, BitVec.ofNat 3 k⟩ }

@[simp] theorem afterPreamble_vd (u : WalkUnit) (n k : Nat) (s : State) :
    (afterPreamble u n k s).vd = ⟨BitVec.ofNat 32 n, BitVec.ofNat 3 k⟩ := rfl
@[simp] theorem afterPreamble_frame (u : WalkUnit) (n k : Nat) (s : State) : (afterPreamble u n k s).frame = s.frame :=
  walkStart_frame u s

theorem walkRegs_afterPreamble (u : WalkUnit) (n k : Nat) (s : State) :
    walkRegs u (afterPreamble u n k s) =
      { walkRegs u s with state := .idle, pc := 0, endPos := s.cmd.a0, cause := 0 } := by
  cases u <;> rfl

theorem varintDone_afterPreamble (u : WalkUnit) (n k : Nat) (s : State) :
    varintDone (afterPreamble u n k s) = preambleDone u (afterPreamble u n k s) := by
  cases u <;> rfl

section
variable {s : State} {n k : Nat} (u : WalkUnit)

/-- Where the cap does not admit the length, the command ends with `LENGTH_CAP` (44_lz_decoder.md R211). -/
theorem preambleDone_endsAs_lengthCap (hn : n < 2 ^ 32) (hcap : s.params.maxOutputLen.toNat < n) :
    EndsAs u (preambleDone u (afterPreamble u n k s)) (.error .lengthCap) := by
  have hraised := raised_raiseMalformed .lengthCap (afterPreamble u n k s)
  have hval : (BitVec.ofNat 32 n).toNat = n := toNat_ofNat_of_lt hn
  rw [preambleDone, if_pos (by simpa only [afterPreamble, walkStart_params, hval] using hcap)]
  exact ⟨_, .here hraised.not_busy, hraised.walkResponse (walkStart_op u s)⟩

/-- Where it does, the tag loop starts after the preamble, with nothing produced (44_lz_decoder.md R211). -/
theorem preambleDone_endsAs_walkTags (hr : s.rst = false) (hn : n < 2 ^ 32) (hk : k ≤ 5)
    (hcap : n ≤ s.params.maxOutputLen.toNat) :
    EndsAs u (preambleDone u (afterPreamble u n k s)) (walkTags (cellGet s.frame) s.cmd.a0 n (s.cmd.a0 + 1) k []) := by
  have hval : (BitVec.ofNat 32 n).toNat = n := toNat_ofNat_of_lt hn
  have hpc : (BitVec.ofNat 3 k).toNat = k := toNat_ofNat_of_lt (by omega)
  have hdone : preambleDone u (afterPreamble u n k s) =
      setWalk u ⟨.expectingTag, k, s.cmd.a0, BitVec.ofNat 32 n, 0, 0⟩ (afterPreamble u n k s) := by
    rw [preambleDone, if_neg (by simpa only [afterPreamble, walkStart_params, hval] using Nat.not_lt.2 hcap)]
    simp only [walkRegs_afterPreamble, afterPreamble_vd, hpc]
  rw [hdone]
  have hw : Walking u (setWalk u ⟨.expectingTag, k, s.cmd.a0, BitVec.ofNat 32 n, 0, 0⟩ (afterPreamble u n k s)) := by
    constructor
    case rst => simpa [afterPreamble] using hr
    case busy => simpa [busy, afterPreamble] using busy_walkStart u s
    case op => simp [afterPreamble]
    case state => simp
    case cap => simpa [afterPreamble, hval] using hcap
  have hwalk := hw.endsAs_walkTags (s.cmd.a0 + 1) (out := []) (by simp) (by simp)
  simpa [hval] using hwalk

end

/-- Both commands of a walk end as `Walk` does (44_lz_decoder.md R224, 45_frame_validator.md R251). -/
theorem walkStart_endsAs (u : WalkUnit) {s : State} (hr : s.rst = false) :
    EndsAs u (walkStart u s) (walk (cellGet s.frame) s.cmd.a0 s.params.maxOutputLen.toNat) := by
  have hr' : (walkStart u s).rst = false := by rw [walkStart_rst, hr]
  unfold walk
  cases hd : varintDecode (cellGet s.frame) 0 s.cmd.a0 with
  | error c =>
    rw [← walkStart_frame u s] at hd
    obtain ⟨k, hk⟩ := completes_of_varintDecode_error hr' (busy_walkStart u s) (varintRange_walkStart u s) hd
    exact ⟨_, hk, (raised_raiseMalformed ..).walkResponse (walkStart_op u s)⟩
  | ok vk =>
    obtain ⟨n, k⟩ := vk
    obtain ⟨-, hk, -, -, -, hn⟩ := (varintDecodeAcceptsExactlyTheVarints ..).1 hd
    rw [← walkStart_frame u s] at hd
    have hstart {r} (h : EndsAs u (preambleDone u (afterPreamble u n k s)) r) : EndsAs u (walkStart u s) r := by
      obtain ⟨t, ht, hrsp⟩ := h
      rw [← varintDone_afterPreamble] at ht
      exact ⟨t, completes_of_varintDecode hr' (busy_walkStart u s) (varintRange_walkStart u s) hd ht, hrsp⟩
    refine hstart ?_
    dsimp only
    split_ifs with hcap
    · exact preambleDone_endsAs_lengthCap u hn hcap
    · exact preambleDone_endsAs_walkTags u hr hn hk (Nat.not_lt.1 hcap)

end Sys2Proof.Machine
end

section
/-! The validator's verdict and the decoder's are that of `Walk` (45_frame_validator.md R252). -/

namespace Sys2Proof.Machine

/-- Settles O53: both commands end as `Walk` does on the same bytes, one case for each of its two results. -/
theorem validatorAgreesWithDecoder : Obligations.ValidatorAgreesWithDecoder := by
  intro s hr
  obtain ⟨d, hd, hdrsp⟩ := walkStart_endsAs .dp hr
  obtain ⟨v, hv, hvrsp⟩ := walkStart_endsAs .fv hr
  refine ⟨_, d, _, v, exec_walkCommand .dp s, hd, exec_walkCommand .fv s, hv, ?_⟩
  simp only [err, cmdErr, hdrsp, hvrsp]
  cases walk (cellGet s.frame) s.cmd.a0 s.params.maxOutputLen.toNat with
  | ok out => simp [walkResponse, statusDone]
  | error c => simp [walkResponse, statusDone, statusMalformed]

end Sys2Proof.Machine
end

section
/-! Commands turned away: a reserved op code, or arguments the command does not take (60_exceptions.md R266). -/

namespace Sys2Proof.Machine

/-- A command checks its arguments before anything else: when they are turned away, the op code and the response are all
that changes, whatever the command does with good ones (10_state.md R24 (c)). -/
theorem badCommand_of_not_args {args : Bool} (h : ¬ args = true) (run : Result) (op : BitVec 4) (s : State) :
    (if args then run else .next (completeBadCommand (beginCommand op s))) =
      .next { s with cmd := { s.cmd with op := op }, rsp := ⟨0b1010#4, 0, 0, 0, 0, 0⟩ } :=
  if_neg h

/-- Settles O17: the reserved op codes complete so unconditionally; for each command the cause given contradicts what its
argument check asks for. -/
theorem badArgumentsAreBadCommand : Obligations.BadArgumentsAreBadCommand := by
  rintro i op s (⟨rfl, rfl⟩ | ⟨rfl, rfl⟩ | ⟨rfl, rfl⟩ | ⟨rfl, rfl⟩ | ⟨rfl, rfl, h⟩ | ⟨rfl, rfl, h⟩ | ⟨rfl, rfl, h⟩ |
    ⟨rfl, rfl, h⟩ | ⟨rfl, rfl, h⟩ | ⟨rfl, rfl, h⟩ | ⟨rfl, rfl, h⟩ | ⟨rfl, rfl, h⟩ | ⟨rfl, rfl, h⟩)
  · rfl
  · rfl
  · rfl
  · rfl
  · exact badCommand_of_not_args (mt (varintEncArgs_iff s.cmd).1 (Nat.not_lt.2 h)) _ 1#4 s
  · exact badCommand_of_not_args (mt (rangeArgs_iff s.cmd).1 (Nat.not_le.2 h)) _ 2#4 s
  · exact badCommand_of_not_args (mt (emitLitArgs_iff s.cmd).1 (by omega)) _ 3#4 s
  · exact badCommand_of_not_args (mt (emitCopyArgs_iff s.cmd).1 (by omega)) _ 4#4 s
  · exact badCommand_of_not_args (mt (rangeArgs_iff s.cmd).1 (Nat.not_le.2 h)) _ 5#4 s
  · exact badCommand_of_not_args (mt (findMatchLenArgs_iff s.cmd).1 (by omega)) _ 6#4 s
  · exact badCommand_of_not_args (mt (matchFragArgs_iff s.cmd).1 (by omega)) _ 7#4 s
  · exact badCommand_of_not_args (mt (compressArgs_iff s.cmd).1 (Nat.not_lt.2 h)) _ 8#4 s
  · exact badCommand_of_not_args (mt (maxClenArgs_iff s.cmd).1 (Nat.not_lt.2 h)) _ 9#4 s

end Sys2Proof.Machine
end

section
/-! Decoding and encoding are inverse to each other in all three contexts (30_encoding.md R82 to R91, R100). -/

namespace Sys2Proof

/-! ### From an instruction to its bytes and back -/

/-- Bit 7 of a preamble byte set apart from its value bits (30_encoding.md R82). -/
theorem decodePreamble_encode {i : Instr} (hc : contextOf i = .preamble) (rest : List Byte) :
    decode .preamble (encode i ++ rest) = .ok (i, rest) := by
  cases i <;> simp only [contextOf, reduceCtorEq] at hc
  case vcont g =>
    have hg := g.isLt
    have hb : (BitVec.ofNat 8 (0x80 + g.toNat)).toNat = 0x80 + g.toNat := toNat_ofNat_of_lt (by omega)
    have hval : (BitVec.ofNat 8 (0x80 + g.toNat)).extractLsb' 0 7 = g := by
      apply BitVec.eq_of_toNat_eq
      rw [BitVec.extractLsb'_toNat, hb, Nat.shiftRight_zero]
      omega
    simp only [encode, List.singleton_append, decode]
    rw [decodePreamble_eq, hb, hval, if_pos (by omega)]
  case vlast g =>
    have hg := g.isLt
    have hb : (BitVec.ofNat 8 g.toNat).toNat = g.toNat := toNat_ofNat_of_lt (by omega)
    have hval : (BitVec.ofNat 8 g.toNat).extractLsb' 0 7 = g := by
      apply BitVec.eq_of_toNat_eq
      rw [BitVec.extractLsb'_toNat, hb, Nat.shiftRight_zero]
      omega
    simp only [encode, List.singleton_append, decode]
    rw [decodePreamble_eq, hb, hval, if_neg (by omega)]

theorem decodeOp_encode {i : Instr} (hc : contextOf i = .command) (rest : List Byte) :
    decode .command (encode i ++ rest) = .ok (i, rest) := by
  cases i <;> simp only [contextOf, reduceCtorEq] at hc <;> rfl

/-- Settles O7: one lemma for each context. -/
theorem decodeInvertsEncode : Obligations.DecodeInvertsEncode := by
  intro i rest hw
  cases hc : contextOf i with
  | preamble => exact decodePreamble_encode hc rest
  | tag => exact decodeTag_encode hw hc rest
  | command => exact decodeOp_encode hc rest

/-! ### From bytes to an instruction and back -/

theorem encode_decodePreamble (b : Byte) :
    WellFormed (decodePreamble b) ∧ contextOf (decodePreamble b) = .preamble ∧ encode (decodePreamble b) = [b] := by
  have hb := b.isLt
  have hval : (b.extractLsb' 0 7).toNat = b.toNat % 128 := by simp
  rw [decodePreamble_eq]
  split
  · refine ⟨rfl, rfl, congrArg (· :: []) (BitVec.eq_of_toNat_eq ?_)⟩
    rw [hval, toNat_ofNat_of_lt (by omega)]
    omega
  · refine ⟨rfl, rfl, congrArg (· :: []) (BitVec.eq_of_toNat_eq ?_)⟩
    rw [hval, toNat_ofNat_of_lt (by omega)]
    omega

theorem encode_decodeOp (op : BitVec 4) :
    WellFormed (decodeOp op) ∧ contextOf (decodeOp op) = .command ∧
      encode (decodeOp op) = [BitVec.ofNat 8 op.toNat] := by
  revert op
  decide

/-- Bytes that fill a register make a number that it holds whole. -/
theorem toNat_ofNat_leNat {w : Nat} {bs : List Byte} (hw : 8 * bs.length = w) :
    (BitVec.ofNat w (leNat bs)).toNat = leNat bs := by
  have h256 : 256 ^ bs.length = 2 ^ w := by rw [← hw, pow_mul]; rfl
  exact toNat_ofNat_of_lt (h256 ▸ leNat_lt bs)

theorem leBytes_ofNat_leNat {w k : Nat} {bs : List Byte} (hk : bs.length = k) (hw : 8 * k = w) :
    leBytes k (BitVec.ofNat w (leNat bs)).toNat = bs := by
  subst hk
  rw [toNat_ofNat_leNat hw, leBytes_leNat]

/-- A tag byte is its kind below its upper six bits. -/
theorem tagByte_eq {T : Byte} {u : BitVec 6} {c : Nat} (hu : u = tagUpper T) (hc : T.toNat % 4 = c) :
    BitVec.ofNat 8 (u.toNat * 4 + c) = T := by
  apply BitVec.eq_of_toNat_eq
  rw [hu, toNat_tagByte _ (by omega), tagUpper_toNat]
  omega

theorem encode_decodeCopy1 {T : Byte} {r rest : List Byte} {i : Instr} (hT : T.toNat % 4 = 1)
    (h : decodeCopy1 T r = .ok (i, rest)) : WellFormed i ∧ contextOf i = .tag ∧ encode i ++ rest = T :: r := by
  unfold decodeCopy1 at h
  split at h
  case h_2 => cases h
  case h_1 b0 r =>
  cases h
  have hT8 := T.isLt
  have hb := b0.isLt
  have hlen : (T.extractLsb' 2 3).toNat = T.toNat / 4 % 8 := by simp [Nat.shiftRight_eq_div_pow]
  have hhigh : (T.extractLsb' 5 3).toNat = T.toNat / 32 % 8 := by simp [Nat.shiftRight_eq_div_pow]
  refine ⟨rfl, rfl, ?_⟩
  rw [encode, hlen, hhigh, toNat_ofNat_of_lt (by omega)]
  simp only [List.cons_append, List.nil_append, List.cons.injEq, and_true, ← BitVec.toNat_inj, BitVec.toNat_ofNat]
  omega

theorem encode_decodeTag {T : Byte} {r rest : List Byte} {i : Instr} (h : decodeTag (T :: r) = .ok (i, rest)) :
    WellFormed i ∧ contextOf i = .tag ∧ encode i ++ rest = T :: r := by
  have hT := T.isLt
  rw [decodeTag_eq] at h
  split_ifs at h with h1 h2 h3 h0 h60 h61 h62
  · exact encode_decodeCopy1 h1 h
  · unfold decodeCopy2 at h
    split at h <;> cases h
    refine ⟨rfl, rfl, ?_⟩
    rw [encode, tagByte_eq rfl h2, leBytes_ofNat_leNat] <;> rfl
  · unfold decodeCopy4 at h
    split at h <;> cases h
    refine ⟨rfl, rfl, ?_⟩
    rw [encode, tagByte_eq rfl h3, leBytes_ofNat_leNat] <;> rfl
  · cases h
    have hu : (tagUpper T).toNat < 60 := by rw [tagUpper_toNat]; omega
    refine ⟨decide_eq_true hu, rfl, ?_⟩
    rw [encode, ← Nat.add_zero (_ * 4), tagByte_eq rfl (by omega)]
    rfl
  · obtain rfl : T = 0xF0#8 := BitVec.eq_of_toNat_eq (by simp; omega)
    unfold decodeLit1 at h
    split at h <;> cases h
    exact ⟨rfl, rfl, by simp [encode, leBytes]⟩
  · obtain rfl : T = 0xF4#8 := BitVec.eq_of_toNat_eq (by simp; omega)
    unfold decodeLit2 at h
    split at h <;> cases h
    refine ⟨rfl, rfl, ?_⟩
    rw [encode, leBytes_ofNat_leNat] <;> rfl
  · obtain rfl : T = 0xF8#8 := BitVec.eq_of_toNat_eq (by simp; omega)
    unfold decodeLit3 at h
    split at h <;> cases h
    refine ⟨rfl, rfl, ?_⟩
    rw [encode, leBytes_ofNat_leNat] <;> rfl
  · obtain rfl : T = 0xFC#8 := BitVec.eq_of_toNat_eq (by simp; omega)
    unfold decodeLit4 at h
    split at h <;> cases h
    refine ⟨rfl, rfl, ?_⟩
    rw [encode, leBytes_ofNat_leNat] <;> rfl

/-- Settles O8: one lemma for each context; a context with no byte decodes to nothing. -/
theorem encodeInvertsDecode : Obligations.EncodeInvertsDecode := by
  intro c bs rest i h
  cases c with
  | preamble =>
    cases bs with
    | nil => cases h
    | cons b r =>
      cases h
      obtain ⟨hw, hc, he⟩ := encode_decodePreamble b
      exact ⟨hw, hc, by rw [he]; rfl⟩
  | tag =>
    cases bs with
    | nil => cases h
    | cons T r => exact encode_decodeTag h
  | command =>
    cases bs with
    | nil => cases h
    | cons b r =>
      simp only [decode] at h
      split at h <;> cases h
      next hb =>
      obtain ⟨hw, hc, he⟩ := encode_decodeOp (BitVec.ofNat 4 b.toNat)
      refine ⟨hw, hc, ?_⟩
      rw [he, toNat_ofNat_of_lt hb, BitVec.ofNat_toNat, BitVec.setWidth_eq]
      rfl

end Sys2Proof
end

section
/-! What an instruction can do, said once for each of the three contexts: what it may write, and what it leaves as it
was (20_memory.md R50 to R54, 10_state.md R21, R26, R27). -/

namespace Sys2Proof.Machine

/-! ### Bytes and tags of the command in progress -/

/-- What every fetched instruction leaves: all of the host's and the encoder's, the op code, and the unit that does not
walk; under `IS_VALID` also `OUT`. -/
structure FetchKept (s t : State) : Prop where
  host : HostKept s t
  encoder : EncoderKept s t
  op : t.cmd.op = s.cmd.op
  dp : s.cmd.op = 12#4 → t.dp = s.dp
  fv : s.cmd.op ≠ 12#4 → t.fv = s.fv
  out : s.cmd.op = 12#4 → SameBytes s.out t.out

theorem Raised.fetchKept {c : Cause} {s t : State} (h : Raised c s t) : FetchKept s t where
  host := h.host
  encoder := h.encoder
  op := h.op
  dp h12 := by rw [h.dp, h12]; rfl
  fv h12 := by rw [h.fv, if_neg h12]
  out _ := h.out

theorem FetchKept.trans {s t u : State} (h : FetchKept s t) (h' : FetchKept t u) : FetchKept s u where
  host := h.host.trans h'.host
  encoder := h.encoder.trans h'.encoder
  op := h'.op.trans h.op
  dp h12 := (h'.dp (h.op.trans h12)).trans (h.dp h12)
  fv h12 := (h'.fv (h.op ▸ h12)).trans (h.fv h12)
  out h12 := (h.out h12).trans (h'.out (h.op.trans h12))

theorem activeUnit_eq_fv {s : State} : activeUnit s = .fv ↔ s.cmd.op = 12#4 := by
  unfold activeUnit; split <;> simp [*]

theorem fetchKept_completeNormal (r0 r1 r2 r3 : Nat) (s : State) : FetchKept s (completeNormal r0 r1 r2 r3 s) :=
  ⟨⟨rfl, rfl, rfl, rfl, rfl, rfl, .rfl', .rfl'⟩, ⟨rfl, rfl, rfl, rfl, rfl, rfl⟩, rfl, fun _ => rfl, fun _ => rfl,
    fun _ => .rfl'⟩

/-- Writing the registers of the unit that walks leaves the other's. -/
theorem fetchKept_setWalk (w : WalkRegs) (s : State) : FetchKept s (setWalk (activeUnit s) w s) := by
  refine ⟨by constructor <;> simp [SameBytes], by constructor <;> simp, by simp, fun h12 => ?_, fun h12 => ?_,
    fun _ => by simp [SameBytes]⟩
  · rw [activeUnit_eq_fv.2 h12]
    rfl
  · cases hu : activeUnit s with
    | dp => rfl
    | fv => exact absurd (activeUnit_eq_fv.1 hu) h12

/-- Everything a byte of the preamble can do (40_varint.md R112, R114). -/
inductive PreambleStep (s : State) : State → Prop
  | raised {c : Cause} : c ≠ .none → PreambleStep s (raiseMalformed c s)
  | group (g : BitVec 7) : s.vd.i.toNat < 4 → PreambleStep s (takeGroup g s)
  | ended (g : BitVec 7) : PreambleStep s (varintDone (takeGroup g s))

theorem exec_preamble {i : Instr} (hc : contextOf i = .preamble) (s : State) :
    ∃ t, exec i s = .next t ∧ PreambleStep s t := by
  cases i <;> simp only [contextOf, reduceCtorEq] at hc
  case vcont g =>
    rcases Nat.lt_or_ge s.vd.i.toNat 4 with h | h
    · exact ⟨_, exec_vcont_of_le g (by omega), .group g h⟩
    · exact ⟨_, exec_vcont_fifth g h, .raised (by decide)⟩
  case vlast g =>
    by_cases h : 4 ≤ s.vd.i.toNat ∧ Config.varintLastMax < g.toNat
    · exact ⟨_, exec_vlast_overflow h, .raised (by decide)⟩
    · exact ⟨_, exec_vlast_ends h, .ended g⟩

theorem PreambleStep.of_exec {i : Instr} {s t : State} (hc : contextOf i = .preamble) (h : exec i s = .next t) :
    PreambleStep s t := by
  obtain ⟨t', h', hp⟩ := exec_preamble hc s
  cases h.symm.trans h'
  exact hp

theorem fetchKept_takeGroup (g : BitVec 7) (s : State) : FetchKept s (takeGroup g s) :=
  ⟨⟨rfl, rfl, rfl, rfl, rfl, rfl, .rfl', .rfl'⟩, ⟨rfl, rfl, rfl, rfl, rfl, rfl⟩, rfl, fun _ => rfl, fun _ => rfl,
    fun _ => .rfl'⟩

theorem fetchKept_varintDone (s : State) : FetchKept s (varintDone s) := by
  obtain ⟨_, _, _, _, h, -⟩ | h | ⟨w, h⟩ := varintDone_cases s
  · rw [h]
    exact fetchKept_completeNormal ..
  · exact h.fetchKept
  · rw [h]
    exact fetchKept_setWalk w s

theorem varintDone_out_td (s : State) : (varintDone s).out = s.out ∧ (varintDone s).td = s.td := by
  unfold varintDone preambleDone
  split_ifs <;> simp

theorem PreambleStep.kept {s t : State} (h : PreambleStep s t) : FetchKept s t ∧ t.td = s.td ∧ t.out = s.out := by
  cases h with
  | raised _ => exact ⟨(raised_raiseMalformed ..).fetchKept, by simp, by simp⟩
  | group g _ => exact ⟨fetchKept_takeGroup g s, rfl, rfl⟩
  | ended g =>
    obtain ⟨hout, htd⟩ := varintDone_out_td (takeGroup g s)
    exact ⟨(fetchKept_takeGroup g s).trans (fetchKept_varintDone _), htd, hout⟩

/-- A tag moves its bytes and its unit on, or raises an error (44_lz_decoder.md R212). -/
theorem tag_kept {i : Instr} {s t : State} (hc : contextOf i = .tag) (h : exec i s = .next t) :
    FetchKept s t ∧ t.vd = s.vd := by
  obtain ⟨f, hf⟩ := (tagFields_some_iff i).2 hc
  obtain ⟨c, r, -, rfl⟩ | ⟨out, rfl, hout, -⟩ := tag_next hf h
  · have hr := raised_td c r s
    exact ⟨hr.fetchKept, hr.vd⟩
  · have hmoved : FetchKept s { noteTag f s with out := out } :=
      ⟨⟨rfl, rfl, rfl, rfl, rfl, rfl, .rfl', .rfl'⟩, ⟨rfl, rfl, rfl, rfl, rfl, rfl⟩, rfl, fun _ => rfl, fun _ => rfl,
        fun h12 => .of_eq (hout (activeUnit_eq_fv.2 h12))⟩
    exact ⟨hmoved.trans (fetchKept_setWalk _ _), by simp⟩

theorem fetchKept_of_exec {i : Instr} {s t : State} (hc : contextOf i ≠ .command) (h : exec i s = .next t) :
    FetchKept s t := by
  cases hctx : contextOf i with
  | preamble => exact (PreambleStep.of_exec hctx h).kept.1
  | tag => exact (tag_kept hctx h).1
  | command => exact absurd hctx hc

/-! ### Commands -/

/-- A command that pushes has run to `u`, its count not yet returned: the bytes, and which registers of the encoder side
it may have used. -/
structure PushRun (i : Instr) (s u : State) : Prop where
  pushing : i ∈ [Instr.varintEnc, .emitLit, .emitCopy, .matchFrag, .compress]
  push : ∃ op ep bs, ep.count = 0 ∧ Pushes bs { beginCommand op s with ep := ep } u
  table : cellsWf (2 ^ Config.htMaxBits) s.ht = true → cellsWf (2 ^ Config.htMaxBits) u.ht = true
  matcher : i ≠ .matchFrag ∧ i ≠ .compress → u.ht = s.ht ∧ u.hm = s.hm
  ve : i ≠ .varintEnc ∧ i ≠ .compress → u.ve = s.ve
  te : i ≠ .emitCopy ∧ i ≠ .matchFrag ∧ i ≠ .compress → u.te = s.te

/-- Everything a command can do in the step that starts it (10_state.md R23 to R25): be turned away, push, return at once,
find its tag cut, or start fetching. -/
inductive CommandStep (s : State) : Instr → State → Prop
  | turnedAway (i : Instr) (op : BitVec 4) : CommandStep s i (completeBadCommand (beginCommand op s))
  | pushed {i : Instr} {u : State} (run : PushRun i s u) : CommandStep s i (completePushed u)
  | returned {i : Instr} {td : TagDecRegs} (op : BitVec 4) (r0 r1 r2 r3 : Nat) (parser : i ≠ .tagParse → td = s.td) :
      CommandStep s i (completeNormal r0 r1 r2 r3 { beginCommand op s with td := td })
  | tagCut (td : TagDecRegs) :
      CommandStep s .tagParse (raiseMalformed .tagTruncated { beginCommand 5#4 s with td := td })
  | varintDec (range : s.cmd.a0 ≤ s.cmd.a1) : CommandStep s .varintDec (startVarint (beginCommand 2#4 s))
  | uncompress : CommandStep s .uncompress (startWalk .dp s.cmd.a0 (beginCommand 10#4 s))
  | getUlen : CommandStep s .getUlen (startWalk .dp s.cmd.a0 (beginCommand 11#4 s))
  | isValid : CommandStep s .isValid (startWalk .fv s.cmd.a0 (beginCommand 12#4 s))

theorem CommandStep.of_check {s a : State} {i : Instr} (args : Bool) (op : BitVec 4) (h : args = true → CommandStep s i a) :
    ∃ t, (if args then .next a else .next (completeBadCommand (beginCommand op s)) : Result) = .next t ∧
      CommandStep s i t := by
  split
  case isTrue ha => exact ⟨a, rfl, h ha⟩
  case isFalse => exact ⟨_, rfl, .turnedAway i op⟩

/-- `TAG_PARSE` returns the tag its range begins with, or finds it cut (41_tag_codec.md R141). -/
theorem exec_tagParse_step (s : State) : ∃ t, exec .tagParse s = .next t ∧ CommandStep s .tagParse t := by
  by_cases ha : rangeArgs (beginCommand 5#4 s).cmd = true
  case neg => exact ⟨_, if_neg ha, .turnedAway _ _⟩
  obtain ⟨-, T, hfetch⟩ | ⟨i, f, -, hfetch, -⟩ := fetchTag_of_parseTag (beginCommand 5#4 s) s.cmd.a0 s.cmd.a1
  · have hexec : exec .tagParse s = .next (raiseMalformed .tagTruncated (noteKind T (beginCommand 5#4 s))) := by
      rw [exec, execTagParse, if_pos ha]
      simp only [beginCommand_cmd, hfetch]
    cases T with
    | none => exact ⟨_, hexec, .tagCut s.td⟩
    | some T => exact ⟨_, hexec, .tagCut _⟩
  · have hexec : exec .tagParse s = .next (completeNormal ((tagFields i).getD ⟨0, 0, 0, 0⟩).kind
        ((tagFields i).getD ⟨0, 0, 0, 0⟩).len ((tagFields i).getD ⟨0, 0, 0, 0⟩).off
        ((tagFields i).getD ⟨0, 0, 0, 0⟩).hdr (noteTag ((tagFields i).getD ⟨0, 0, 0, 0⟩) (beginCommand 5#4 s))) := by
      rw [exec, execTagParse, if_pos ha]
      simp only [beginCommand_cmd, hfetch]
    exact ⟨_, hexec, .returned 5#4 _ _ _ _ fun h => absurd rfl h⟩

theorem pushRun_matchFrag (s : State) :
    PushRun .matchFrag s (emitFragment s.cmd.a0 s.cmd.a1 (clearCount (beginCommand 7#4 s))) := by
  obtain ⟨hht, hve, -⟩ := emitFragment_kept s.cmd.a0 s.cmd.a1 (clearCount (beginCommand 7#4 s))
  have hpush := pushes_emitFragment s.cmd.a0 s.cmd.a1 (clearCount (beginCommand 7#4 s))
  refine ⟨by simp, ⟨7#4, _, _, rfl, hpush⟩, fun h => ?_, by simp, fun _ => hve, by simp⟩
  rw [hht]
  exact matchFragment_wf _ _ _ h

theorem pushRun_compress (s : State) : PushRun .compress s (compressFrame s.cmd.a0 (beginCommand 8#4 s)) := by
  obtain ⟨bs, hpush⟩ := pushes_compressFrame s.cmd.a0 (beginCommand 8#4 s)
  exact ⟨by simp, ⟨8#4, _, bs, rfl, hpush⟩, compressFrame_wf s.cmd.a0 (beginCommand 8#4 s), by simp, by simp, by simp⟩

theorem exec_command {i : Instr} (hc : contextOf i = .command) (s : State) :
    ∃ t, exec i s = .next t ∧ CommandStep s i t := by
  cases i <;> simp only [contextOf, reduceCtorEq] at hc
  case varintEnc =>
    exact CommandStep.of_check _ 1#4 fun _ => .pushed ⟨by simp, ⟨_, _, _, rfl, pushes_pushVarint ..⟩, id,
      fun _ => ⟨rfl, rfl⟩, by simp, fun _ => rfl⟩
  case varintDec => exact CommandStep.of_check _ 2#4 fun h => .varintDec ((rangeArgs_iff _).1 h)
  case emitLit =>
    exact CommandStep.of_check _ 3#4 fun _ => .pushed ⟨by simp, ⟨_, _, _, rfl, pushes_emitLiteral ..⟩, id,
      fun _ => ⟨rfl, rfl⟩, fun _ => rfl, fun _ => rfl⟩
  case emitCopy =>
    exact CommandStep.of_check _ 4#4 fun _ => .pushed ⟨by simp, ⟨_, _, _, rfl, pushes_emitCopy ..⟩, id,
      fun _ => ⟨rfl, rfl⟩, fun _ => rfl, by simp⟩
  case tagParse => exact exec_tagParse_step s
  case findMatchLen => exact CommandStep.of_check _ 6#4 fun _ => .returned 6#4 _ _ _ _ fun _ => rfl
  case matchFrag => exact CommandStep.of_check _ 7#4 fun _ => .pushed (pushRun_matchFrag s)
  case compress => exact CommandStep.of_check _ 8#4 fun _ => .pushed (pushRun_compress s)
  case maxClen => exact CommandStep.of_check _ 9#4 fun _ => .returned 9#4 _ _ _ _ fun _ => rfl
  case uncompress => exact ⟨_, rfl, .uncompress⟩
  case getUlen => exact ⟨_, rfl, .getUlen⟩
  case isValid => exact ⟨_, rfl, .isValid⟩
  all_goals exact ⟨_, rfl, .turnedAway _ _⟩

/-- The decoder side is not touched by what a command pushes. -/
theorem PushRun.decoderKept {i : Instr} {s u : State} (h : PushRun i s u) : DecoderKept s (completePushed u) := by
  obtain ⟨op, ep, bs, -, push⟩ := h.push
  exact ⟨push.vd, push.td, push.dp, push.fv, .of_eq push.out⟩

theorem CommandStep.of_exec {i : Instr} {s t : State} (hc : contextOf i = .command) (h : exec i s = .next t) :
    CommandStep s i t := by
  obtain ⟨t', h', hstep⟩ := exec_command hc s
  cases h.symm.trans h'
  exact hstep

section
variable {i : Instr} {s t : State} (h : CommandStep s i t)
include h

theorem CommandStep.hostKept : HostKept s t := by
  cases h
  case pushed run =>
    obtain ⟨op, ep, bs, -, push⟩ := run.push
    have hbegin : HostKept s { beginCommand op s with ep := ep } := ⟨rfl, rfl, rfl, rfl, rfl, rfl, .rfl', .rfl'⟩
    obtain ⟨⟩ := hbegin.trans push.hostKept
    constructor <;> assumption
  all_goals constructor <;> simp [SameBytes]

theorem CommandStep.out : t.out = s.out := by
  cases h
  case pushed run => obtain ⟨_, _, _, -, push⟩ := run.push; exact push.out
  all_goals simp

theorem CommandStep.matcher (hi : i ≠ .matchFrag ∧ i ≠ .compress) : t.ht = s.ht ∧ t.hm = s.hm := by
  cases h
  case pushed run => exact run.matcher hi
  all_goals simp

theorem CommandStep.sink (hi : i ∉ [Instr.varintEnc, .emitLit, .emitCopy, .matchFrag, .compress]) :
    t.sink = s.sink ∧ t.ep = s.ep := by
  cases h
  case pushed run => exact absurd run.pushing hi
  all_goals simp

theorem CommandStep.ve (hi : i ≠ .varintEnc ∧ i ≠ .compress) : t.ve = s.ve := by
  cases h
  case pushed run => exact run.ve hi
  all_goals simp

theorem CommandStep.te (hi : i ≠ .emitCopy ∧ i ≠ .matchFrag ∧ i ≠ .compress) : t.te = s.te := by
  cases h
  case pushed run => exact run.te hi
  all_goals simp

theorem CommandStep.vd (hi : i ≠ .varintDec ∧ i ≠ .uncompress ∧ i ≠ .getUlen ∧ i ≠ .isValid) : t.vd = s.vd := by
  cases h
  case pushed run => exact run.decoderKept.vd
  all_goals simp_all

theorem CommandStep.td (hi : i ≠ .tagParse) : t.td = s.td := by
  cases h
  case pushed run => exact run.decoderKept.td
  case returned parser => exact parser hi
  all_goals simp_all

theorem CommandStep.dp (hi : i ≠ .uncompress ∧ i ≠ .getUlen) : t.dp = s.dp := by
  cases h
  case pushed run => exact run.decoderKept.dp
  case tagCut td => simpa using (raised_raiseMalformed .tagTruncated { beginCommand 5#4 s with td := td }).dp
  all_goals simp_all [startWalk, startVarint]

theorem CommandStep.fv (hi : i ≠ .isValid) : t.fv = s.fv := by
  cases h
  case pushed run => exact run.decoderKept.fv
  case tagCut td => simpa using (raised_raiseMalformed .tagTruncated { beginCommand 5#4 s with td := td }).fv
  all_goals simp_all [startWalk, startVarint]

end

/-- Settles O11: neither a fetched instruction nor a command writes what the host owns. -/
theorem noInstructionWritesWhatTheHostOwns : Obligations.NoInstructionWritesWhatTheHostOwns := by
  intro i s t h
  by_cases hc : contextOf i = .command
  · exact (CommandStep.of_exec hc h).hostKept
  · exact (fetchKept_of_exec hc h).host

/-- Settles O12: a fetched instruction keeps the encoder's state and the other unit's, a command what its clause asks. -/
theorem unitsKeepToTheirOwnState : Obligations.UnitsKeepToTheirOwnState := by
  intro i s t h
  by_cases hc : contextOf i = .command
  · have hs := CommandStep.of_exec hc h
    exact ⟨fun _ => .of_eq hs.out, hs.matcher, fun hi => hs.sink (by simpa using hi), hs.ve, hs.te, fun hi => hs.vd hi.2,
      fun hi => hs.td hi.2, fun hi => hs.dp hi.2, fun hi => hs.fv hi.2, fun hi => absurd hc hi.1, fun hi => absurd hc hi.1⟩
  · have hk := fetchKept_of_exec hc h
    refine ⟨fun hi => ?_, fun _ => ⟨hk.encoder.ht, hk.encoder.hm⟩, fun _ => ⟨hk.encoder.sink, hk.encoder.ep⟩,
      fun _ => hk.encoder.ve, fun _ => hk.encoder.te, fun hi => ?_, fun hi => ?_, fun hi => absurd hi.1 hc,
      fun hi => absurd hi.1 hc, fun hi => hk.dp hi.2, fun hi => hk.fv hi.2⟩
    all_goals cases hctx : contextOf i with
      | preamble => ?_
      | tag => ?_
      | command => exact absurd hctx hc
    · exact .of_eq (PreambleStep.of_exec hctx h).kept.2.2
    · exact hi.elim (absurd hctx) hk.out
    · exact absurd hctx hi.1
    · exact (tag_kept hctx h).2
    · exact (PreambleStep.of_exec hctx h).kept.2.1
    · exact absurd hctx hi.1

/-- A command that does not push leaves what the host owns and the encoder side in the step that starts it. -/
theorem start_kept {i : Instr} {s t : State} (hc : contextOf i = .command)
    (hi : i ∉ [Instr.varintEnc, .emitLit, .emitCopy, .matchFrag, .compress]) (h : exec i s = .next t) :
    HostKept s t ∧ EncoderKept s t := by
  have hs := CommandStep.of_exec hc h
  obtain ⟨hsink, hep⟩ := hs.sink hi
  simp only [List.mem_cons, List.not_mem_nil, or_false, not_or] at hi
  obtain ⟨henc, -, hcopy, hfrag, hcompress⟩ := hi
  obtain ⟨hht, hhm⟩ := hs.matcher ⟨hfrag, hcompress⟩
  exact ⟨hs.hostKept, hs.ve ⟨henc, hcompress⟩, hs.te ⟨hcopy, hfrag, hcompress⟩, hhm, hep, hht, hsink⟩

end Sys2Proof.Machine
end

section
/-! The invariant of the machine holds after reset and every step keeps it. -/

namespace Sys2Proof.Machine

/-! ### What is left of the invariant inside a step -/

/-- The invariant without what it says of the response and of the program, which a command in its start or its end does
not yet or no longer meet. -/
structure Sound (s : State) : Prop where
  storage : StorageOk s
  width : WidthOk s
  port : ∀ h ∈ s.port, HostMoveOk s h

theorem Inv.sound {s : State} (h : Inv s) : Sound s := ⟨h.storage, h.width, h.port⟩

theorem HostMoveOk.of_params {s t : State} (hp : t.params = s.params) {m : HostMove} (h : HostMoveOk s m) :
    HostMoveOk t m := by
  unfold HostMoveOk at h ⊢
  rwa [hp]

/-- The argument registers and the moves still presented are the host's. -/
theorem Sound.of_kept {s t : State} (h : Sound s) (hw : WidthOk t) (hp : t.params = s.params) (hport : t.port = s.port)
    (hin : t.inMem = s.inMem) (hframe : t.frame = s.frame)
    (hout : cellsWf s.params.maxOutputLen.toNat s.out = true → cellsWf s.params.maxOutputLen.toNat t.out = true)
    (hht : cellsWf (2 ^ Config.htMaxBits) s.ht = true → cellsWf (2 ^ Config.htMaxBits) t.ht = true) : Sound t := by
  obtain ⟨⟨hin', hframe', hout', hht'⟩, -, hport'⟩ := h
  refine ⟨⟨?_, ?_, ?_, hht hht'⟩, hw, fun m hm => ?_⟩
  · rw [hin]
    exact hin'
  · rw [hframe, hp]
    exact hframe'
  · rw [hp]
    exact hout hout'
  · rw [hport] at hm
    exact (hport' m hm).of_params hp

theorem two_pow_posW_pos (p : Params) : 0 < 2 ^ p.posW := Nat.two_pow_pos _

section
variable {s : State} (h : Sound s)
include h

theorem Sound.beginCommand (op : BitVec 4) : Sound (beginCommand op s) :=
  have h0 := two_pow_posW_pos s.params
  h.of_kept ⟨h.width.a0, h.width.a1, h.width.a2, h0, h0, h0, h0, h.width.count, h.width.dpPc, h.width.dpEnd,
    h.width.fvPc, h.width.fvEnd⟩ rfl rfl rfl rfl id id

theorem Sound.completeBadCommand : Sound (completeBadCommand s) :=
  have h0 := two_pow_posW_pos s.params
  h.of_kept ⟨h.width.a0, h.width.a1, h.width.a2, h0, h0, h0, h0, h.width.count, h.width.dpPc, h.width.dpEnd,
    h.width.fvPc, h.width.fvEnd⟩ rfl rfl rfl rfl id id

theorem Sound.completeNormal (r0 r1 r2 r3 : Nat) : Sound (completeNormal r0 r1 r2 r3 s) :=
  h.of_kept (h.width.completeNormal r0 r1 r2 r3) rfl rfl rfl rfl id id

theorem Sound.raiseMalformed (c : Cause) : Sound (raiseMalformed c s) :=
  h.of_kept ((raised_raiseMalformed c s).width h.width) (by simp) (by simp) (by simp) (by simp) (by simp) (by simp)

theorem Sound.with_td (r : TagDecRegs) : Sound { s with td := r } :=
  h.of_kept (h.width.of_same rfl rfl rfl rfl rfl rfl) rfl rfl rfl rfl id id

theorem Sound.with_vd (r : VarintDecRegs) : Sound { s with vd := r } :=
  h.of_kept (h.width.of_same rfl rfl rfl rfl rfl rfl) rfl rfl rfl rfl id id

theorem Sound.with_out {out : List Host.Cell}
    (hout : cellsWf s.params.maxOutputLen.toNat s.out = true → cellsWf s.params.maxOutputLen.toNat out = true) :
    Sound { s with out := out } :=
  h.of_kept (h.width.of_same rfl rfl rfl rfl rfl rfl) rfl rfl rfl rfl hout id

theorem Sound.setWalk (u : WalkUnit) {w : WalkRegs} (hpc : w.pc < 2 ^ s.params.posW)
    (hend : w.endPos < 2 ^ s.params.posW) : Sound (setWalk u w s) := by
  have hw : WidthOk (Machine.setWalk u w s) := by
    obtain ⟨h1, h2, h3, h4, h5, h6, h7, h8, h9, h10, h11, h12⟩ := h.width
    cases u
    · exact ⟨h1, h2, h3, h4, h5, h6, h7, h8, hpc, hend, h11, h12⟩
    · exact ⟨h1, h2, h3, h4, h5, h6, h7, h8, h9, h10, hpc, hend⟩
  exact h.of_kept hw (by simp) (by simp) (by simp) (by simp) (by simp) (by simp)

theorem Sound.endPos_lt (u : WalkUnit) : (walkRegs u s).endPos < 2 ^ s.params.posW := by
  cases u
  · exact h.width.dpEnd
  · exact h.width.fvEnd

theorem Sound.pc_lt (u : WalkUnit) : (walkRegs u s).pc < 2 ^ s.params.posW := by
  cases u
  · exact h.width.dpPc
  · exact h.width.fvPc

end

/-! ### States in which a command has ended -/

theorem programOk_of_not_busy {s : State} (h : busy s = false) : ProgramOk s := fun hb => by simp [h] at hb

theorem causeCode_bounds {c : Cause} (h : c ≠ .none) : 1 ≤ (causeCode c).toNat ∧ (causeCode c).toNat ≤ 11 := by
  cases c
  case none => exact absurd rfl h
  all_goals decide

theorem inv_raiseMalformed {c : Cause} {s : State} (hc : c ≠ .none) (h : Sound s) : Inv (raiseMalformed c s) := by
  have hr := raised_raiseMalformed c s
  obtain ⟨hstorage, hwidth, hport⟩ := h.raiseMalformed c
  refine ⟨hstorage, ?_, hwidth, programOk_of_not_busy hr.not_busy, hport⟩
  obtain ⟨hlo, hhi⟩ := causeCode_bounds hc
  unfold ResponseOk
  rw [hr.rsp, hr.op]
  by_cases h12 : s.cmd.op = 12#4
  · exact .inr (.inr (.inr ⟨if_pos h12, h12, hlo, hhi, rfl, rfl, rfl, rfl⟩))
  · exact .inr (.inl ⟨if_neg h12, hlo, hhi, rfl, rfl, rfl, rfl⟩)

theorem inv_completeNormal (r0 r1 r2 r3 : Nat) {s : State} (h : Sound s) : Inv (completeNormal r0 r1 r2 r3 s) := by
  obtain ⟨hstorage, hwidth, hport⟩ := h.completeNormal r0 r1 r2 r3
  exact ⟨hstorage, .inr (.inr (.inl ⟨rfl, rfl⟩)), hwidth, programOk_of_not_busy (busy_completeNormal ..), hport⟩

theorem inv_completeBadCommand {s : State} (h : Sound s) : Inv (completeBadCommand s) := by
  obtain ⟨hstorage, hwidth, hport⟩ := h.completeBadCommand
  have hidle : busy (completeBadCommand s) = false := by simp [busy, statusBadCommand]
  exact ⟨hstorage, .inl ⟨.inr (.inr rfl), rfl, rfl, rfl, rfl, rfl⟩, hwidth, programOk_of_not_busy hidle, hport⟩

/-- Reset leaves the invariant, whatever stood in the registers and the table. -/
theorem inv_applyReset {s : State} (h : StorageOk s) : Inv (applyReset s) := by
  have h0 := two_pow_posW_pos s.params
  exact ⟨⟨h.inMem, h.frame, h.out, cellsWf_nil _⟩, .inl ⟨.inl rfl, rfl, rfl, rfl, rfl, rfl⟩,
    ⟨h0, h0, h0, h0, h0, h0, h0, h0, h0, h0, h0, h0⟩, programOk_of_not_busy (by simp [busy]), nofun⟩

/-- Settles O2: resetting the reset state changes nothing, and its storage is empty. -/
theorem resetMeetsTheInvariant : Obligations.ResetMeetsTheInvariant := fun p =>
  inv_applyReset (s := State.resetOf p) ⟨cellsWf_nil _, cellsWf_nil _, cellsWf_nil _, cellsWf_nil _⟩

/-! ### A step of the command in progress -/

theorem ResponseOk.of_same {s t : State} (h : ResponseOk s) (hr : t.rsp = s.rsp) (hc : t.cmd = s.cmd) : ResponseOk t := by
  unfold ResponseOk
  rw [hr, hc]
  exact h

/-- A command in progress is in a varint, or its unit is among its tags (44_lz_decoder.md R211, R212). -/
theorem programOk_iff {s : State} (hb : busy s = true) :
    ProgramOk s ↔ s.vd.i.toNat ≤ 4 ∧ (s.cmd.op = 2#4 ∨ s.cmd.op = 11#4 ∧ s.dp.state = .idle) ∨
      ∃ u, s.cmd.op = walkOp u ∧ WalkOk s (walkRegs u s) := by
  constructor
  · intro h
    obtain ⟨hop, hi⟩ | ⟨hop, hw⟩ | ⟨hop, hidle, hi⟩ | ⟨hop, hw⟩ := h hb
    · exact .inl ⟨hi, .inl hop⟩
    · exact .inr ⟨.dp, hop, hw⟩
    · exact .inl ⟨hi, .inr ⟨hop, hidle⟩⟩
    · exact .inr ⟨.fv, hop, hw⟩
  · rintro (⟨hi, hop | ⟨hop, hidle⟩⟩ | ⟨u, hop, hw⟩) -
    · exact .inl ⟨hop, hi⟩
    · exact .inr (.inr (.inl ⟨hop, hidle, hi⟩))
    · cases u
      · exact .inr (.inl ⟨hop, hw⟩)
      · exact .inr (.inr (.inr ⟨hop, hw⟩))

theorem takeGroup_index {g : BitVec 7} {s : State} (h : s.vd.i.toNat ≤ 4) :
    (takeGroup g s).vd.i.toNat = s.vd.i.toNat + 1 := toNat_ofNat_of_lt (by omega)

/-- A group before the fifth byte leaves the decoder in its varint. -/
theorem inv_takeGroup {g : BitVec 7} {s : State} (h : Inv s) (hb : busy s = true) (hi : s.vd.i.toNat < 4)
    (hidle : ∀ u, s.cmd.op = walkOp u → (walkRegs u s).state = .idle) : Inv (takeGroup g s) := by
  have hi' : (takeGroup g s).vd.i.toNat ≤ 4 := by
    rw [takeGroup_index (by omega)]
    exact hi
  obtain ⟨hstorage, hwidth, hport⟩ := h.sound.with_vd (takeGroup g s).vd
  refine ⟨hstorage, h.response.of_same rfl rfl, hwidth, ?_, hport⟩
  rw [programOk_iff (s := takeGroup g s) hb]
  obtain ⟨-, hop⟩ | ⟨u, hop, -⟩ := (programOk_iff hb).1 h.program
  · exact .inl ⟨hi', hop⟩
  · exact .inr ⟨u, hop, .inl ⟨by cases u <;> exact hidle _ hop, hi'⟩⟩

/-- The end of a walk's preamble: the cap fails, or the unit stands among its tags, inside the frame. -/
theorem inv_preambleDone {u : WalkUnit} {s : State} (h : Sound s) (hresp : ResponseOk s) (hb : busy s = true)
    (hop : s.cmd.op = walkOp u) (hpc : s.vd.i.toNat ≤ (walkRegs u s).endPos) : Inv (preambleDone u s) := by
  unfold preambleDone
  split
  case isTrue => exact inv_raiseMalformed (by decide) h
  case isFalse hcap =>
    have hend := h.endPos_lt u
    obtain ⟨hstorage, hwidth, hport⟩ := h.setWalk u (w := { walkRegs u s with
      state := .expectingTag, declared := s.vd.val, produced := 0, pc := s.vd.i.toNat }) (by simp only; omega) hend
    refine ⟨hstorage, hresp.of_same (by simp) (by simp), hwidth, ?_, hport⟩
    rw [programOk_iff (by simpa [busy] using hb)]
    exact .inr ⟨u, by simpa using hop, .inr (by simp; omega)⟩

theorem walkOp_cases {s : State} {u : WalkUnit} (h : s.cmd.op = walkOp u) :
    activeUnit s = u ∧ s.cmd.op ≠ 2#4 ∧ s.cmd.op ≠ 11#4 := by
  unfold activeUnit
  rw [h]
  cases u <;> decide

theorem inv_varintDone {s : State} (h : Sound s) (hresp : ResponseOk s) (hb : busy s = true)
    (hop : s.cmd.op = 2#4 ∨ s.cmd.op = 11#4 ∨ ∃ u, s.cmd.op = walkOp u ∧ s.vd.i.toNat ≤ (walkRegs u s).endPos) :
    Inv (varintDone s) := by
  unfold varintDone
  split
  · exact inv_completeNormal _ _ _ _ h
  split
  · exact inv_completeNormal _ _ _ _ h
  next h2 h11 =>
  obtain hop | hop | ⟨u, hop, hpc⟩ := hop
  · exact absurd hop h2
  · exact absurd hop h11
  · rw [(walkOp_cases hop).1]
    exact inv_preambleDone h hresp hb hop hpc

/-- A command in its varint, `pos` and `endPos` its range: each of its bytes is inside the frame if it walks. -/
structure InVarint (pos endPos : Nat) (s : State) : Prop where
  range : varintRange s = some (pos, endPos)
  index : s.vd.i.toNat ≤ 4
  idle : ∀ u, s.cmd.op = walkOp u → (walkRegs u s).state = .idle
  cause : s.cmd.op = 2#4 ∨ s.cmd.op = 11#4 ∨ ∃ u, s.cmd.op = walkOp u ∧ pos = 0 ∧ endPos = (walkRegs u s).endPos

@[simp] theorem walkRegs_takeGroup (u : WalkUnit) (g : BitVec 7) (s : State) :
    walkRegs u (takeGroup g s) = walkRegs u s := by cases u <;> rfl

theorem inv_step_varint {pos endPos : Nat} {s : State} (h : Inv s) (hr : s.rst = false) (hb : busy s = true)
    (hv : InVarint pos endPos s) : ∃ t, step s = .next t ∧ Inv t := by
  rw [step_varint hr hb hv.range]
  split
  case isTrue => exact ⟨_, rfl, inv_raiseMalformed (by decide) h.sound⟩
  case isFalse hlt =>
    obtain ⟨-, hctx, -⟩ := encode_decodePreamble (cellGet s.frame (pos + s.vd.i.toNat))
    obtain ⟨t, ht, hstep⟩ := exec_preamble hctx s
    refine ⟨t, ht, ?_⟩
    cases hstep with
    | raised hc => exact inv_raiseMalformed hc h.sound
    | group g hi => exact inv_takeGroup h hb hi hv.idle
    | ended g =>
      have hindex := takeGroup_index (g := g) hv.index
      refine inv_varintDone (h.sound.with_vd _) (h.response.of_same rfl rfl) hb ?_
      obtain hop | hop | ⟨u, hop, rfl, rfl⟩ := hv.cause
      · exact .inl hop
      · exact .inr (.inl hop)
      · refine .inr (.inr ⟨u, hop, ?_⟩)
        rw [hindex, walkRegs_takeGroup]
        omega

/-- At the frame end the command completes or fails (44_lz_decoder.md R222). -/
theorem inv_endOfFrame {s : State} (u : WalkUnit) (h : Sound s) : Inv (endOfFrame u s) := by
  unfold endOfFrame
  by_cases hpd : (walkRegs u s).produced = (walkRegs u s).declared
  · have hdone := h.setWalk u (w := { walkRegs u s with state := .done }) (h.pc_lt u) (h.endPos_lt u)
    rw [if_pos hpd]
    cases u <;> exact inv_completeNormal _ _ _ _ hdone
  · rw [if_neg hpd]
    exact inv_raiseMalformed (by decide) h

/-- A tag that advances leaves the cursor inside the frame and the output inside the declared length. -/
theorem inv_advance {u : WalkUnit} {f : TagFields} {pc : Nat} {out : List Host.Cell} {s : State} (h : Inv s)
    (hb : busy s = true) (hop : s.cmd.op = walkOp u) (hstate : (walkRegs u s).state = .expectingTag)
    (hcap : (walkRegs u s).declared.toNat ≤ s.params.maxOutputLen.toNat)
    (hout : cellsWf s.params.maxOutputLen.toNat s.out = true → cellsWf s.params.maxOutputLen.toNat out = true)
    (hpc : pc ≤ (walkRegs u s).endPos) (hlen : (walkRegs u s).produced.toNat + f.len ≤ (walkRegs u s).declared.toNat) :
    Inv (advance u f.len pc { noteTag f s with out := out }) := by
  have hend := h.sound.endPos_lt u
  have hregs := walkRegs_advance u f.len pc f out s
  have hmoved : Sound { noteTag f s with out := out } := (h.sound.with_td (tagRegs f)).with_out hout
  obtain ⟨hstorage, hwidth, hport⟩ := hmoved.setWalk u (w := walkRegs u (advance u f.len pc { noteTag f s with out := out }))
    (by rw [hregs]; simp only [noteTag_params]; omega) (by rw [hregs]; exact hend)
  rw [show setWalk u (walkRegs u (advance u f.len pc { noteTag f s with out := out })) { noteTag f s with out := out } =
    advance u f.len pc { noteTag f s with out := out } by cases u <;> rfl] at hstorage hwidth hport
  refine ⟨hstorage, h.response.of_same (by simp) (by simp), hwidth, ?_, hport⟩
  rw [programOk_iff (by simpa [busy] using hb)]
  refine .inr ⟨u, by simpa using hop, .inr ?_⟩
  rw [hregs]
  refine ⟨hstate, hpc, ?_, by simpa using hcap⟩
  simp only
  rw [toNat_ofNat_of_lt (by omega)]
  exact hlen

theorem inv_step_tag {u : WalkUnit} {s : State} (h : Inv s) (hw : Walking u s) : ∃ t, step s = .next t ∧ Inv t := by
  rw [hw.step, stepTag]
  split
  case isFalse => exact ⟨_, rfl, inv_endOfFrame u h.sound⟩
  case isTrue hpc =>
    obtain ⟨-, T, hfetch⟩ | ⟨i, f, -, hfetch, hf, -⟩ := fetchTag_of_parseTag s (walkRegs u s).pc (walkRegs u s).endPos
    · rw [hfetch]
      cases T with
      | none => exact ⟨_, rfl, inv_raiseMalformed (by decide) h.sound⟩
      | some T => exact ⟨_, rfl, inv_raiseMalformed (by decide) (h.sound.with_td _)⟩
    · rw [hfetch]
      have hu := hw.tagging.2.2
      obtain ⟨t, ht⟩ := tag_answers (s := s) hf fun hdp => by
        have hcap := hw.cap
        rwa [← hu, hdp] at hcap
      refine ⟨t, ht, ?_⟩
      obtain ⟨c, r, hc, rfl⟩ | ⟨out, rfl, -, hout, hpc, hlen⟩ := tag_next hf ht
      · exact inv_raiseMalformed hc (h.sound.with_td r)
      · rw [hu] at hpc hlen ⊢
        exact inv_advance h hw.busy hw.op hw.state hw.cap hout hpc hlen

/-- A command in progress is in its varint or among its tags. -/
theorem Inv.program_cases {s : State} (h : Inv s) (hr : s.rst = false) (hb : busy s = true) :
    (∃ pos endPos, InVarint pos endPos s) ∨ ∃ u, Walking u s := by
  obtain ⟨hi, hop | ⟨hop, hidle⟩⟩ | ⟨u, hop, hw⟩ := (programOk_iff hb).1 h.program
  · refine .inl ⟨s.cmd.a0, s.cmd.a1, by simp [varintRange, hop], hi, fun u hu => ?_, .inl hop⟩
    exact absurd hop (walkOp_cases hu).2.1
  · refine .inl ⟨0, s.dp.endPos, by simp [varintRange, hop, hidle], hi, fun u hu => ?_, .inr (.inl hop)⟩
    exact absurd hop (walkOp_cases hu).2.2
  · obtain ⟨hidle, hi⟩ | ⟨hstate, -, -, hcap⟩ := hw
    · refine .inl ⟨0, (walkRegs u s).endPos, ?_, hi, fun v hv => ?_, .inr (.inr ⟨u, hop, rfl, rfl⟩)⟩
      · cases u <;> simp only [walkOp, walkRegs_dp, walkRegs_fv] at hop hidle <;> simp [varintRange, hop, hidle]
      · rw [← (walkOp_cases hv).1, (walkOp_cases hop).1]
        exact hidle
    · exact .inr ⟨u, hr, hb, hop, hstate, hcap⟩

theorem inv_step_busy {s : State} (h : Inv s) (hr : s.rst = false) (hb : busy s = true) :
    ∃ t, step s = .next t ∧ Inv t := by
  obtain ⟨pos, endPos, hv⟩ | ⟨u, hw⟩ := h.program_cases hr hb
  · exact inv_step_varint h hr hb hv
  · exact inv_step_tag h hw

/-! ### A step of an idle block -/

theorem inv_startWalk {u : WalkUnit} {op : BitVec 4} {s : State} (h : Sound s)
    (hop : op = walkOp u ∨ op = 11#4 ∧ u = .dp) : Inv (startWalk u s.cmd.a0 (beginCommand op s)) := by
  have hstart := (h.beginCommand op).setWalk u (w := { walkRegs u (beginCommand op s) with
    state := .idle, pc := 0, endPos := s.cmd.a0, cause := 0 }) (two_pow_posW_pos _) h.width.a0
  obtain ⟨hstorage, hwidth, hport⟩ := hstart.with_vd ⟨0, 0⟩
  refine ⟨hstorage, .inl ⟨.inr (.inl ?_), ?_⟩, hwidth, ?_, hport⟩
  · simp
  · simp
  · rw [programOk_iff (by simp [busy, statusBusy])]
    obtain rfl | ⟨rfl, rfl⟩ := hop
    · exact .inr ⟨u, by simp, .inl (by cases u <;> simp [startWalk, startVarint])⟩
    · exact .inl (by simp [startWalk, startVarint])

theorem inv_startVarint {s : State} (h : Sound s) : Inv (startVarint (beginCommand 2#4 s)) := by
  obtain ⟨hstorage, hwidth, hport⟩ := (h.beginCommand 2#4).with_vd ⟨0, 0⟩
  exact ⟨hstorage, .inl ⟨.inr (.inl rfl), rfl, rfl, rfl, rfl, rfl⟩, hwidth, fun _ => .inl ⟨rfl, Nat.zero_le 4⟩, hport⟩

/-- What a command pushed and counted fits. -/
theorem PushRun.sound {i : Instr} {s u : State} (h : PushRun i s u) (hs : Sound s) : Sound u := by
  obtain ⟨op, ep, bs, hzero, push⟩ := h.push
  have h0 := two_pow_posW_pos s.params
  have hcount : u.ep.count < 2 ^ s.params.posW := push.fits (by simp only [hzero]; exact h0)
  obtain ⟨h1, h2, h3, h4, h5, h6, h7, -, h9, h10, h11, h12⟩ := (hs.beginCommand op).width
  refine hs.of_kept ?_ push.params push.port push.inMem push.frame ?_ h.table
  · constructor <;> rw [push.params] <;> simp only [push.cmd, push.rsp, push.dp, push.fv] <;> assumption
  · rw [push.out]
    exact id

theorem CommandStep.inv {i : Instr} {s t : State} (h : CommandStep s i t) (hs : Sound s) : Inv t := by
  cases h with
  | turnedAway i op => exact inv_completeBadCommand (hs.beginCommand op)
  | pushed run => exact inv_completeNormal _ _ _ _ (run.sound hs)
  | returned op => exact inv_completeNormal _ _ _ _ ((hs.beginCommand op).with_td _)
  | tagCut td => exact inv_raiseMalformed (by decide) ((hs.beginCommand 5#4).with_td td)
  | varintDec _ => exact inv_startVarint hs
  | uncompress => exact inv_startWalk hs (.inl rfl)
  | getUlen => exact inv_startWalk hs (.inr ⟨rfl, rfl⟩)
  | isValid => exact inv_startWalk hs (.inl rfl)

/-- A change of the arguments or the storage of an idle block, inside their bounds, keeps the invariant. -/
theorem Inv.of_host {s t : State} (h : Inv s) (hb : busy s = false) (hstorage : StorageOk t)
    (hwidth : WidthOk t) (hp : t.params = s.params) (hport : ∀ m ∈ t.port, m ∈ s.port) (hr : t.rsp = s.rsp)
    (hop : t.cmd.op = s.cmd.op) : Inv t := by
  refine ⟨hstorage, ?_, hwidth, programOk_of_not_busy (by rwa [busy, hr]), fun m hm => ?_⟩
  · have hresp := h.response
    unfold ResponseOk at hresp ⊢
    rwa [hr, hop]
  · exact (h.port m (hport m hm)).of_params hp

theorem inv_hostMove {m : HostMove} {s : State} (h : Inv s) (hb : busy s = false) (hm : HostMoveOk s m) :
    ∃ t, hostMove m s = .next t ∧ Inv t := by
  obtain ⟨hin, hframe, hout, hht⟩ := h.storage
  obtain ⟨h1, h2, h3, h4, h5, h6, h7, h8, h9, h10, h11, h12⟩ := h.width
  have ha {v : Nat} : toPos s.params v < 2 ^ s.params.posW := toPos_lt _ _
  cases m with
  | writeOp op =>
    obtain ⟨t, ht, hstep⟩ := exec_command (encode_decodeOp op).2.1 s
    exact ⟨t, ht, hstep.inv h.sound⟩
  | writeA0 v =>
    exact ⟨_, rfl, h.of_host hb ⟨hin, hframe, hout, hht⟩ ⟨ha, h2, h3, h4, h5, h6, h7, h8, h9, h10, h11, h12⟩ rfl
      (fun _ => id) rfl rfl⟩
  | writeA1 v =>
    exact ⟨_, rfl, h.of_host hb ⟨hin, hframe, hout, hht⟩ ⟨h1, ha, h3, h4, h5, h6, h7, h8, h9, h10, h11, h12⟩ rfl
      (fun _ => id) rfl rfl⟩
  | writeA2 v =>
    exact ⟨_, rfl, h.of_host hb ⟨hin, hframe, hout, hht⟩ ⟨h1, h2, ha, h4, h5, h6, h7, h8, h9, h10, h11, h12⟩ rfl
      (fun _ => id) rfl rfl⟩
  | storeIn a b =>
    exact ⟨_, rfl, h.of_host hb ⟨cellsWf_set b hin a.isLt, hframe, hout, hht⟩
      ⟨h1, h2, h3, h4, h5, h6, h7, h8, h9, h10, h11, h12⟩ rfl (fun _ => id) rfl rfl⟩
  | storeFrame a b =>
    exact ⟨_, if_pos hm, h.of_host hb ⟨hin, cellsWf_set b hframe hm, hout, hht⟩
      ⟨h1, h2, h3, h4, h5, h6, h7, h8, h9, h10, h11, h12⟩ rfl (fun _ => id) rfl rfl⟩
  | storeOut a b =>
    exact ⟨_, if_pos hm, h.of_host hb ⟨hin, hframe, cellsWf_set b hout hm, hht⟩
      ⟨h1, h2, h3, h4, h5, h6, h7, h8, h9, h10, h11, h12⟩ rfl (fun _ => id) rfl rfl⟩

theorem inv_stepIdle {s : State} (h : Inv s) (hb : busy s = false) : ∃ t, stepIdle s = .next t ∧ Inv t := by
  unfold stepIdle
  split
  case h_1 => exact ⟨s, rfl, h⟩
  case h_2 m rest hport =>
    have hrest : Inv { s with port := rest } :=
      h.of_host hb ⟨h.storage.inMem, h.storage.frame, h.storage.out, h.storage.ht⟩ ⟨h.width.a0, h.width.a1, h.width.a2, h.width.r0, h.width.r1, h.width.r2, h.width.r3,
        h.width.count, h.width.dpPc, h.width.dpEnd, h.width.fvPc, h.width.fvEnd⟩ rfl
        (fun m' hm' => hport ▸ List.mem_cons_of_mem m hm') rfl rfl
    exact inv_hostMove hrest hb ((h.port m (hport ▸ List.mem_cons_self)).of_params rfl)

/-- Settles O3: a reset, a step of the command in progress and a move of the host each answer and keep the invariant. -/
theorem everyStepAnswersAndKeepsTheInvariant : Obligations.EveryStepAnswersAndKeepsTheInvariant := by
  intro s h
  by_cases hr : s.rst = true
  · exact ⟨_, if_pos hr, inv_applyReset h.storage⟩
  rw [Bool.not_eq_true] at hr
  cases hb : busy s with
  | true => exact inv_step_busy h hr hb
  | false =>
    rw [step_idle hr hb]
    exact inv_stepIdle h hb

end Sys2Proof.Machine
end

section
/-! The preamble bytes and the tags, field by field (30_encoding.md R82 to R91). -/

namespace Sys2Proof.Machine

/-- Settles O6: each word is decoded. -/
theorem specifiedWordsDecode : Obligations.SpecifiedWordsDecode := ⟨rfl, rfl, rfl, rfl, rfl, rfl, rfl⟩

theorem decodeTag_copy1_eq {T : Byte} (h : T.toNat % 4 = 1) (r : List Byte) : decodeTag (T :: r) = decodeCopy1 T r := by
  rw [decodeTag_eq, if_pos h]

theorem decodeTag_copy2_eq {T : Byte} (h : T.toNat % 4 = 2) (r : List Byte) : decodeTag (T :: r) = decodeCopy2 T r := by
  rw [decodeTag_eq, if_neg (by omega), if_pos h]

theorem decodeTag_copy4_eq {T : Byte} (h : T.toNat % 4 = 3) (r : List Byte) : decodeTag (T :: r) = decodeCopy4 T r := by
  rw [decodeTag_eq, if_neg (by omega), if_neg (by omega), if_pos h]

theorem decodeTag_lit_eq {T : Byte} (h : T.toNat % 4 = 0) (hu : T.toNat / 4 ≤ 59) (r : List Byte) :
    decodeTag (T :: r) = .ok (.lit (tagUpper T), r) := by
  rw [decodeTag_eq, if_neg (by omega), if_neg (by omega), if_neg (by omega), if_pos hu]

theorem toNat_word_two (b₁ b₂ : Byte) : (BitVec.ofNat 16 (leNat [b₁, b₂])).toNat = b₁.toNat + 256 * b₂.toNat :=
  toNat_ofNat_leNat rfl

theorem toNat_word_three (b₁ b₂ b₃ : Byte) :
    (BitVec.ofNat 24 (leNat [b₁, b₂, b₃])).toNat = b₁.toNat + 256 * b₂.toNat + 65536 * b₃.toNat := by
  have h : (BitVec.ofNat 24 (leNat [b₁, b₂, b₃])).toNat = leNat [b₁, b₂, b₃] := toNat_ofNat_leNat rfl
  rw [h]
  simp only [leNat]
  omega

theorem toNat_word_four (b₁ b₂ b₃ b₄ : Byte) :
    (BitVec.ofNat 32 (leNat [b₁, b₂, b₃, b₄])).toNat =
      b₁.toNat + 256 * b₂.toNat + 65536 * b₃.toNat + 16777216 * b₄.toNat := by
  have h : (BitVec.ofNat 32 (leNat [b₁, b₂, b₃, b₄])).toNat = leNat [b₁, b₂, b₃, b₄] := toNat_ofNat_leNat rfl
  rw [h]
  simp only [leNat]
  omega

/-- Settles O9: the preamble's bit 7, then the short literals, the four long ones, and the three copies. -/
theorem encodedFieldsAreTheOperands : Obligations.EncodedFieldsAreTheOperands := by
  refine ⟨fun b r => ⟨fun h => ?_, fun h => ?_⟩, fun T r h hu => ?_, fun b₁ b₂ b₃ b₄ r => ⟨?_, ?_, ?_, ?_⟩,
    fun T b₁ b₂ b₃ b₄ r => ⟨fun h => ?_, fun h => ?_, fun h => ?_⟩⟩
  · have hb := b.isLt
    exact ⟨b.extractLsb' 0 7, by rw [decode, decodePreamble_eq, if_pos h], by simp; omega⟩
  · exact ⟨b.extractLsb' 0 7, by rw [decode, decodePreamble_eq, if_neg (by omega)], by simp; omega⟩
  · exact ⟨_, decodeTag_lit_eq h hu r, by rw [tagFields, literalFields, tagUpper_toNat]⟩
  · exact ⟨_, rfl, rfl⟩
  · exact ⟨_, rfl, by rw [tagFields, literalFields, toNat_word_two]⟩
  · exact ⟨_, rfl, by rw [tagFields, literalFields, toNat_word_three]⟩
  · exact ⟨_, rfl, by rw [tagFields, literalFields, toNat_word_four]⟩
  · have hT := T.isLt
    have hb := b₁.isLt
    have hlen : (T.extractLsb' 2 3).toNat = T.toNat / 4 % 8 := by simp [Nat.shiftRight_eq_div_pow]
    have hhigh : (T.extractLsb' 5 3).toNat = T.toNat / 32 := by simp [Nat.shiftRight_eq_div_pow]; omega
    refine ⟨_, _, decodeTag_copy1_eq h _, ?_⟩
    rw [tagFields, copy1Fields, hlen, hhigh, toNat_ofNat_of_lt (by omega)]
  · refine ⟨_, _, decodeTag_copy2_eq h _, ?_⟩
    rw [tagFields, copy2Fields, tagUpper_toNat, toNat_word_two]
  · refine ⟨_, _, decodeTag_copy4_eq h _, ?_⟩
    rw [tagFields, copy4Fields, tagUpper_toNat, toNat_word_four]

/-! ### The header length -/

/-- With a tag byte there, the only thing that can be missing is the rest of its header. -/
theorem decodeTag_error {T : Byte} {r : List Byte} {e : DecodeError} (h : decodeTag (T :: r) = .error e) :
    e = .headerTruncated := by
  rw [decodeTag_eq] at h
  simp only [decodeCopy1, decodeCopy2, decodeCopy4, decodeLit1, decodeLit2, decodeLit3, decodeLit4] at h
  repeat' split at h
  all_goals cases h
  all_goals rfl

theorem encode_length_of_decodeTag {T : Byte} {r rest : List Byte} {i : Instr} (h : decodeTag (T :: r) = .ok (i, rest)) :
    (encode i).length = headerLen T ∧ (encode i).length ≤ r.length + 1 := by
  obtain ⟨hw, hc, he⟩ := encode_decodeTag h
  obtain ⟨b, bs, hb, -, hlen⟩ := encodedLength_tag hc hw
  obtain rfl : b = T := by
    rw [hb] at he
    exact (List.cons.inj he).1
  have hle := congrArg List.length he
  rw [List.length_append, List.length_cons] at hle
  exact ⟨by rw [hlen, if_pos hc], by omega⟩

/-- Settles O10: the header of as many bytes decodes and leaves the rest; a decoded tag is as long as its header. -/
theorem tagByteGivesTheHeaderLength : Obligations.TagByteGivesTheHeaderLength := by
  intro T r
  refine ⟨headerLen_eq T, fun h => ?_, fun h => ?_⟩
  · have hpos := headerLen_pos T
    obtain ⟨i, hi, hc⟩ := decodeTag_ok T (r.take (headerLen T - 1)) (by rw [List.length_take]; omega)
    obtain ⟨hw, -, he⟩ := encode_decodeTag hi
    rw [List.append_nil] at he
    refine ⟨i, ?_, (encode_length_of_decodeTag hi).1⟩
    rw [decode, ← decodeTag_encode hw hc, he, List.cons_append, List.take_append_drop]
  · cases hd : decodeTag (T :: r) with
    | error e => exact hd.trans (congrArg _ (decodeTag_error hd))
    | ok p =>
      have := encode_length_of_decodeTag (i := p.1) (rest := p.2) hd
      omega

/-! ### Parsing what was emitted -/

theorem oneCopyBytes_length {offset len : Nat} (h : 4 ≤ len) :
    (oneCopyBytes offset len).length =
      if len ≤ 11 ∧ offset < 2048 then 2 else if offset < 65536 then 3 else 5 := by
  simp only [oneCopyBytes, h, true_and, Config.copy1OffLimit, Config.copy2OffLimit]
  split_ifs <;> simp

/-- Settles O28: what is emitted is the encoding of a tag with these fields, and that decodes to itself. -/
theorem parseInvertsEmit : Obligations.ParseInvertsEmit := by
  refine ⟨fun runLen rest h1 h2 => ?_, fun offset len rest h1 h2 h4 h64 => ?_⟩
  · obtain ⟨i, hi, hw, hc, hf⟩ := literalHeader_encode runLen h1 h2
    exact ⟨i, by rw [hi]; exact decodeTag_encode hw hc rest, hf⟩
  · obtain ⟨i, hi, hw, hc, hf⟩ := oneCopyBytes_encode offset len h2 h4 h64
    exact ⟨i, by rw [hi]; exact decodeTag_encode hw hc rest, hf, oneCopyBytes_length h4⟩

end Sys2Proof.Machine
end

section
/-! What a step is: reset, a move of the host, the next instruction of the command in progress. -/

namespace Sys2Proof.Machine

/-- Settles O1: a step under reset is `applyReset`, which sets each register. -/
theorem resetLeavesTheSpecifiedValues : Obligations.ResetLeavesTheSpecifiedValues := by
  refine ⟨fun s hr => ⟨applyReset s, if_pos hr, ?_⟩, ?_⟩
  · exact ⟨rfl, rfl, rfl, rfl, rfl, rfl, rfl, rfl, rfl, rfl, rfl, rfl, .rfl', .rfl', .rfl'⟩
  · exact ⟨rfl, rfl, rfl, rfl, rfl, rfl, rfl, rfl, rfl, rfl⟩

/-- Settles O15: `RSP_STATUS` is its four bits. -/
theorem hostReadsTheResponseRegisters : Obligations.HostReadsTheResponseRegisters := by
  intro s
  refine ⟨⟨_, rfl, ?_⟩, ⟨_, rfl, rfl⟩, rfl, rfl, rfl, rfl, fun n hn => ?_⟩
  · have hbits : ∀ v : BitVec 4, v.toNat = (v.getLsbD 0).toNat + 2 * (v.getLsbD 1).toNat + 4 * (v.getLsbD 2).toNat +
        8 * (v.getLsbD 3).toNat := by decide
    exact hbits s.rsp.status
  · unfold hostRead
    split
    case h_7 => rfl
    all_goals omega

/-- Settles O16: the sixteen codes by computation; a reserved one completes at once. -/
theorem operationCodesSelectTheCommands : Obligations.OperationCodesSelectTheCommands :=
  ⟨rfl, fun _ => ⟨rfl, rfl, rfl, rfl⟩⟩

/-- Settles O49: each start writes its unit's registers and the varint decoder's. -/
theorem fetchingCommandsStart : Obligations.FetchingCommandsStart := fun s =>
  ⟨rfl, rfl, rfl, fun h => if_pos ((rangeArgs_iff (beginCommand 2#4 s).cmd).2 h)⟩

/-! ### Moves of the host -/

theorem step_idle_cons {s : State} {m : HostMove} {rest : List HostMove} (hr : s.rst = false) (hb : busy s = false)
    (hp : s.port = m :: rest) : step s = hostMove m { s with port := rest } := by
  rw [step_idle hr hb, stepIdle, hp]

/-- Settles O14: each move is one update of the state, and a store is one write of its space. -/
theorem idleBlockAcceptsTheOldestMove : Obligations.IdleBlockAcceptsTheOldestMove := by
  intro s hr hb
  have hmove {m rest} (hp : s.port = m :: rest) := step_idle_cons hr hb hp
  refine ⟨fun hp => ?_, fun v rest hp => hmove hp, fun v rest hp => hmove hp, fun v rest hp => hmove hp,
    fun a b rest hp => ?_, fun a b rest hp ha => ?_, fun a b rest hp ha => ?_⟩
  · rw [step_idle hr hb, stepIdle, hp]
  · exact ⟨_, hmove hp, cellGet_set_same _ _ _, fun x hx => cellGet_set_other _ _ hx⟩
  · exact ⟨_, (hmove hp).trans (if_pos ha), cellGet_set_same _ _ _, fun x hx => cellGet_set_other _ _ hx⟩
  · exact ⟨_, (hmove hp).trans (if_pos ha), cellGet_set_same _ _ _, fun x hx => cellGet_set_other _ _ hx⟩

/-! ### The program of the command in progress -/

/-- Settles O5: the two definitions, one branch for each command. -/
theorem eachCommandFetchesFromItsProgram : Obligations.EachCommandFetchesFromItsProgram := by
  intro s
  refine ⟨fun hop => ?_, fun hop hidle => ?_, fun hop hidle => ?_, fun hop htag => ?_, fun hop htag => ?_⟩
  · simp [varintRange, hop]
  · rcases hop with hop | hop <;> simp [varintRange, hop, hidle]
  · simp [varintRange, hop, hidle]
  · simp [varintRange, taggingUnit, hop, htag]
  · simp [varintRange, taggingUnit, hop, htag]

theorem decode_command_eq (op : BitVec 4) : decode .command [BitVec.ofNat 8 op.toNat] = .ok (decodeOp op, []) := by
  revert op
  decide

/-- Where the bytes of a tag stand before the end, a step of the tag loop runs it (44_lz_decoder.md R213). -/
theorem step_tagging_of_decode {s : State} {u : WalkUnit} {n : Nat} {i : Instr} (hr : s.rst = false)
    (hb : busy s = true) (hu : taggingUnit s = some u) (hn : 1 ≤ n) (he : (walkRegs u s).pc + n ≤ (walkRegs u s).endPos)
    (hd : decode .tag (cellRange s.frame (walkRegs u s).pc n) = .ok (i, [])) : WellFormed i ∧ step s = exec i s := by
  obtain ⟨hw, hc, henc⟩ := encodeInvertsDecode .tag _ _ i hd
  rw [List.append_nil] at henc
  have hlen : (encode i).length = n := by rw [henc, cellRange_length]
  have hholds : HoldsAt (cellGet s.frame) (walkRegs u s).pc (encode i) := by
    rw [HoldsAt, hlen, henc, cellRange_eq]
  refine ⟨hw, ?_⟩
  rw [step_tagging hr hb hu, stepTag, if_pos (by omega), fetchTag_encode hw hc hholds (by omega)]

/-- Settles O4: the op code the host writes, the byte of a varint, the tag at the cursor. -/
theorem stepRunsTheDecodedInstruction : Obligations.StepRunsTheDecodedInstruction := by
  intro s hr
  refine ⟨fun op rest i hb hp hd => ?_, fun pos endPos i hb hv hlt hd => ?_, fun u n i hb hu hn he hd => ?_⟩
  · rw [decode_command_eq] at hd
    cases hd
    exact step_idle_cons hr hb hp
  · cases hd
    rw [step_varint hr hb hv, if_neg (by omega)]
  · exact step_tagging_of_decode hr hb hu hn he hd

/-! ### What a step of the command in progress leaves -/

theorem fetchKept_endOfFrame {s : State} {u : WalkUnit} (hu : activeUnit s = u) : FetchKept s (endOfFrame u s) := by
  subst hu
  unfold endOfFrame
  by_cases hpd : (walkRegs (activeUnit s) s).produced = (walkRegs (activeUnit s) s).declared
  · have hdone := fetchKept_setWalk { walkRegs (activeUnit s) s with state := .done } s
    rw [if_pos hpd]
    dsimp only
    split
    · exact hdone.trans (fetchKept_completeNormal ..)
    · exact hdone.trans (fetchKept_completeNormal ..)
  · rw [if_neg hpd]
    exact (raised_raiseMalformed ..).fetchKept

/-- Every step of a command in progress is a fetched instruction, an error or the end of the frame. -/
theorem fetchKept_step {s t : State} (hr : s.rst = false) (hb : busy s = true) (h : step s = .next t) :
    FetchKept s t := by
  rw [step_busy hr hb, stepBusy] at h
  split at h
  · next pos endPos hv =>
    rw [← show stepBusy s = stepVarint pos endPos s by rw [stepBusy, hv], ← step_busy hr hb, step_varint hr hb hv] at h
    split at h
    · cases h
      exact (raised_raiseMalformed ..).fetchKept
    · exact fetchKept_of_exec (by rw [(encode_decodePreamble _).2.1]; decide) h
  split at h
  · next u hu =>
    obtain ⟨hop, hstate⟩ := of_tagging hu
    unfold stepTag at h
    dsimp only at h
    split at h
    · split at h
      · cases h
      · cases h
        exact (raised_noteKind ..).fetchKept
      · next hfetch => exact fetchKept_of_exec (by rw [fetchTag_context hfetch]; decide) h
    · cases h
      exact fetchKept_endOfFrame (tagging_of hop hstate).2.2
  · cases h

theorem cmdRegs_eq {c d : CmdRegs} (hop : c.op = d.op) (h0 : c.a0 = d.a0) (h1 : c.a1 = d.a1) (h2 : c.a2 = d.a2) :
    c = d := by
  cases c
  cases d
  simp_all

theorem FetchKept.cmd {s t : State} (h : FetchKept s t) : t.cmd = s.cmd :=
  cmdRegs_eq h.op h.host.a0 h.host.a1 h.host.a2

/-- Settles O13: no step of a command in progress touches what the host owns, or the op code. -/
theorem busyBlockHoldsThePort : Obligations.BusyBlockHoldsThePort := by
  intro s t hr hb h
  have hk := fetchKept_step hr hb h
  exact ⟨hk.host.port, hk.cmd⟩

end Sys2Proof.Machine
end

section
/-! The varint of a command: how its preamble ends, the round trip, and the two commands that return it (40_varint.md
R116, R118; 44_lz_decoder.md R211, R225). -/

namespace Sys2Proof.Machine

/-! ### The end of a walk's preamble -/

/-- Settles O20: the last group is taken, and the unit in progress goes to its tags or fails the cap. -/
theorem preambleEndsInTagsOrLengthCap : Obligations.PreambleEndsInTagsOrLengthCap := by
  intro g s u hi hlast hop
  have hop' : s.cmd.op = walkOp u := by
    rcases hop with ⟨h, rfl⟩ | ⟨h, rfl⟩ <;> exact h
  obtain ⟨hu, h2, h11⟩ := walkOp_cases hop'
  have hends := exec_vlast_ends (s := s) (g := g) fun h => hlast ⟨by omega, h.2⟩
  have hdone : varintDone (takeGroup g s) = preambleDone u (takeGroup g s) := by
    unfold varintDone
    rw [if_neg (by exact h2), if_neg (by exact h11), ← hu]
    rfl
  rw [hends, hdone, preambleDone, walkRegs_takeGroup, takeGroup_eq]
  refine ⟨fun hcap => congrArg _ (if_neg (Nat.not_lt.2 hcap)), fun hcap => ⟨_, congrArg _ (if_pos hcap), ?_⟩⟩
  exact ⟨raised_raiseMalformed _ _, raiseMalformed_td _ _⟩

/-! ### The round trip -/

/-- The encoding is the shortest: a value of `k` groups takes at most `k` bytes. -/
theorem varintBytes_length_le (fuel : Nat) {v k : Nat} (hk : 1 ≤ k) (hv : v < 128 ^ k) :
    (varintBytes fuel v).length ≤ k := by
  induction fuel generalizing v k with
  | zero => exact hk
  | succ fuel ih =>
    rcases Nat.lt_or_ge v 128 with h | h
    · rw [varintBytes_of_lt _ h]
      exact hk
    · obtain ⟨k, rfl⟩ : ∃ j, k = j + 1 := ⟨k - 1, by omega⟩
      have hk' : 1 ≤ k := by
        by_contra h0
        obtain rfl : k = 0 := by omega
        omega
      have := ih hk' (Nat.div_lt_of_lt_mul (by rwa [pow_succ'] at hv))
      rw [varintBytes_of_ge _ h, List.length_cons]
      omega

/-- Bytes are determined by their continuation bits and the value of their groups. -/
theorem eq_of_groupsValue {as bs : List Byte} (hl : as.length = bs.length)
    (hbit : ∀ j (h : j < as.length), as[j].toNat / 128 = bs[j].toNat / 128) (hv : groupsValue as = groupsValue bs) :
    as = bs := by
  induction as generalizing bs with
  | nil => exact (List.length_eq_zero_iff.1 hl.symm).symm
  | cons a as ih =>
    cases bs with
    | nil => cases hl
    | cons b bs =>
      have hbit0 : a.toNat / 128 = b.toNat / 128 := hbit 0 (Nat.zero_lt_succ _)
      rw [groupsValue_cons, groupsValue_cons] at hv
      have htail := ih (Nat.succ.inj hl) (fun j hj => hbit (j + 1) (Nat.succ_lt_succ hj)) (by omega)
      rw [htail, BitVec.eq_of_toNat_eq (x := a) (y := b) (by omega)]

/-- Settles O24: what is encoded reads back, and the encoding is the one shortest sequence with its value. -/
theorem varintsRoundTrip : Obligations.VarintsRoundTrip := by
  refine ⟨fun rd pos endPos v hv he h => varintDecode_of_holdsAt hv he (holdsAt_iff.2 h), fun rd pos endPos v k h => ?_⟩
  obtain ⟨h1, -, -, hbytes, hval, hv⟩ := (varintDecodeAcceptsExactlyTheVarints ..).1 h
  replace hval : v = varintValue rd pos k := hval
  refine ⟨varintBytes_length_le 4 h1 (hval ▸ varintValue_lt k), fun hlen => ?_, fun heq => ?_⟩
  · refine eq_of_groupsValue (by rw [bytesFrom_length, hlen]) (fun j hj => ?_) ?_
    · rw [bytesFrom_length] at hj
      have hbit : (varintEncode v)[j].toNat / 128 = if j + 1 = (varintEncode v).length then 0 else 1 :=
        varintBytes_bit7 4 v j (hlen ▸ hj)
      have hlast := hbytes j hj
      rw [hbit, bytesFrom_getElem, hlen]
      split <;> omega
    · have henc : groupsValue (varintEncode v) = v := groupsValue_varintBytes 4 v (by omega)
      rw [henc, groupsValue_bytesFrom, hval]
  · rw [← heq, bytesFrom_length]

/-! ### VARINT_DEC and GET_ULEN -/

/-- The response of a command that ends with its varint (40_varint.md R116, 44_lz_decoder.md R225). -/
def varintResponse (op : BitVec 4) : Except Cause (Nat × Nat) → RspRegs
  | .ok (v, k) => ⟨statusDone, 0, v, if op = 2#4 then k else 0, 0, 0⟩
  | .error c => ⟨statusMalformed, causeCode c, 0, 0, 0, 0⟩

/-- A command that ends with its varint keeps all but the response, the varint decoder and the state of its unit. -/
structure VarintKept (s t : State) : Prop extends FetchKept s t where
  td : t.td = s.td
  sameOut : SameBytes s.out t.out
  pc : t.dp.pc = s.dp.pc
  dp2 : s.cmd.op = 2#4 → t.dp = s.dp

theorem completes_varint {s : State} {pos endPos : Nat} (hr : s.rst = false) (hb : busy s = true)
    (hv : varintRange s = some (pos, endPos)) (hop : s.cmd.op = 2#4 ∨ s.cmd.op = 11#4) :
    ∃ t, Completes (startVarint s) t ∧
      t.rsp = varintResponse s.cmd.op (varintDecode (cellGet s.frame) pos endPos) ∧ VarintKept (startVarint s) t := by
  have h12 : s.cmd.op ≠ 12#4 := by rcases hop with h | h <;> rw [h] <;> decide
  cases hd : varintDecode (cellGet s.frame) pos endPos with
  | error c =>
    obtain ⟨k, hcomp⟩ := completes_of_varintDecode_error hr hb hv hd
    have hraised := raised_raiseMalformed c (afterGroups pos k s)
    have hgroups : FetchKept (startVarint s) (afterGroups pos k s) :=
      ⟨⟨rfl, rfl, rfl, rfl, rfl, rfl, .rfl', .rfl'⟩, ⟨rfl, rfl, rfl, rfl, rfl, rfl⟩, rfl, fun _ => rfl, fun _ => rfl,
        fun _ => .rfl'⟩
    refine ⟨_, hcomp, ?_, hgroups.trans hraised.fetchKept, raiseMalformed_td _ _, hraised.out, ?_, fun h2 => ?_⟩
    · rw [hraised.rsp, if_neg (by exact h12)]
      rfl
    · rw [hraised.dp]
      split <;> rfl
    · rw [hraised.dp]
      exact if_neg (by rw [show (afterGroups pos k s).cmd.op = 2#4 from h2]; decide)
  | ok vk =>
    obtain ⟨v, k⟩ := vk
    obtain ⟨-, hk, -, -, -, hlt⟩ := (varintDecodeAcceptsExactlyTheVarints ..).1 hd
    have hval : (BitVec.ofNat 32 v).toNat = v := toNat_ofNat_of_lt hlt
    have hlen : (BitVec.ofNat 3 k).toNat = k := toNat_ofNat_of_lt (by omega)
    have hdone := varintDone_returns (s := { s with vd := ⟨BitVec.ofNat 32 v, BitVec.ofNat 3 k⟩ }) hop
    have hidle : busy (varintDone { s with vd := ⟨BitVec.ofNat 32 v, BitVec.ofNat 3 k⟩ }) = false := by
      rw [hdone]
      simp [busy, statusDone]
    have hcomp := completes_of_varintDecode hr hb hv hd (.here hidle)
    rw [hdone] at hcomp
    refine ⟨_, hcomp, by simp only [hval, hlen]; rfl, ?_⟩
    exact ⟨⟨⟨rfl, rfl, rfl, rfl, rfl, rfl, .rfl', .rfl'⟩, ⟨rfl, rfl, rfl, rfl, rfl, rfl⟩, rfl, fun _ => rfl,
      fun _ => rfl, fun _ => .rfl'⟩, rfl, .rfl', rfl, fun _ => rfl⟩

theorem exec_varintDec {s : State} (h : s.cmd.a0 ≤ s.cmd.a1) :
    exec .varintDec s = .next (startVarint (beginCommand 2#4 s)) := if_pos ((rangeArgs_iff (beginCommand 2#4 s).cmd).2 h)

/-- Settles O25: the range is that of the arguments, and the command ends with its varint. -/
theorem varintDecCompletesWithTheDecodedValue : Obligations.VarintDecCompletesWithTheDecodedValue := by
  intro s hr hrange
  obtain ⟨t, hcomp, hrsp, hkept⟩ := completes_varint (s := beginCommand 2#4 s) (pos := s.cmd.a0) (endPos := s.cmd.a1)
    hr (by simp [busy, statusBusy]) (by simp [varintRange]) (.inl rfl)
  obtain ⟨hhost, hencoder⟩ := start_kept rfl (by decide) (exec_varintDec hrange)
  refine ⟨_, t, exec_varintDec hrange, hcomp, ?_, hhost.trans hkept.host, hencoder.trans hkept.encoder, hkept.td, hkept.dp2 rfl, hkept.fv (by simp),
    hkept.sameOut⟩
  rw [hrsp, beginCommand_frame]
  cases varintDecode (cellGet s.frame) s.cmd.a0 s.cmd.a1 <;> rfl

/-- Settles O51: the range is the frame, and the command ends with its varint. -/
theorem getUlenCompletesWithTheLength : Obligations.GetUlenCompletesWithTheLength := by
  intro s hr
  obtain ⟨t, hcomp, hrsp, hkept⟩ := completes_varint
    (s := setWalk .dp { s.dp with state := .idle, pc := 0, endPos := s.cmd.a0, cause := 0 } (beginCommand 11#4 s))
    (pos := 0) (endPos := s.cmd.a0) hr (by simp [busy, statusBusy]) (by simp [varintRange]) (.inr rfl)
  obtain ⟨hhost, hencoder⟩ := start_kept (i := .getUlen) (s := s) rfl (by decide) rfl
  refine ⟨_, t, rfl, hcomp, ?_, hkept.pc, hhost.trans hkept.host, hencoder.trans hkept.encoder, hkept.td, hkept.fv (by simp), hkept.sameOut⟩
  rw [hrsp]
  simp only [setWalk_frame, beginCommand_frame]
  cases varintDecode (cellGet s.frame) 0 s.cmd.a0 <;> rfl

/-- Settles O40: the frame begins with the varint of the length, and `GET_ULEN` returns what that decodes to. -/
theorem getUlenOfCompressIsTheLength : Obligations.GetUlenOfCompressIsTheLength := by
  intro s t u bs hn hexec hsink hr ha0 hframe
  obtain ⟨t', tags, hexec', hsink', -⟩ := compress_pushes hn
  obtain rfl : t' = t := by simpa using hexec'.symm.trans hexec
  obtain rfl : varintEncode s.cmd.a0 ++ tags = bs := List.append_cancel_left (hsink'.symm.trans hsink)
  have hholds : HoldsAt (cellGet u.frame) 0 (varintEncode s.cmd.a0 ++ tags) :=
    holdsAt_iff.2 fun j hj => by rw [Nat.zero_add, hframe j hj]
  rw [List.length_append] at ha0
  have hd := varintDecode_of_holdsAt (endPos := u.cmd.a0) hn (by omega) (holdsAt_append.1 hholds).1
  obtain ⟨u₀, v, hstart, hcomp, hrsp, -⟩ := getUlenCompletesWithTheLength u hr
  exact ⟨u₀, v, hstart, hcomp, by rw [hrsp, hd]⟩

end Sys2Proof.Machine
end

section
/-! The tags of a walk, one at a time: parsed, executed or failed, and the frame end (41_tag_codec.md R140, R141;
44_lz_decoder.md R212 to R222; 45_frame_validator.md R250). -/

namespace Sys2Proof.Machine

/-! ### TAG_PARSE -/

/-- What the command's start clears does not matter to an error. -/
theorem Raised.of_beginCommand {c : Cause} {op : BitVec 4} {s t : State} (h : Raised c (beginCommand op s) t) :
    Raised c { s with cmd := { s.cmd with op := op } } t :=
  ⟨⟨h.host.params, h.host.rst, h.host.port, h.host.a0, h.host.a1, h.host.a2, h.host.inMem, h.host.frame⟩,
    ⟨h.encoder.ve, h.encoder.te, h.encoder.hm, h.encoder.ep, h.encoder.ht, h.encoder.sink⟩,
    h.op, h.vd, h.out, h.dp, h.fv, h.rsp⟩

theorem exec_tagParse_of_fetch {s : State} {i : Instr} {f : TagFields} (h : s.cmd.a0 ≤ s.cmd.a1)
    (hfetch : fetchTag (beginCommand 5#4 s) s.cmd.a0 s.cmd.a1 = .ok (.instr i)) (hf : tagFields i = some f) :
    exec .tagParse s = .next (completeNormal f.kind f.len f.off f.hdr (noteTag f (beginCommand 5#4 s))) := by
  rw [exec, execTagParse, if_pos ((rangeArgs_iff (beginCommand 5#4 s).cmd).2 h)]
  simp only [beginCommand_cmd, hfetch, hf, Option.getD_some]

theorem exec_tagParse_of_cut {s : State} {T : Option Byte} (h : s.cmd.a0 ≤ s.cmd.a1)
    (hfetch : fetchTag (beginCommand 5#4 s) s.cmd.a0 s.cmd.a1 = .ok (.truncated T)) :
    exec .tagParse s = .next (raiseMalformed .tagTruncated (noteKind T (beginCommand 5#4 s))) := by
  rw [exec, execTagParse, if_pos ((rangeArgs_iff (beginCommand 5#4 s).cmd).2 h)]
  simp only [beginCommand_cmd, hfetch]

/-- Settles O29: the parser fetches the tag whose bytes decode, and its fields fit the result registers whole. -/
theorem tagParseReturnsTheFields : Obligations.TagParseReturnsTheFields := by
  intro s hrange
  obtain ⟨hempty, hcut, hinstr⟩ := fetchTag_eq (beginCommand 5#4 s) s.cmd.a0 s.cmd.a1
  rw [beginCommand_frame] at hcut hinstr
  refine ⟨fun i f hend hd hf => ?_, fun hend => ?_⟩
  · obtain ⟨j, hj, -, hfetch⟩ := hinstr hend
    obtain rfl : i = j := by simpa using hd.symm.trans hj
    obtain ⟨hkind, -, hlen, hoff, -, hhdr⟩ := tagFields_bounds hf
    refine ⟨_, exec_tagParse_of_fetch hrange hfetch hf, rfl, ?_, rfl, ⟨rfl, rfl, rfl, rfl, rfl, rfl, .rfl', .rfl'⟩,
      ⟨rfl, rfl, rfl, rfl, rfl, rfl⟩, rfl, rfl, rfl, .rfl'⟩
    rw [completeNormal_rsp, toPos_small (n := f.kind) (by omega), toPos_small (n := f.len) (by omega),
      toPos_small (n := f.off) (by omega), toPos_small (n := f.hdr) (by omega)]
    rfl
  · rcases Nat.lt_or_ge s.cmd.a0 s.cmd.a1 with hlt | hge
    · exact ⟨_, exec_tagParse_of_cut hrange (hcut hlt hend), (raised_noteKind ..).of_beginCommand⟩
    · exact ⟨_, exec_tagParse_of_cut hrange (hempty hge), (raised_noteKind ..).of_beginCommand⟩

/-! ### Tags that pass their checks -/

theorem exec_literal {i : Instr} {f : TagFields} (hf : tagFields i = some f) (hk : f.kind = 0) (s : State) :
    exec i s = literalTag f s := by rw [exec_tag hf, if_pos hk]

theorem exec_copy {i : Instr} {f : TagFields} (hf : tagFields i = some f) (hk : f.kind ≠ 0) (s : State) :
    exec i s = copyTag f s := by rw [exec_tag hf, if_neg hk]

theorem outLimit_eq {s : State} (h : s.dp.declared.toNat ≤ s.params.maxOutputLen.toNat) :
    outLimit s = s.dp.declared.toNat := Nat.min_eq_left h

theorem toNat_produced {w : WalkRegs} {len : Nat} (h : w.produced.toNat + len ≤ w.declared.toNat) :
    (BitVec.ofNat 32 (w.produced.toNat + len)).toNat = w.produced.toNat + len :=
  toNat_ofNat_of_lt (Nat.lt_of_le_of_lt h w.declared.isLt)

/-- An advance of either unit leaves the host's and the encoder's. -/
theorem hostKept_advance (u : WalkUnit) (len pc : Nat) (f : TagFields) (out : List Host.Cell) (s : State) :
    HostKept s (advance u len pc { noteTag f s with out := out }) ∧
      EncoderKept s (advance u len pc { noteTag f s with out := out }) := by
  refine ⟨?_, ?_⟩ <;> constructor <;> simp [SameBytes]

/-- Settles O41: the tag is a literal that passes, and its payload is written as one range. -/
theorem literalTagsMoveTheirPayload : Obligations.LiteralTagsMoveTheirPayload := by
  intro i f s hf hk hop hsrc hlen hcap
  have htag := literalTag_dp (f := f) (walkOp_cases (u := .dp) hop).1 hsrc (by rwa [outLimit_eq hcap])
  obtain ⟨hhost, hencoder⟩ := hostKept_advance .dp f.len (s.dp.pc + f.hdr + f.len) f
    (cellSetRange s.out s.dp.produced.toNat (cellRange s.frame (s.dp.pc + f.hdr) f.len)) s
  rw [← exec_literal hf hk] at htag
  refine ⟨_, htag, rfl, toNat_produced hlen, fun j hj => ?_, fun a ha => ?_,
    rfl, rfl, rfl, rfl, rfl, hhost, hencoder⟩
  · rw [advance_out, cellGet_setRange, dif_pos (by rw [cellRange_length]; omega), cellRange_getElem]
    congr 1
    omega
  · rw [advance_out, cellGet_setRange, dif_neg (by rw [cellRange_length]; omega)]

/-- What repeats the bytes `offset` back repeats the last `offset` of the bytes before it, over and over
(20_memory.md R60). -/
theorem get_of_repeats {out : Nat → Byte} {p offset len : Nat} (ho : 1 ≤ offset) (hop : offset ≤ p)
    (h : ∀ j, j < len → out (p + j) = out (p - offset + j)) :
    ∀ j, j < len → out (p + j) = out (p - offset + j % offset) := by
  intro j
  induction j using Nat.strong_induction_on with
  | _ j ih =>
    intro hj
    rw [h j hj]
    rcases Nat.lt_or_ge j offset with hlt | hge
    · rw [Nat.mod_eq_of_lt hlt]
    · have hback := ih (j - offset) (by omega) (by omega)
      rw [show p - offset + j = p + (j - offset) by omega, hback, ← Nat.mod_eq_sub_mod hge]

/-- A copy tag of `UNCOMPRESS` that passes writes its output alone, each byte the one `offset` back. -/
theorem copyTag_dp_repeats {f : TagFields} {s : State} (hop : s.cmd.op = 10#4) (hhdr : s.dp.pc + f.hdr ≤ s.dp.endPos)
    (ho : 1 ≤ f.off) (ho' : f.off ≤ s.dp.produced.toNat) (hlen : s.dp.produced.toNat + f.len ≤ s.dp.declared.toNat)
    (hcap : s.dp.declared.toNat ≤ s.params.maxOutputLen.toNat) :
    ∃ out, copyTag f s = .next (advance .dp f.len (s.dp.pc + f.hdr) { noteTag f s with out := out }) ∧
      (∀ a, a < s.dp.produced.toNat ∨ s.dp.produced.toNat + f.len ≤ a → cellGet out a = cellGet s.out a) ∧
      ∀ j, j < f.len →
        cellGet out (s.dp.produced.toNat + j) = cellGet out (s.dp.produced.toNat - f.off + j) := by
  rw [← outLimit_eq hcap] at hlen
  obtain ⟨out, hcopy, htag⟩ := copyTag_dp (f := f) (walkOp_cases (u := .dp) hop).1 hhdr ho ho' hlen
  obtain ⟨out', hcopy', hkept, hrepeat⟩ := copyForward_ok (outLimit s) f.len (s.dp.produced.toNat - f.off)
    s.dp.produced.toNat s.out (by omega) hlen
  obtain rfl : out = out' := by simpa using hcopy.symm.trans hcopy'
  exact ⟨out, htag, hkept, hrepeat⟩

/-- Settles O42: the tag is a copy that passes; its output repeats, and starts from bytes the copy leaves alone. -/
theorem copyTagsRepeatForward : Obligations.CopyTagsRepeatForward := by
  intro i f s hf hk hop hhdr ho ho' hlen hcap
  obtain ⟨out, htag, hkept, hrepeat⟩ := copyTag_dp_repeats hop hhdr ho ho' hlen hcap
  obtain ⟨hhost, hencoder⟩ := hostKept_advance .dp f.len (s.dp.pc + f.hdr) f out s
  rw [← exec_copy hf hk] at htag
  refine ⟨_, htag, rfl, toNat_produced hlen, fun j hj => ?_, fun a ha => ?_,
    rfl, rfl, rfl, rfl, rfl, hhost, hencoder⟩
  · have hmod : j % f.off < f.off := Nat.mod_lt _ ho
    rw [advance_out, get_of_repeats ho ho' hrepeat j hj]
    exact hkept _ (.inl (by omega))
  · rw [advance_out]
    exact hkept a ha

/-- Settles O43: the same two kinds of tag under the validator, whose moves are none. -/
theorem validatorMovesNoByte : Obligations.ValidatorMovesNoByte := by
  intro i f s hf hop hpc hoff hlen
  have hu := (walkOp_cases (u := .fv) hop).1
  have htag : exec i s = .next (advance .fv f.len (s.fv.pc + f.hdr + if f.kind = 0 then f.len else 0) (noteTag f s)) := by
    by_cases hk : f.kind = 0
    · rw [if_pos hk] at hpc
      rw [exec_literal hf hk, if_pos hk]
      exact literalTag_fv hu hpc hlen
    · obtain ⟨ho, ho'⟩ := hoff hk
      rw [if_neg hk] at hpc
      rw [exec_copy hf hk, if_neg hk]
      exact copyTag_fv hu hpc ho ho' hlen
  obtain ⟨hhost, hencoder⟩ := hostKept_advance .fv f.len (s.fv.pc + f.hdr + if f.kind = 0 then f.len else 0) f s.out s
  exact ⟨_, htag, rfl, toNat_produced hlen, .rfl', rfl, rfl, rfl, rfl, rfl, hhost, hencoder⟩

/-! ### Tags that fail -/

theorem exec_tag_cut {i : Instr} {f : TagFields} {s : State} {u : WalkUnit} (hf : tagFields i = some f)
    (hu : activeUnit s = u) (h : (walkRegs u s).endPos < (walkRegs u s).pc + f.hdr) :
    exec i s = .next (raiseTagTruncated f s) := by
  subst hu
  have hcut : headerCut f.hdr s = true := decide_eq_true h
  rw [exec_tag hf, literalTag, copyTag, if_pos hcut, if_pos hcut, ite_self]

/-- The first check a tag fails is its cause; the parser has written its registers by then (41_tag_codec.md R140). -/
theorem exec_tag_raises {i : Instr} {f : TagFields} {s : State} {u : WalkUnit} {c : Cause} (hf : tagFields i = some f)
    (hu : activeUnit s = u) (hhdr : (walkRegs u s).pc + f.hdr ≤ (walkRegs u s).endPos)
    (hc : tagCause f (walkRegs u s) = some c) : exec i s = .next (raiseMalformed c (noteTag f s)) := by
  subst hu
  have hcut : ¬ headerCut f.hdr s = true := by simpa [headerCut] using hhdr
  unfold tagCause at hc
  by_cases hk : f.kind = 0
  · rw [if_pos hk] at hc
    rw [exec_literal hf hk]
    simp only [literalTag, if_neg hcut, literalBody, activeUnit_noteTag, walkRegs_noteTag]
    split_ifs at hc ⊢ <;> cases hc <;> rfl
  · rw [if_neg hk] at hc
    rw [exec_copy hf hk]
    simp only [copyTag, if_neg hcut, copyBody, activeUnit_noteTag, walkRegs_noteTag]
    split_ifs at hc ⊢ <;> cases hc <;> rfl

/-- Settles O44: a cut header first, then the checks of `tagCause` in their order. -/
theorem tagErrorsComeInTheirOrder : Obligations.TagErrorsComeInTheirOrder := by
  intro i f s u hf hop
  have hop' : s.cmd.op = walkOp u := by
    rcases hop with ⟨h, rfl⟩ | ⟨h, rfl⟩ <;> exact h
  have hu := (walkOp_cases hop').1
  have raises {c : Cause} (hhdr : (walkRegs u s).pc + f.hdr ≤ (walkRegs u s).endPos)
      (hc : tagCause f (walkRegs u s) = some c) : ∃ t, exec i s = .next t ∧ Raised c s t ∧ t.td = tagRegs f :=
    ⟨_, exec_tag_raises hf hu hhdr hc, raised_noteTag .., raiseMalformed_td ..⟩
  refine ⟨fun h => ⟨_, exec_tag_cut hf hu h, raised_raiseTagTruncated f s, raiseMalformed_td ..⟩,
    fun hhdr hk => ⟨fun h => ?_, fun h1 h2 => ?_⟩, fun hhdr hk => ⟨fun h => ?_, fun h1 h2 => ?_, fun h1 h2 h3 => ?_⟩⟩
  · exact raises hhdr (by rw [tagCause, if_pos hk, if_pos h])
  · exact raises hhdr (by rw [tagCause, if_pos hk, if_neg (Nat.not_lt.2 h1), if_pos h2])
  · exact raises hhdr (by rw [tagCause, if_neg hk, if_pos h])
  · exact raises hhdr (by rw [tagCause, if_neg hk, if_neg (Nat.one_le_iff_ne_zero.1 h1), if_pos h2])
  · exact raises hhdr (by rw [tagCause, if_neg hk, if_neg (Nat.one_le_iff_ne_zero.1 h1), if_neg (Nat.not_lt.2 h2), if_pos h3])

/-- Settles O45: no byte of a varint is there, or the parser finds the header cut. -/
theorem missingBytesAreTruncation : Obligations.MissingBytesAreTruncation := by
  intro s hr hb
  refine ⟨fun pos endPos hv h => ?_, fun u _ hu hpc hcut => ?_⟩
  · exact ⟨_, by rw [step_varint hr hb hv, if_pos h], raised_raiseMalformed .., raiseMalformed_td ..⟩
  · have hfetch := (fetchTag_eq s (walkRegs u s).pc (walkRegs u s).endPos).2.1 hpc hcut
    exact ⟨_, by rw [step_tagging hr hb hu, stepTag, if_pos hpc, hfetch], raised_noteKind ..⟩

/-! ### The frame end -/

theorem step_frameEnd {s : State} {u : WalkUnit} (hr : s.rst = false) (hb : busy s = true) (hu : taggingUnit s = some u)
    (h : (walkRegs u s).endPos ≤ (walkRegs u s).pc) : step s = .next (endOfFrame u s) := by
  rw [step_tagging hr hb hu, stepTag, if_neg (by omega)]

theorem endOfFrame_mismatch {s : State} {u : WalkUnit} (h : (walkRegs u s).produced ≠ (walkRegs u s).declared) :
    endOfFrame u s = raiseMalformed .lengthMismatch s := if_neg h

theorem endOfFrame_match {s : State} {u : WalkUnit} (h : (walkRegs u s).produced = (walkRegs u s).declared) :
    endOfFrame u s =
      { setWalk u { walkRegs u s with state := .done } s with
          rsp := ⟨statusDone, 0, if u = .dp then (walkRegs u s).declared.toNat else 1, 0, 0, 0⟩ } := by
  rw [endOfFrame, if_pos h]
  cases u <;> simp [completeNormal]

/-- Settles O46: the step at the frame end is `endOfFrame`. -/
theorem frameEndCompletesOrMismatches : Obligations.FrameEndCompletesOrMismatches := by
  intro s u hr hb hop hstate hend
  rw [step_frameEnd hr hb (tagging_of hop hstate).1 hend]
  refine ⟨fun h => ?_, fun h => ⟨_, rfl, ?_⟩⟩
  · rw [endOfFrame_match h]
    rfl
  · rw [endOfFrame_mismatch h]
    exact raised_raiseMalformed ..

theorem endOfFrame_ends (u : WalkUnit) (s : State) : busy (endOfFrame u s) = false ∧ done (endOfFrame u s) = true := by
  by_cases h : (walkRegs u s).produced = (walkRegs u s).declared
  · rw [endOfFrame_match h]
    simp [busy, done, statusDone]
  · have hraised := raised_raiseMalformed .lengthMismatch s
    rw [endOfFrame_mismatch h]
    exact ⟨hraised.not_busy, hraised.done⟩

/-! ### The walk ends -/

theorem parseTag_len_pos {rd : Nat → Byte} {pos endPos : Nat} {f : TagFields} (h : parseTag rd pos endPos = some f) :
    1 ≤ f.len := by
  unfold parseTag at h
  split at h
  · cases h
  split at h
  · exact (tagFields_bounds h).2.1
  · cases h

theorem tagCause_ne_none {f : TagFields} {w : WalkRegs} {c : Cause} (h : tagCause f w = some c) : c ≠ .none := by
  unfold tagCause at h
  split_ifs at h <;> cases h <;> decide

/-- Under the invariant a unit among its tags is inside its bounds. -/
theorem Inv.walking {s : State} {u : WalkUnit} (h : Inv s) (hr : s.rst = false) (hb : busy s = true)
    (hu : taggingUnit s = some u) :
    Walking u s ∧ (walkRegs u s).pc ≤ (walkRegs u s).endPos ∧
      (walkRegs u s).produced.toNat ≤ (walkRegs u s).declared.toNat := by
  obtain ⟨hop, hstate⟩ := of_tagging hu
  have hop' : s.cmd.op = walkOp u := by
    rcases hop with ⟨h, rfl⟩ | ⟨h, rfl⟩ <;> exact h
  obtain ⟨hv, h2, h11⟩ := walkOp_cases hop'
  obtain ⟨-, hop2 | ⟨hop2, -⟩⟩ | ⟨v, hopv, hw⟩ := (programOk_iff hb).1 h.program
  · exact absurd hop2 h2
  · exact absurd hop2 h11
  · obtain rfl : v = u := (walkOp_cases hopv).1.symm.trans hv
    obtain ⟨hidle, -⟩ | ⟨-, hpc, hprod, hcap⟩ := hw
    · rw [hstate] at hidle
      cases hidle
    · exact ⟨⟨hr, hb, hop', hstate, hcap⟩, hpc, hprod⟩

/-- Settles O47: a tag that passes moves the cursor past its header and appends at least one byte; that it stays inside
its bounds is the invariant of the next state. -/
theorem everyTagMovesTheWalkForward : Obligations.EveryTagMovesTheWalkForward := by
  intro s u h hr hb hu hpc
  obtain ⟨hw, -, -⟩ := h.walking hr hb hu
  obtain ⟨-, t, hstep, ht⟩ | ⟨f, t, hparse, hhdr, hstep, ht⟩ := hw.step_tag hpc
  · exact ⟨t, hstep, .inl ⟨_, by decide, ht⟩⟩
  refine ⟨t, hstep, ?_⟩
  cases hcause : tagCause f (walkRegs u s) with
  | some c =>
    rw [hcause] at ht
    exact .inl ⟨c, tagCause_ne_none hcause, ht⟩
  | none =>
    rw [hcause] at ht
    obtain ⟨out, rfl⟩ := ht
    have hwalk := hw.advance f (pcAfter f (walkRegs u s)) out
    obtain ⟨t, hstep', hinv⟩ := everyStepAnswersAndKeepsTheInvariant s h
    cases hstep.symm.trans hstep'
    obtain ⟨-, hpc', hprod'⟩ := hinv.walking hwalk.rst hwalk.busy hwalk.tagging.1
    have hlen := parseTag_len_pos hparse
    have hregs := walkRegs_advance u f.len (pcAfter f (walkRegs u s)) f out s
    refine .inr ⟨hwalk.state, hwalk.busy, ?_, hpc', by rw [hregs], ?_, hprod', by rw [hregs]⟩
    · rw [hregs]
      simp only [pcAfter]
      omega
    · rw [hregs]
      simp only
      rw [toNat_produced (produced_le_of_tagCause hcause)]
      omega

/-- Settles O48, by induction on the bound: each tag that passes takes from both of its parts. -/
theorem walkEndsWithinItsBound : Obligations.WalkEndsWithinItsBound := by
  intro s u h hr hb hu
  induction hn : min ((walkRegs u s).endPos - (walkRegs u s).pc)
      ((walkRegs u s).declared.toNat - (walkRegs u s).produced.toNat) using Nat.strong_induction_on generalizing s with
  | _ n ih =>
    rcases Nat.lt_or_ge (walkRegs u s).pc (walkRegs u s).endPos with hpc | hpc
    · obtain ⟨t, hstep, ⟨c, -, hraised⟩ | ⟨hstate, hbt, hpc1, hpc2, hend, hprod1, hprod2, hdecl⟩⟩ :=
        everyTagMovesTheWalkForward s u h hr hb hu hpc
      · exact ⟨1, t, by omega, run_succ hstep 0, hraised.not_busy, hraised.done⟩
      · have hkept := fetchKept_step hr hb hstep
        have hinv : Inv t := by
          obtain ⟨t', hstep', hinv⟩ := everyStepAnswersAndKeepsTheInvariant s h
          cases hstep.symm.trans hstep'
          exact hinv
        have hop := (of_tagging hu).1
        rw [← hkept.op] at hop
        rw [hend] at hpc2
        rw [hdecl] at hprod2
        obtain ⟨k, v, hk, hrun, hv⟩ := ih _ (by rw [← hn, hend, hdecl]; omega) t hinv (hkept.host.rst.trans hr) hbt
          (tagging_of hop hstate).1 rfl
        exact ⟨k + 1, v, by rw [hend, hdecl] at hk; omega, (run_succ hstep k).trans hrun, hv⟩
    · obtain ⟨hidle, hdone⟩ := endOfFrame_ends u s
      exact ⟨1, _, by omega, run_succ (step_frameEnd hr hb hu hpc) 0, hidle, hdone⟩

end Sys2Proof.Machine
end

section
/-! The two commands of a walk from start to end: what they leave, and what stands in `OUT` (44_lz_decoder.md R224,
R227; 45_frame_validator.md R251). -/

namespace Sys2Proof.Machine

/-! ### Runs up to the completion of a command -/

theorem FetchKept.rfl' {s : State} : FetchKept s s :=
  ⟨⟨rfl, rfl, rfl, rfl, rfl, rfl, .rfl', .rfl'⟩, ⟨rfl, rfl, rfl, rfl, rfl, rfl⟩, rfl, fun _ => rfl, fun _ => rfl,
    fun _ => .rfl'⟩

theorem run_succ_next {s t : State} {k : Nat} (h : Sys2Proof.core.run (k + 1) s = .next t) :
    ∃ u, step s = .next u ∧ Sys2Proof.core.run k u = .next t := by
  cases hstep : step s with
  | next u => exact ⟨u, rfl, (run_succ hstep k).symm.trans h⟩
  | fault r =>
    have h' : Sys2Proof.core.step s = .fault r := hstep
    simp [Host.Core.run, h'] at h
  | refused r =>
    have h' : Sys2Proof.core.step s = .refused r := hstep
    simp [Host.Core.run, h'] at h

/-- What every step of a command in progress keeps, its completion keeps. -/
theorem Completes.fetchKept {s t : State} (h : Completes s t) (hr : s.rst = false) : FetchKept s t := by
  obtain ⟨k, hrun, -, hbusy⟩ := h
  induction k generalizing s with
  | zero =>
    cases hrun
    exact .rfl'
  | succ k ih =>
    obtain ⟨s', hs', hb⟩ := hbusy 0 (Nat.zero_lt_succ k)
    cases hs'
    obtain ⟨u, hstep, hrun'⟩ := run_succ_next hrun
    have hk := fetchKept_step hr hb hstep
    refine hk.trans (ih (hk.host.rst.trans hr) hrun' fun j hj => ?_)
    rw [← run_succ hstep]
    exact hbusy (j + 1) (Nat.succ_lt_succ hj)

/-- A command completes in one state only. -/
theorem Completes.unique {s t t' : State} (h : Completes s t) (h' : Completes s t') : t = t' := by
  obtain ⟨k, hrun, hidle, hbusy⟩ := h
  obtain ⟨k', hrun', hidle', hbusy'⟩ := h'
  rcases Nat.lt_trichotomy k k' with hlt | rfl | hlt
  · obtain ⟨u, hu, hb⟩ := hbusy' k hlt
    cases hu.symm.trans hrun
    exact absurd hb (by rw [hidle]; decide)
  · cases hrun.symm.trans hrun'
    rfl
  · obtain ⟨u, hu, hb⟩ := hbusy k' hlt
    cases hu.symm.trans hrun'
    exact absurd hb (by rw [hidle']; decide)

/-! ### IS_VALID -/

/-- Settles O52: the validator's walk ends as `Walk`; no step of it touches `OUT` or the decoder. -/
theorem isValidCompletesWithTheVerdict : Obligations.IsValidCompletesWithTheVerdict := by
  intro s hr
  obtain ⟨t, hcomp, hrsp⟩ := walkStart_endsAs .fv hr
  have hstart := exec_walkCommand .fv s
  obtain ⟨hhost, hencoder⟩ := start_kept (i := .isValid) rfl (by decide) hstart
  have hcommand := CommandStep.of_exec (i := .isValid) rfl hstart
  have hkept := hcomp.fetchKept (hhost.rst.trans hr)
  have hop : (walkStart .fv s).cmd.op = 12#4 := walkStart_op .fv s
  refine ⟨_, t, hstart, hcomp, ?_, hhost.trans hkept.host, hencoder.trans hkept.encoder,
    (hkept.dp hop).trans (hcommand.dp (by decide)), (SameBytes.of_eq hcommand.out).trans (hkept.out hop)⟩
  rw [hrsp]
  cases walk (cellGet s.frame) s.cmd.a0 s.params.maxOutputLen.toNat <;> rfl

/-! ### The output of UNCOMPRESS -/

/-- The output after a tag that passes (44_lz_decoder.md R212). -/
def tagOutput (rd : Nat → Byte) (f : TagFields) (pc : Nat) (out : List Byte) : List Byte :=
  if f.kind = 0 then out ++ bytesFrom rd (pc + f.hdr) f.len else repeatCopy f.off f.len out

theorem tagOutput_length (rd : Nat → Byte) (f : TagFields) (pc : Nat) (out : List Byte) :
    (tagOutput rd f pc out).length = out.length + f.len := by
  unfold tagOutput
  split
  · rw [List.length_append, bytesFrom_length]
  · exact repeatCopy_length ..

theorem walkTags_pass {rd : Nat → Byte} {f : TagFields} {w : WalkRegs} {out : List Byte} (fuel : Nat)
    (hpc : w.pc < w.endPos) (hf : parseTag rd w.pc w.endPos = some f) (hout : out.length = w.produced.toNat)
    (hc : tagCause f w = none) :
    walkTags rd w.endPos w.declared.toNat (fuel + 1) w.pc out =
      walkTags rd w.endPos w.declared.toNat fuel (pcAfter f w) (tagOutput rd f w.pc out) := by
  unfold tagCause at hc
  simp only [walkTags, if_pos hpc, hf, pcAfter, tagOutput, hout]
  by_cases hk : f.kind = 0
  · simp only [if_pos hk] at hc ⊢
    split_ifs at hc ⊢
    rfl
  · simp only [if_neg hk] at hc ⊢
    split_ifs at hc ⊢
    rfl

theorem walkTags_length {rd : Nat → Byte} {endPos declared : Nat} (fuel : Nat) {pc : Nat} {out out' : List Byte}
    (h : walkTags rd endPos declared fuel pc out = .ok out') : out'.length = declared := by
  induction fuel generalizing pc out with
  | zero => cases h
  | succ fuel ih =>
    rw [walkTags] at h
    split_ifs at h with hpc hlen
    · split at h
      · cases h
      · split_ifs at h <;> exact ih h
    · cases h
      exact hlen

/-- Memory that holds the output and repeats from there on what stands `offset` back holds the output of a copy. -/
theorem holdsAt_repeatCopy {rd : Nat → Byte} {offset : Nat} (len : Nat) {out : List Byte} (ho : 1 ≤ offset)
    (hop : offset ≤ out.length) (hmem : HoldsAt rd 0 out)
    (hrepeat : ∀ j, j < len → rd (out.length + j) = rd (out.length - offset + j)) :
    HoldsAt rd 0 (repeatCopy offset len out) := by
  induction len generalizing out with
  | zero => exact hmem
  | succ len ih =>
    have hback : out.getD (out.length - offset) 0 = rd out.length := by
      have hget := hmem.get (out.length - offset) (by omega)
      have hfirst := hrepeat 0 (Nat.zero_lt_succ len)
      simp only [Nat.add_zero, Nat.zero_add] at hget hfirst
      rw [List.getD_eq_getElem _ _ (by omega), ← hget, ← hfirst]
    have hlen : (out ++ [out.getD (out.length - offset) 0]).length = out.length + 1 := List.length_append
    refine ih (by omega) (holdsAt_append.2 ⟨hmem, ?_⟩) fun j hj => ?_
    · rw [hback, Nat.zero_add]
      rfl
    · have := hrepeat (j + 1) (Nat.succ_lt_succ hj)
      rw [hlen, show out.length + 1 + j = out.length + (j + 1) by omega,
        show out.length + 1 - offset + j = out.length - offset + (j + 1) by omega]
      exact this

theorem HoldsAt.of_same_below {rd rd' : Nat → Byte} {bs : List Byte} (h : HoldsAt rd 0 bs)
    (hsame : ∀ j, j < bs.length → rd' j = rd j) : HoldsAt rd' 0 bs :=
  holdsAt_iff.2 fun j hj => by rw [← h.get j hj, Nat.zero_add, hsame j hj]

/-- A tag of `UNCOMPRESS` that passes leaves its output in `OUT`, and what lies at and above the declared length as it
was. -/
theorem Walking.tag_moves {s : State} {i : Instr} {f : TagFields} {out : List Byte} (h : Walking .dp s)
    (hf : tagFields i = some f) (hhdr : s.dp.pc + f.hdr ≤ s.dp.endPos) (hc : tagCause f s.dp = none)
    (hlen : out.length = s.dp.produced.toNat) (hmem : HoldsAt (cellGet s.out) 0 out) :
    ∃ mem, exec i s = .next (Machine.advance .dp f.len (pcAfter f s.dp) { noteTag f s with out := mem }) ∧
      HoldsAt (cellGet mem) 0 (tagOutput (cellGet s.frame) f s.dp.pc out) ∧
      ∀ a, s.dp.declared.toNat ≤ a → cellGet mem a = cellGet s.out a := by
  have hprod := produced_le_of_tagCause hc
  unfold tagCause at hc
  by_cases hk : f.kind = 0
  · simp only [if_pos hk] at hc
    split_ifs at hc
    have htag := literalTag_dp (f := f) h.tagging.2.2 (by omega) (by rwa [outLimit_eq h.cap])
    refine ⟨_, by rw [exec_literal hf hk, pcAfter, if_pos hk, htag], ?_, fun a ha => ?_⟩
    · rw [tagOutput, if_pos hk, holdsAt_append]
      refine ⟨hmem.of_same_below fun j hj => ?_, ?_⟩
      · rw [cellGet_setRange, dif_neg (by omega)]
      · refine holdsAt_iff.2 fun j hj => ?_
        rw [bytesFrom_length] at hj
        rw [cellGet_setRange, dif_pos (by rw [cellRange_length]; omega), cellRange_getElem, bytesFrom_getElem]
        congr 1
        omega
    · rw [cellGet_setRange, dif_neg (by rw [cellRange_length]; omega)]
  · simp only [if_neg hk] at hc
    split_ifs at hc
    obtain ⟨mem, htag, hkept, hrepeat⟩ := copyTag_dp_repeats h.op hhdr (by omega) (by omega) hprod h.cap
    refine ⟨mem, by rw [exec_copy hf hk, pcAfter, if_neg hk, Nat.add_zero, htag], ?_, fun a ha => hkept a (.inr (by omega))⟩
    rw [tagOutput, if_neg hk]
    refine holdsAt_repeatCopy f.len (by omega) (by omega) (hmem.of_same_below fun j hj => hkept j (.inl (by omega))) ?_
    rwa [hlen]

/-- What a walk with the result `r` leaves in `OUT`: at and above the declared length what stood there, and below it the
output, if it succeeds (44_lz_decoder.md R224, R227). -/
structure OutAs (declared : Nat) (s t : State) (r : Except Cause (List Byte)) : Prop where
  above : ∀ a, declared ≤ a → cellGet t.out a = cellGet s.out a
  below : ∀ out, r = .ok out → HoldsAt (cellGet t.out) 0 out

theorem OutAs.of_error {declared : Nat} {s t : State} {c : Cause} (h : SameBytes s.out t.out) :
    OutAs declared s t (.error c) := ⟨fun a _ => h a, nofun⟩

theorem endOfFrame_out (u : WalkUnit) (s : State) : (endOfFrame u s).out = s.out := by
  by_cases h : (walkRegs u s).produced = (walkRegs u s).declared
  · rw [endOfFrame_match h]
    exact setWalk_out ..
  · rw [endOfFrame_mismatch h]
    exact raiseMalformed_out ..

/-- The tag loop of `UNCOMPRESS` leaves in `OUT` what that of `Walk` puts out. -/
theorem Walking.outAs_walkTags (fuel : Nat) {s : State} {out : List Byte} (h : Walking .dp s)
    (hlen : out.length = s.dp.produced.toNat) (hmem : HoldsAt (cellGet s.out) 0 out)
    (hfuel : s.dp.endPos - s.dp.pc < fuel) :
    ∃ t, Completes s t ∧ OutAs s.dp.declared.toNat s t
      (walkTags (cellGet s.frame) s.dp.endPos s.dp.declared.toNat fuel s.dp.pc out) := by
  induction fuel generalizing s out with
  | zero => omega
  | succ fuel ih =>
    have hstep := h.step
    rw [stepTag, walkRegs_dp] at hstep
    rcases Nat.lt_or_ge s.dp.pc s.dp.endPos with hpc | hpc
    · rw [if_pos hpc] at hstep
      obtain ⟨hparse, T, hfetch⟩ | ⟨i, f, hparse, hfetch, hf, hhdr⟩ := fetchTag_of_parseTag s s.dp.pc s.dp.endPos
      · simp only [hfetch] at hstep
        have hraised := raised_noteKind .tagTruncated T s
        simp only [walkTags, if_pos hpc, hparse]
        exact ⟨_, .step h.busy hstep (.here hraised.not_busy), .of_error hraised.out⟩
      · simp only [hfetch] at hstep
        cases hc : tagCause f s.dp with
        | some c =>
          have hwalk := walkTags_tag fuel hpc hparse hlen
          simp only [hc] at hwalk
          rw [exec_tag_raises hf h.tagging.2.2 hhdr hc] at hstep
          have hraised := raised_noteTag c f s
          rw [hwalk]
          exact ⟨_, .step h.busy hstep (.here hraised.not_busy), .of_error hraised.out⟩
        | none =>
          obtain ⟨mem, hexec, hmem', habove⟩ := h.tag_moves hf hhdr hc hlen hmem
          have hregs := walkRegs_advance .dp f.len (pcAfter f s.dp) f mem s
          simp only [walkRegs_dp] at hregs
          obtain ⟨t, hcomp, hout⟩ := ih (h.advance f (pcAfter f s.dp) mem)
            (out := tagOutput (cellGet s.frame) f s.dp.pc out)
            (by rw [hregs, tagOutput_length, hlen, toNat_produced (produced_le_of_tagCause hc)])
            (by rw [advance_out]; exact hmem')
            (by
              obtain ⟨-, -, -, -, hpos, -⟩ := tagFields_bounds hf
              rw [hregs]
              simp only [pcAfter]
              omega)
          rw [hregs] at hout
          simp only [advance_frame, noteTag_frame] at hout
          rw [walkTags_pass fuel hpc hparse hlen hc]
          refine ⟨t, .step h.busy (hstep.trans hexec) hcomp, fun a ha => ?_, hout.below⟩
          rw [hout.above a ha, advance_out]
          exact habove a ha
    · rw [if_neg (Nat.not_lt.2 hpc)] at hstep
      refine ⟨_, .step h.busy hstep (.here (endOfFrame_ends .dp s).1), fun a _ => by rw [endOfFrame_out], fun o ho => ?_⟩
      rw [endOfFrame_out]
      rw [walkTags, if_neg (Nat.not_lt.2 hpc)] at ho
      split_ifs at ho
      cases ho
      exact hmem

/-! ### From the start of UNCOMPRESS to its end -/

/-- Where the cap admits the length, the unit stands among its tags with nothing produced (44_lz_decoder.md R211). -/
theorem preambleDone_afterPreamble (u : WalkUnit) {s : State} {n k : Nat} (hn : n < 2 ^ 32) (hk : k ≤ 5)
    (hcap : n ≤ s.params.maxOutputLen.toNat) :
    preambleDone u (afterPreamble u n k s) =
      setWalk u ⟨.expectingTag, k, s.cmd.a0, BitVec.ofNat 32 n, 0, 0⟩ (afterPreamble u n k s) := by
  have hval : (BitVec.ofNat 32 n).toNat = n := toNat_ofNat_of_lt hn
  have hpc : (BitVec.ofNat 3 k).toNat = k := toNat_ofNat_of_lt (by omega)
  rw [preambleDone, if_neg (by simpa only [afterPreamble, walkStart_params, hval] using Nat.not_lt.2 hcap)]
  simp only [walkRegs_afterPreamble, afterPreamble_vd, hpc]

/-- `OUT` after `UNCOMPRESS`: as it was everywhere, if the preamble or the cap failed; else as its tags leave it. -/
theorem uncompress_out {s : State} (hr : s.rst = false) :
    ∃ t, Completes (walkStart .dp s) t ∧
      (∀ a, (∀ L k, varintDecode (cellGet s.frame) 0 s.cmd.a0 = .ok (L, k) → L ≤ s.params.maxOutputLen.toNat → L ≤ a) →
        cellGet t.out a = cellGet s.out a) ∧
      ∀ out, walk (cellGet s.frame) s.cmd.a0 s.params.maxOutputLen.toNat = .ok out → HoldsAt (cellGet t.out) 0 out := by
  have hb := busy_walkStart .dp s
  have hv := varintRange_walkStart .dp s
  unfold walk
  cases hd : varintDecode (cellGet s.frame) 0 s.cmd.a0 with
  | error c =>
    obtain ⟨k, hcomp⟩ := completes_of_varintDecode_error (s := walkStart .dp s) hr hb hv hd
    exact ⟨_, hcomp, fun a _ => by rw [raiseMalformed_out]; rfl, nofun⟩
  | ok vk =>
    obtain ⟨n, k⟩ := vk
    obtain ⟨-, hk, -, -, -, hn⟩ := (varintDecodeAcceptsExactlyTheVarints ..).1 hd
    dsimp only
    by_cases hcap : s.params.maxOutputLen.toNat < n
    · obtain ⟨t, hcomp, -, hout⟩ := uncompress_completes_lengthCap hr hd hcap
      rw [if_pos hcap]
      exact ⟨t, hcomp, fun a _ => hout a, nofun⟩
    · have hval : (BitVec.ofNat 32 n).toNat = n := toNat_ofNat_of_lt hn
      have hdone := preambleDone_afterPreamble .dp (s := s) hn hk (Nat.not_lt.1 hcap)
      have hw : Walking .dp (setWalk .dp ⟨.expectingTag, k, s.cmd.a0, BitVec.ofNat 32 n, 0, 0⟩ (afterPreamble .dp n k s)) :=
        ⟨hr, hb, rfl, rfl, by rw [walkRegs_setWalk, hval]; exact Nat.not_lt.1 hcap⟩
      obtain ⟨t, hcomp, hout⟩ := hw.outAs_walkTags (s.cmd.a0 + 1) (out := []) rfl rfl
        (by simp only [setWalk_dp_dp]; omega)
      rw [← hdone, ← varintDone_afterPreamble] at hcomp
      simp only [setWalk_dp_dp, hval, setWalk_frame, afterPreamble_frame] at hout
      rw [if_neg hcap]
      exact ⟨t, completes_of_varintDecode hr hb hv hd hcomp,
        fun a ha => hout.above a (ha n k rfl (Nat.not_lt.1 hcap)), hout.below⟩

/-- An output of `Walk` has the length its preamble declares, which the cap admits. -/
theorem walk_ok_length {rd : Nat → Byte} {endPos cap : Nat} {out : List Byte} (h : walk rd endPos cap = .ok out) :
    ∃ k, varintDecode rd 0 endPos = .ok (out.length, k) := by
  unfold walk at h
  cases hd : varintDecode rd 0 endPos with
  | error c =>
    rw [hd] at h
    cases h
  | ok vk =>
    rw [hd] at h
    dsimp only at h
    split_ifs at h
    exact ⟨vk.2, by rw [walkTags_length _ h]⟩

/-- Settles O50: the response is that of `Walk`, `OUT` is as its tags leave it, the rest no step touches. -/
theorem uncompressCompletesAsTheWalk : Obligations.UncompressCompletesAsTheWalk := by
  intro s hr
  obtain ⟨t, hcomp, hrsp⟩ := walkStart_endsAs .dp hr
  obtain ⟨t', hcomp', hkeep, hout⟩ := uncompress_out hr
  obtain rfl := hcomp.unique hcomp'
  have hstart := exec_walkCommand .dp s
  obtain ⟨hhost, hencoder⟩ := start_kept (i := .uncompress) rfl (by decide) hstart
  have hcommand := CommandStep.of_exec (i := .uncompress) rfl hstart
  have hkept := hcomp.fetchKept (hhost.rst.trans hr)
  have hop : (walkStart .dp s).cmd.op ≠ 12#4 := by
    rw [walkStart_op]
    decide
  refine ⟨_, t, hstart, hcomp, ?_, hhost.trans hkept.host, hencoder.trans hkept.encoder,
    (hkept.fv hop).trans (hcommand.fv (by decide))⟩
  cases hwalk : walk (cellGet s.frame) s.cmd.a0 s.params.maxOutputLen.toNat with
  | error c =>
    rw [hwalk] at hrsp
    exact ⟨hrsp, hkeep⟩
  | ok out =>
    rw [hwalk] at hrsp
    obtain ⟨k, hd⟩ := walk_ok_length hwalk
    obtain ⟨-, -, -, -, -, hlt⟩ := (varintDecodeAcceptsExactlyTheVarints ..).1 hd
    refine ⟨hrsp, hlt, fun j hj => ?_, fun a ha => hkeep a fun L k' hd' _ => ?_⟩
    · rw [← (hout out hwalk).get j hj, Nat.zero_add]
    · cases hd.symm.trans hd'
      exact ha

end Sys2Proof.Machine
end

section
/-! The hash table, the matching pass and its contract (42_hash_matcher.md R161 to R170). -/

namespace Sys2Proof.Machine

/-! ### Hash -/

/-- A lookup gives the value that every row of the pair has, if there is one. -/
theorem hashLookup_eq {rows : List HashRow} {w tbits v : Nat} (hrow : ∃ r ∈ rows, r.w.toNat = w ∧ r.tbits = tbits)
    (hall : ∀ r ∈ rows, r.w.toNat = w → r.tbits = tbits → r.h = v) : hashLookup rows w tbits = v := by
  induction rows with
  | nil =>
    obtain ⟨r, hr, -⟩ := hrow
    cases hr
  | cons r rows ih =>
    rw [hashLookup]
    split
    case isTrue h => exact hall r List.mem_cons_self h.1 h.2
    case isFalse h =>
      obtain ⟨r', hr', hw⟩ := hrow
      obtain rfl | hr' := List.mem_cons.1 hr'
      · exact absurd hw h
      · exact ih ⟨r', hr', hw⟩ fun q hq => hall q (List.mem_cons_of_mem r hq)

/-- A function of words below `2 ^ 32` and of table sizes below `limit`, written out row by row. -/
def hashRows (f : BitVec 32 → Nat → Nat) (words limit : Nat) : List HashRow :=
  (List.range limit).flatMap fun t => (List.range words).map fun w => ⟨BitVec.ofNat 32 w, t, f (BitVec.ofNat 32 w) t⟩

theorem hashLookup_hashRows (f : BitVec 32 → Nat → Nat) {words limit : Nat} {w : BitVec 32} {tbits : Nat}
    (hw : w.toNat < words) (ht : tbits < limit) : hashLookup (hashRows f words limit) w.toNat tbits = f w tbits := by
  refine hashLookup_eq ⟨⟨w, tbits, f w tbits⟩, ?_, rfl, rfl⟩ fun r hr hrw hrt => ?_
  · refine List.mem_flatMap.2 ⟨tbits, List.mem_range.2 ht, List.mem_map.2 ⟨w.toNat, List.mem_range.2 hw, ?_⟩⟩
    rw [BitVec.ofNat_toNat, BitVec.setWidth_eq]
  · obtain ⟨t, -, hr⟩ := List.mem_flatMap.1 hr
    obtain ⟨v, -, rfl⟩ := List.mem_map.1 hr
    rw [← BitVec.eq_of_toNat_eq hrw, ← hrt]

/-- Settles O31: the default is the multiplicative form; any other function is the table of its values. -/
theorem hashIsAConfigurationFunction : Obligations.HashIsAConfigurationFunction := by
  refine ⟨fun w tbits => rfl, fun f hf => ⟨.table (hashRows f (2 ^ 32) 15), fun w tbits _ ht => ?_⟩⟩
  rw [hashWord, hashLookup_hashRows f w.isLt (by omega), Nat.mod_eq_of_lt (hf w tbits)]

/-! ### The table of a fragment -/

theorem growTable_least (fuel t n : Nat) (hf : 14 ≤ t + fuel) (ht : t ≤ 14) :
    (n ≤ 2 ^ growTable fuel t n ∨ growTable fuel t n = 14) ∧
      (growTable fuel t n = t ∨ 2 ^ (growTable fuel t n - 1) < n) := by
  induction fuel generalizing t with
  | zero => exact ⟨.inr (by rw [growTable]; omega), .inl rfl⟩
  | succ fuel ih =>
    rw [growTable]
    split
    case isTrue h =>
      obtain ⟨h14, hn⟩ := h
      simp only [Config.htMaxBits] at h14
      obtain ⟨hbig, hleast⟩ := ih (t + 1) (by omega) (by omega)
      refine ⟨hbig, .inr (hleast.elim (fun heq => ?_) id)⟩
      rw [heq]
      exact hn
    case isFalse h =>
      simp only [Config.htMaxBits] at h
      exact ⟨by omega, .inl rfl⟩

/-- What a pass over a fragment of `n` bytes leaves in the table it found as `ht`: positions it probed in the entries in
use, and the other entries as they were. -/
structure TableOk (ht : Cells 16) (n tbits : Nat) (m : Cells 16) : Prop where
  inUse : ∀ h, h < 2 ^ tbits → cellGet m h = 0 ∨ 4 ≤ (cellGet m h).toNat ∧ (cellGet m h).toNat + 5 ≤ n
  kept : ∀ h, 2 ^ tbits ≤ h → cellGet m h = cellGet ht h

/-- A probe puts its position into an entry in use. -/
theorem TableOk.probe {ht m : Cells 16} {n tbits ip h : Nat} (hm : TableOk ht n tbits m) (hn : n ≤ 65536)
    (head : 4 ≤ ip) (tail : ip + 5 ≤ n) (hh : h < 2 ^ tbits) : TableOk ht n tbits (cellSet m h (BitVec.ofNat 16 ip)) := by
  have hip : (BitVec.ofNat 16 ip).toNat = ip := toNat_ofNat_of_lt (by omega)
  refine ⟨fun k hk => ?_, fun k hk => ?_⟩
  · by_cases hkh : k = h
    · rw [hkh, cellGet_set_same, hip]
      exact .inr ⟨head, tail⟩
    · rw [cellGet_set_other _ _ hkh]
      exact hm.inUse k hk
  · rw [cellGet_set_other _ _ (by omega)]
    exact hm.kept k hk

theorem matchLoop_tableOk {s : State} {base n tbits : Nat} {ht : Cells 16} (hn : n ≤ 65536) (hbits : tbits ≤ 14)
    (fuel : Nat) {m : MatchPass} (head : 4 ≤ m.ip) (hm : TableOk ht n tbits m.ht) :
    TableOk ht n tbits (matchLoop s base n tbits fuel m).ht := by
  induction fuel generalizing m with
  | zero => exact hm
  | succ fuel ih =>
    simp only [matchLoop, Config.tailGuard]
    split
    case isFalse => exact hm
    case isTrue htail =>
      have hhash : hashWord s.params.hash (load32 s (base + m.ip)) tbits < 2 ^ tbits := hashWord_lt _ _ _ (by omega)
      have hprobe := hm.probe hn head (by omega) hhash
      split
      · exact ih (by simp only; omega) hprobe
      · exact ih (by simp only; omega) hprobe

theorem matchFragment_tableOk (s : State) (base : Nat) {n : Nat} (hn : n ≤ 65536) :
    TableOk s.ht n (tableBits n) (matchFragment s base n).ht := by
  refine matchLoop_tableOk hn (tableBits_le n).2 n le_rfl ⟨fun h hh => .inl ?_, fun h hh => ?_⟩
  · rw [cellGet_from, if_neg (by omega)]
    rfl
  · rw [cellGet_from, if_pos hh]

/-- Settles O32: the loop of `TableBits`, and what every probe of the pass keeps of the table. -/
theorem tableIsSizedAndZeroedPerFragment : Obligations.TableIsSizedAndZeroedPerFragment := by
  refine ⟨fun n _ => ?_, fun s base n h hn => ?_⟩
  · obtain ⟨hbig, hleast⟩ := growTable_least 6 8 n (by decide) (by decide)
    exact ⟨(tableBits_le n).1, (tableBits_le n).2, hbig, hleast⟩
  · obtain ⟨hinUse, hkept⟩ := matchFragment_tableOk s base hn
    refine ⟨hinUse h, fun hh h8 => (hinUse h hh).resolve_right fun hpos => ?_, hkept h⟩
    omega

/-! ### MATCH_FRAG -/

theorem exec_matchFrag {s : State} (h1 : s.cmd.a0 < 2 ^ 32) (h2 : 1 ≤ s.cmd.a1) (h3 : s.cmd.a1 ≤ 65536)
    (h4 : s.cmd.a0 + s.cmd.a1 ≤ 2 ^ 32) :
    exec .matchFrag s =
      .next (completePushed (emitFragment s.cmd.a0 s.cmd.a1 (clearCount (beginCommand 7#4 s)))) :=
  if_pos ((matchFragArgs_iff _).2 ⟨⟨⟨⟨h1, Nat.lt_of_le_of_lt h3 (by decide)⟩, h2⟩, h3⟩, h4⟩)

theorem encoderRegs_eq {e e' : EncoderRegs} (h1 : e.inLen = e'.inLen) (h2 : e.fragBase = e'.fragBase)
    (h3 : e.fragLen = e'.fragLen) (h4 : e.count = e'.count) : e = e' := by
  cases e
  cases e'
  simp_all

/-- Settles O33: the command starts with the count cleared, and a fragment pushes the bytes of its events. -/
theorem matchFragPushesTheEvents : Obligations.MatchFragPushesTheEvents := by
  intro s h1 h2 h3 h4
  have hpass : matchFragment (clearCount (beginCommand 7#4 s)) s.cmd.a0 s.cmd.a1 = matchFragment s s.cmd.a0 s.cmd.a1 :=
    matchFragment_congr (s := s) (s' := clearCount (beginCommand 7#4 s)) rfl rfl rfl _ _
  have hpush := pushes_emitFragment s.cmd.a0 s.cmd.a1 (clearCount (beginCommand 7#4 s))
  obtain ⟨hht, hve, hbase, hlen⟩ := emitFragment_kept s.cmd.a0 s.cmd.a1 (clearCount (beginCommand 7#4 s))
  rw [hpass] at hpush hht
  exact ⟨_, exec_matchFrag h1 h2 h3 h4, by rw [completePushed_cmd, hpush.cmd]; rfl, hpush.sink, hpush.rsp_from_zero rfl,
    hht, encoderRegs_eq hpush.inLen hbase hlen (hpush.count_from_zero rfl), hpush.command_hostKept,
    hpush.command_decoderKept, hve⟩

/-! ### The contract of the matcher -/

/-- How many bytes events stand for. -/
def coveredBy : List Event → Nat
  | [] => 0
  | .lit _ len :: es => len + coveredBy es
  | .copy _ len :: es => len + coveredBy es

theorem replayEvents_length (rd : Nat → Byte) (es : List Event) (out : List Byte) :
    (replayEvents rd es out).length = out.length + coveredBy es := by
  induction es generalizing out with
  | nil => rfl
  | cons e es ih =>
    cases e with
    | lit start len =>
      rw [replayEvents, ih, List.length_append, bytesFrom_length, coveredBy, Nat.add_assoc]
    | copy offset len => rw [replayEvents, ih, repeatCopy_length, coveredBy, Nat.add_assoc]

theorem coveredBy_append (es es' : List Event) : coveredBy (es ++ es') = coveredBy es + coveredBy es' := by
  induction es with
  | nil => exact (Nat.zero_add _).symm
  | cons e es ih => cases e <;> simp only [List.cons_append, coveredBy, ih, Nat.add_assoc]

/-- What 42_hash_matcher.md R167 and R168 ask of one event, of the bytes covered before it and of the event before it, in
a fragment of `n` bytes. -/
def EventOk (n covered : Nat) (last : Option Event) : Event → Prop
  | .lit start len => 1 ≤ len ∧ start = covered ∧ ∀ a b, last ≠ some (.lit a b)
  | .copy offset len =>
    4 ≤ len ∧ 1 ≤ offset ∧ offset ≤ 65531 ∧ offset ≤ covered ∧ 4 ≤ covered ∧ covered + 5 ≤ n

/-- Events each of which the contract allows where it stands. -/
inductive EventsOk (n : Nat) : List Event → Prop
  | nil : EventsOk n []
  | snoc {es : List Event} {e : Event} : EventsOk n es → EventOk n (coveredBy es) es.getLast? e → EventsOk n (es ++ [e])

theorem EventsOk.at {n : Nat} {es before after : List Event} {e : Event} (h : EventsOk n es)
    (he : es = before ++ e :: after) : EventOk n (coveredBy before) before.getLast? e := by
  induction h generalizing after with
  | nil => simp at he
  | @snoc es x _ hx ih =>
    rcases List.eq_nil_or_concat' after with rfl | ⟨after, y, rfl⟩
    · obtain ⟨rfl, hx'⟩ := List.append_inj' he rfl
      cases hx'
      exact hx
    · rw [← List.cons_append, ← List.append_assoc] at he
      exact ih (List.append_inj' he rfl).1

theorem coveredBy_pendingLiteral {p q : Nat} (h : p ≤ q) : coveredBy (pendingLiteral p q) = q - p := by
  unfold pendingLiteral
  split
  · rfl
  · rw [coveredBy]
    omega

/-- The literal run that is pending may follow whatever is no literal. -/
theorem EventsOk.pendingLiteral {n p q : Nat} {es : List Event} (h : EventsOk n es) (hp : coveredBy es = p)
    (hlast : ∀ a b, es.getLast? ≠ some (.lit a b)) : EventsOk n (es ++ pendingLiteral p q) := by
  unfold Machine.pendingLiteral
  split
  · exact h.snoc ⟨by omega, hp.symm, hlast⟩
  · rwa [List.append_nil]

section
variable {rd : Nat → Byte} {base n p : Nat} {es : List Event}

theorem Covers.eventsOk (hn : n ≤ 65536) (h : Covers rd base n es p) :
    EventsOk n es ∧ coveredBy es = p ∧ ∀ a b, es.getLast? ≠ some (.lit a b) := by
  induction h with
  | start => exact ⟨.nil, rfl, nofun⟩
  | @round es p ip offset len _ hp hm ih =>
    obtain ⟨hes, hcov, hlast⟩ := ih
    obtain ⟨head, tail, long, -, offset_pos, offset_le, -⟩ := hm
    have hlit := hes.pendingLiteral (q := ip) hcov hlast
    have hcov' : coveredBy (es ++ pendingLiteral p ip) = ip := by
      rw [coveredBy_append, coveredBy_pendingLiteral hp, hcov]
      omega
    refine ⟨hlit.snoc ⟨long, offset_pos, by omega, by omega, by omega, by omega⟩, ?_, fun a b => ?_⟩
    · rw [coveredBy_append, hcov']
      rfl
    · rw [List.getLast?_concat]
      nofun

theorem CoversFragment.eventsOk (hn : n ≤ 65536) (h : CoversFragment rd base n es) : EventsOk n es := by
  obtain ⟨es, p, rfl, hc⟩ := h
  obtain ⟨hes, hcov, hlast⟩ := hc.eventsOk hn
  exact hes.pendingLiteral hcov hlast

/-- The copy of a match repeats the fragment's own bytes. -/
theorem IsMatch.repeatCopy {ip offset len : Nat} (h : IsMatch rd base n ip offset len) :
    repeatCopy offset len (bytesFrom (fun j => rd (base + j)) 0 ip) = bytesFrom (fun j => rd (base + j)) 0 (ip + len) := by
  obtain ⟨-, -, -, -, offset_pos, offset_le, same⟩ := h
  have hholds := holdsAt_repeatCopy (rd := fun j => rd (base + j)) (out := bytesFrom (fun j => rd (base + j)) 0 ip) len
    offset_pos (by rwa [bytesFrom_length]) (by rw [HoldsAt, bytesFrom_length]) fun j hj => by
      rw [bytesFrom_length, ← Nat.add_assoc, same j hj]
      congr 1
      omega
  rw [HoldsAt, repeatCopy_length, bytesFrom_length] at hholds
  exact hholds.symm

theorem replayEvents_pendingLiteral {rd : Nat → Byte} {p q : Nat} (h : p ≤ q) :
    replayEvents rd (pendingLiteral p q) (bytesFrom rd 0 p) = bytesFrom rd 0 q := by
  unfold pendingLiteral
  split
  · have hadd := bytesFrom_add rd 0 p (q - p)
    rw [Nat.zero_add, show p + (q - p) = q by omega] at hadd
    exact hadd.symm
  · obtain rfl : p = q := by omega
    rfl

theorem Covers.replay (h : Covers rd base n es p) :
    replayEvents (fun j => rd (base + j)) es [] = bytesFrom (fun j => rd (base + j)) 0 p := by
  induction h with
  | start => rfl
  | round _ hp hm ih =>
    rw [replayEvents_append, replayEvents_append, ih, replayEvents_pendingLiteral hp]
    exact hm.repeatCopy

theorem CoversFragment.replay (h : CoversFragment rd base n es) :
    replayEvents (fun j => rd (base + j)) es [] = bytesFrom (fun j => rd (base + j)) 0 n := by
  obtain ⟨es, p, rfl, hc⟩ := h
  rw [replayEvents_append, hc.replay, replayEvents_pendingLiteral hc.le]

end

/-- Settles O34: the rounds of the pass rebuild the fragment, and each of their events is allowed where it stands. -/
theorem matcherMeetsItsContract : Obligations.MatcherMeetsItsContract := by
  intro s base n _ hn
  have hcovers := matchFragment_covers s base n
  have hok := hcovers.eventsOk hn
  have hlen (before : List Event) :
      (replayEvents (fun j => cellGet s.inMem (base + j)) before []).length = coveredBy before := by
    rw [replayEvents_length, List.length_nil, Nat.zero_add]
  refine ⟨hcovers.replay, fun before after start len he => ?_, fun before after offset len he => ?_,
    fun before after start₁ len₁ start₂ len₂ he => ?_⟩
  · obtain ⟨hpos, hstart, -⟩ := hok.at he
    exact ⟨hpos, by rw [hlen, hstart]⟩
  · rw [hlen]
    exact hok.at he
  · rw [List.append_cons] at he
    obtain ⟨-, -, hlast⟩ := hok.at he
    exact hlast start₁ len₁ List.getLast?_concat

end Sys2Proof.Machine
end

section
/-! `COMPRESS` fragment by fragment, as a function of its input (43_lz_encoder.md R191, R192, R197). -/

namespace Sys2Proof.Machine

/-! ### A matching pass reads its fragment alone -/

/-- Two states whose hash and whose bytes of the fragment `IN[base .. base+n)` are the same. -/
structure SameFragment (s s' : State) (base n : Nat) : Prop where
  hash : s.params.hash = s'.params.hash
  bytes : ∀ a, base ≤ a → a < base + n → cellGet s.inMem a = cellGet s'.inMem a

section
variable {s s' : State} {base n : Nat} (h : SameFragment s s' base n)
include h

theorem SameFragment.load32 {a : Nat} (hlo : base ≤ a) (hhi : a + 4 ≤ base + n) : load32 s a = load32 s' a := by
  unfold Machine.load32 readInRange
  rw [cellRange_eq, cellRange_eq]
  congr 1
  refine List.ext_getElem (by simp) fun j hj _ => ?_
  rw [bytesFrom_length] at hj
  rw [bytesFrom_getElem, bytesFrom_getElem]
  exact h.bytes _ (by omega) (by omega)

theorem SameFragment.matchLength (left : Nat) {p q : Nat} (hp : base ≤ p) (hpq : p ≤ q) (hq : q + left ≤ base + n) :
    matchLength s left p q = matchLength s' left p q := by
  induction left generalizing p q with
  | zero => rfl
  | succ left ih =>
    have hb {a : Nat} (hlo : base ≤ a) (hhi : a < base + n) : readIn s a = readIn s' a := h.bytes a hlo hhi
    rw [Machine.matchLength, Machine.matchLength, hb hp (by omega), hb (Nat.le_trans hp hpq) (by omega),
      ih (by omega) (by omega) (by omega)]

end

/-- Two passes at the same place, their tables the same in the entries in use. -/
structure SamePass (tbits : Nat) (m m' : MatchPass) : Prop where
  events : m.events = m'.events
  ip : m.ip = m'.ip
  nextEmit : m.nextEmit = m'.nextEmit
  skip : m.skip = m'.skip
  table : ∀ h, h < 2 ^ tbits → cellGet m.ht h = cellGet m'.ht h

theorem sameTable_probe {m m' : Cells 16} {tbits h : Nat} {v : BitVec 16}
    (ht : ∀ k, k < 2 ^ tbits → cellGet m k = cellGet m' k) :
    ∀ k, k < 2 ^ tbits → cellGet (cellSet m h v) k = cellGet (cellSet m' h v) k := fun k hk => by
  rw [cellGet_set, cellGet_set, ht k hk]

theorem matchLoop_samePass {s s' : State} {base n tbits : Nat} (hs : SameFragment s s' base n) (hbits : tbits ≤ 14)
    (fuel : Nat) {m m' : MatchPass} (hm : SamePass tbits m m') (hskip : 32 ≤ m.skip)
    (hbelow : ∀ h, h < 2 ^ tbits → (cellGet m.ht h).toNat < m.ip) :
    SamePass tbits (matchLoop s base n tbits fuel m) (matchLoop s' base n tbits fuel m') := by
  induction fuel generalizing m m' with
  | zero => exact hm
  | succ fuel ih =>
    obtain ⟨hevents, hip, hnext, hskip', htable⟩ := hm
    simp only [matchLoop, Config.tailGuard, ← hip, ← hevents, ← hnext, ← hskip', ← hs.hash]
    split
    case isFalse => exact ⟨hevents, hip, hnext, hskip', htable⟩
    case isTrue htail =>
      have hword := hs.load32 (a := base + m.ip) (by omega) (by omega)
      have hhash : hashWord s.params.hash (load32 s' (base + m.ip)) tbits < 2 ^ tbits := hashWord_lt _ _ _ (by omega)
      have hcand := hbelow _ hhash
      rw [hword, ← htable _ hhash,
        hs.load32 (a := base + (cellGet m.ht (hashWord s.params.hash (load32 s' (base + m.ip)) tbits)).toNat)
          (by omega) (by omega)]
      split
      case isTrue =>
        have hlen := hs.matchLength (base + n - (base + m.ip + 4))
          (p := base + (cellGet m.ht (hashWord s.params.hash (load32 s' (base + m.ip)) tbits)).toNat + 4)
          (q := base + m.ip + 4) (by omega) (by omega) (by omega)
        simp only [findMatchLength, hlen]
        exact ih ⟨rfl, rfl, rfl, rfl, sameTable_probe htable⟩ le_rfl (table_after_probe hbelow (by simp only; omega))
      case isFalse =>
        have := skipStep_pos hskip
        exact ih ⟨rfl, rfl, rfl, rfl, sameTable_probe htable⟩ (by simp only; omega)
          (table_after_probe hbelow (by simp only; omega))

/-- The events of a fragment are a function of its bytes and the hash: the table starts from zeros
(42_hash_matcher.md R166). -/
theorem SameFragment.events {s s' : State} {base n : Nat} (h : SameFragment s s' base n) :
    (matchFragment s base n).events = (matchFragment s' base n).events := by
  have hpass := matchLoop_samePass h (tableBits_le n).2 n
    (m := ⟨[], Config.headGuard, 0, Config.skipInit, cellsFrom s.ht (2 ^ tableBits n)⟩)
    (m' := ⟨[], Config.headGuard, 0, Config.skipInit, cellsFrom s'.ht (2 ^ tableBits n)⟩)
    ⟨rfl, rfl, rfl, rfl, fun k hk => by rw [cellGet_from, cellGet_from, if_neg (by omega), if_neg (by omega)]⟩ le_rfl
    fun k hk => by
      rw [cellGet_from, if_neg (by omega)]
      exact Nat.zero_lt_succ 3
  simp only [matchFragment, hpass.events, hpass.nextEmit]

/-! ### The bytes of a fragment's events -/

theorem eventBytes_lit_congr {rd rd' : Nat → Byte} {base start len : Nat}
    (h : ∀ a, base + start ≤ a → a < base + start + len → rd a = rd' a) :
    eventBytes rd base (.lit start len) = eventBytes rd' base (.lit start len) := by
  simp only [eventBytes]
  congr 1
  refine List.ext_getElem (by simp) fun j hj _ => ?_
  rw [bytesFrom_length] at hj
  rw [bytesFrom_getElem, bytesFrom_getElem]
  exact h _ (by omega) (by omega)

section
variable {rd rd' : Nat → Byte} {base n : Nat} (h : ∀ a, base ≤ a → a < base + n → rd a = rd' a)
include h

theorem pendingLiteral_bytes_congr {p q : Nat} (hq : q ≤ n) :
    (pendingLiteral p q).flatMap (eventBytes rd base) = (pendingLiteral p q).flatMap (eventBytes rd' base) := by
  unfold pendingLiteral
  split
  · rw [List.flatMap_singleton, List.flatMap_singleton,
      eventBytes_lit_congr fun a hlo hhi => h a (by omega) (by omega)]
  · rfl

theorem Covers.bytes_congr {rd₀ : Nat → Byte} {es : List Event} {p : Nat} (hc : Covers rd₀ base n es p) :
    es.flatMap (eventBytes rd base) = es.flatMap (eventBytes rd' base) := by
  induction hc with
  | start => rfl
  | @round es p ip offset len _ _ hm ih =>
    have hip : ip ≤ n := Nat.le_trans (Nat.le_add_right ip 5) hm.tail
    rw [List.flatMap_append, List.flatMap_append, List.flatMap_append, List.flatMap_append, ih,
      pendingLiteral_bytes_congr h hip]
    rfl

theorem CoversFragment.bytes_congr {rd₀ : Nat → Byte} {es : List Event} (hc : CoversFragment rd₀ base n es) :
    es.flatMap (eventBytes rd base) = es.flatMap (eventBytes rd' base) := by
  obtain ⟨es, p, rfl, hc⟩ := hc
  rw [List.flatMap_append, List.flatMap_append, hc.bytes_congr h, pendingLiteral_bytes_congr h le_rfl]

end

/-- The tags a fragment of `IN` becomes (42_hash_matcher.md R170). -/
def fragmentTags (s : State) (base len : Nat) : List Byte :=
  (matchFragment s base len).events.flatMap (eventBytes (cellGet s.inMem) base)

theorem SameFragment.tags {s s' : State} {base n : Nat} (h : SameFragment s s' base n) :
    fragmentTags s base n = fragmentTags s' base n := by
  unfold fragmentTags
  rw [h.events]
  exact (matchFragment_covers s' base n).bytes_congr h.bytes

/-! ### The fragments of a frame -/

/-- The tags of fragment number `q` of an input of `n` bytes: 32768 bytes, the last fragment the remainder. -/
def frameFragment (s : State) (n q : Nat) : List Byte := fragmentTags s (q * 32768) (min 32768 (n - q * 32768))

theorem fragmentBytes_eq {s u : State} {n q : Nat} (hin : u.inMem = s.inMem) (hp : u.params = s.params)
    (hbase : u.ep.fragBase.toNat = q * 32768) (hn : u.ep.inLen.toNat = n) : fragmentBytes u = frameFragment s n q := by
  have hlen : fragLenAt u = min 32768 (n - q * 32768) := by rw [fragLenAt, hbase, hn, Nat.min_comm]
  have hsame : SameFragment (noteFragLen (fragLenAt u) u) s (q * 32768) (min 32768 (n - q * 32768)) :=
    ⟨congrArg Params.hash hp, fun a _ _ => congrArg (cellGet · a) hin⟩
  rw [fragmentBytes, hbase, frameFragment, ← hsame.tags, ← hlen]
  rfl

/-- From fragment number `q` on, the loop pushes the tags of the fragments that are left, in order. -/
theorem pushes_fragmentsFrom (s : State) (n count : Nat) {u : State} {q : Nat} (hin : u.inMem = s.inMem)
    (hp : u.params = s.params) (hbase : u.ep.fragBase.toNat = min n (q * 32768)) (hn : u.ep.inLen.toNat = n)
    (hcount : q + count = (n + 32767) / 32768) (fuel : Nat) (hfuel : count ≤ fuel) :
    Pushes ((List.range' q count).flatMap (frameFragment s n)) u (compressFragments fuel u) := by
  induction count generalizing u q fuel with
  | zero =>
    have hdone : ¬ u.ep.fragBase.toNat < u.ep.inLen.toNat := by omega
    have hstop : compressFragments fuel u = u := by
      cases fuel with
      | zero => rfl
      | succ fuel => rw [compressFragments, if_neg hdone]
    rw [hstop]
    constructor <;> simp
  | succ count ih =>
    obtain ⟨fuel, rfl⟩ : ∃ k, fuel = k + 1 := ⟨fuel - 1, by omega⟩
    have hbase' : u.ep.fragBase.toNat = q * 32768 := by omega
    have hpush := pushes_compressFragment u
    have hnext := compressFragment_fragBase (s := u) (by omega)
    have hlen : fragLenAt u = min (n - q * 32768) 32768 := by rw [fragLenAt, hbase', hn]
    rw [fragmentBytes_eq hin hp hbase' hn] at hpush
    rw [compressFragments, if_pos (by omega), List.range'_succ, List.flatMap_cons]
    exact hpush.trans (ih (hpush.inMem.trans hin) (hpush.params.trans hp) (by rw [hnext, hbase', hlen]; omega)
      (by rw [hpush.inLen, hn]) (by omega) fuel (by omega))

/-- The frame that `COMPRESS` of `n` bytes pushes. -/
def compressedFrame (s : State) (n : Nat) : List Byte :=
  varintEncode n ++ (List.range ((n + 32767) / 32768)).flatMap (frameFragment s n)

theorem pushes_compressedFrame {n : Nat} (s : State) (h : n < 2 ^ 32) :
    Pushes (compressedFrame s n) (startCompress n (beginCommand 8#4 s)) (compressFrame n (beginCommand 8#4 s)) := by
  have hvarint := pushes_pushVarint n (startCompress n (beginCommand 8#4 s))
  have hin : (pushVarint n (startCompress n (beginCommand 8#4 s))).ep.inLen.toNat = n := by
    rw [hvarint.inLen, startCompress_ep]
    exact toNat_ofNat_of_lt h
  have hfrags := pushes_fragmentsFrom s n ((n + 32767) / 32768) (q := 0) hvarint.inMem hvarint.params
    (show (0 : BitVec 32).toNat = min n (0 * 32768) by simp) hin (Nat.zero_add _) (n / Config.encFragment + 1)
    (by simp only [Config.encFragment]; omega)
  rw [compressedFrame, List.range_eq_range']
  exact hvarint.trans hfrags

/-- Settles O35: the preamble, then the fragment loop from the first fragment on. -/
theorem compressPushesPreambleAndFragments : Obligations.CompressPushesPreambleAndFragments := by
  intro s h
  have hpush := pushes_compressedFrame s h
  have hhost : HostKept s (completePushed (compressFrame s.cmd.a0 (beginCommand 8#4 s))) :=
    noInstructionWritesWhatTheHostOwns .compress s _ (exec_compress h)
  exact ⟨_, exec_compress h, by rw [completePushed_cmd, hpush.cmd]; rfl, hpush.sink, hpush.rsp_from_zero rfl, hhost,
    (pushRun_compress s).decoderKept⟩

/-- The length of a frame fits its register whole, whatever the parameters (43_lz_encoder.md R196). -/
theorem compressedFrame_length_lt {s : State} (h : s.cmd.a0 < 2 ^ 32) :
    (compressedFrame s s.cmd.a0).length < 2 ^ 33 := by
  obtain ⟨t, bs, hexec, hsink, -, htags⟩ := compress_pushes h
  cases (exec_compress h).symm.trans hexec
  have hframe : compressedFrame s s.cmd.a0 = varintEncode s.cmd.a0 ++ bs :=
    List.append_cancel_left ((pushes_compressedFrame s h).sink.symm.trans hsink)
  have hvarint : (varintEncode s.cmd.a0).length ≤ 5 := (varintBytes_length 4 s.cmd.a0).2
  have hbound := htags.length_bound
  rw [hframe, List.length_append]
  omega

theorem compressedFrame_congr {s s' : State} {n : Nat} (hhash : s.params.hash = s'.params.hash)
    (hin : ∀ a, a < n → cellGet s.inMem a = cellGet s'.inMem a) : compressedFrame s n = compressedFrame s' n := by
  have hfrag (q : Nat) : frameFragment s n q = frameFragment s' n q :=
    SameFragment.tags ⟨hhash, fun a _ ha => hin a (by omega)⟩
  rw [compressedFrame, compressedFrame, funext hfrag]

/-- Settles O36: each fragment's tags are a function of its bytes and the hash. -/
theorem compressDependsOnItsInputAlone : Obligations.CompressDependsOnItsInputAlone := by
  intro s s' hhash ha0 h hin
  have hpush := pushes_compressedFrame s h
  have hpush' := pushes_compressedFrame (n := s.cmd.a0) s' h
  have hlt := compressedFrame_length_lt h
  rw [← compressedFrame_congr hhash hin] at hpush'
  have hexec' : exec .compress s' = .next (completePushed (compressFrame s.cmd.a0 (beginCommand 8#4 s'))) := by
    rw [ha0] at h ⊢
    exact exec_compress h
  refine ⟨_, _, _, exec_compress h, hexec', hpush.sink, hpush'.sink, ?_⟩
  rw [hpush.rsp_from_zero rfl, hpush'.rsp_from_zero rfl, toPos_small hlt, toPos_small hlt]

end Sys2Proof.Machine
end

section
/-! No command depends on what an earlier one left (10_state.md R33, 70_reset_and_hazards.md R293). -/

namespace Sys2Proof.Machine

/-- Two states with the same constants, arguments and bytes of `IN` and `FRAME`: all that a command may depend on. -/
structure SameInputs (s s' : State) : Prop where
  params : s.params = s'.params
  a0 : s.cmd.a0 = s'.cmd.a0
  a1 : s.cmd.a1 = s'.cmd.a1
  a2 : s.cmd.a2 = s'.cmd.a2
  inMem : cellGet s.inMem = cellGet s'.inMem
  frame : cellGet s.frame = cellGet s'.frame

theorem SameInputs.cmd {s s' : State} (h : SameInputs s s') (op : BitVec 4) :
    (beginCommand op s).cmd = (beginCommand op s').cmd := cmdRegs_eq rfl h.a0 h.a1 h.a2

theorem SameInputs.fragment {s s' : State} (h : SameInputs s s') (op : BitVec 4) (base n : Nat) :
    SameFragment (clearCount (beginCommand op s)) (clearCount (beginCommand op s')) base n :=
  ⟨congrArg Params.hash h.params, fun a _ _ => congrFun h.inMem a⟩

/-- The command starts and completes with the response, and pushes the bytes. -/
def RespondsWith (i : Instr) (s : State) (rsp : RspRegs) (bs : List Byte) : Prop :=
  ∃ s₀ t, exec i s = .next s₀ ∧ Completes s₀ t ∧ t.rsp = rsp ∧ t.sink = s.sink ++ bs

/-- From states with the same inputs a command responds with and pushes the same. -/
def Repeats (i : Instr) : Prop :=
  ∀ s s', s.rst = false → s'.rst = false → SameInputs s s' → ∃ rsp bs, RespondsWith i s rsp bs ∧ RespondsWith i s' rsp bs

/-- The response of a command that is turned away (10_state.md R24 (c)). -/
def badResponse : RspRegs := ⟨statusBadCommand, 0, 0, 0, 0, 0⟩

theorem respondsWith_bad {i : Instr} {s : State} {op : BitVec 4}
    (h : exec i s = .next (completeBadCommand (beginCommand op s))) : RespondsWith i s badResponse [] :=
  ⟨_, _, h, .here (by simp [busy, statusBadCommand]), rfl, (List.append_nil _).symm⟩

theorem repeats_reserved {i : Instr} {op : BitVec 4}
    (h : ∀ s, exec i s = .next (completeBadCommand (beginCommand op s))) : Repeats i := fun s s' _ _ _ =>
  ⟨_, _, respondsWith_bad (h s), respondsWith_bad (h s')⟩

/-! ### Commands that push -/

/-- A command that checks its arguments pushes the bytes and returns their number, or is turned away. -/
def PushesIf (i : Instr) (s : State) (p : Params) (args : Bool) (bs : List Byte) : Prop :=
  RespondsWith i s (if args then ⟨statusDone, 0, toPos p bs.length, 0, 0, 0⟩ else badResponse) (if args then bs else [])

theorem pushesIf_of_pushes {i : Instr} {s u : State} {op : BitVec 4} {ep : EncoderRegs} {bs : List Byte} {args : Bool}
    (hexec : exec i s = if args then .next (completePushed u) else .next (completeBadCommand (beginCommand op s)))
    (hpush : Pushes bs { beginCommand op s with ep := ep } u) (h0 : ep.count = 0) : PushesIf i s s.params args bs := by
  cases args with
  | false => exact respondsWith_bad hexec
  | true => exact ⟨_, _, hexec, .here (busy_completeNormal ..), hpush.rsp_from_zero h0, hpush.sink⟩

theorem repeats_of_pushesIf {i : Instr} {s s' : State} {p : Params} {args : Bool} {bs : List Byte}
    (h : PushesIf i s p args bs) (h' : PushesIf i s' p args bs) :
    ∃ rsp bs, RespondsWith i s rsp bs ∧ RespondsWith i s' rsp bs := ⟨_, _, h, h'⟩

theorem varintEnc_pushesIf (s : State) :
    PushesIf .varintEnc s s.params (varintEncArgs (beginCommand 1#4 s).cmd) (varintEncode s.cmd.a0) :=
  pushesIf_of_pushes rfl (pushes_pushVarint s.cmd.a0 (clearCount (beginCommand 1#4 s))) rfl

theorem emitLit_pushesIf (s : State) :
    PushesIf .emitLit s s.params (emitLitArgs (beginCommand 3#4 s).cmd)
      (literalHeader s.cmd.a0 ++ bytesFrom (cellGet s.inMem) s.cmd.a1 s.cmd.a0) :=
  pushesIf_of_pushes rfl (pushes_emitLiteral s.cmd.a0 s.cmd.a1 (clearCount (beginCommand 3#4 s))) rfl

theorem emitCopy_pushesIf (s : State) :
    PushesIf .emitCopy s s.params (emitCopyArgs (beginCommand 4#4 s).cmd) (copyBytes s.cmd.a0 s.cmd.a1) :=
  pushesIf_of_pushes rfl (pushes_emitCopy s.cmd.a0 s.cmd.a1 (clearCount (beginCommand 4#4 s))) rfl

theorem matchFrag_pushesIf (s : State) :
    PushesIf .matchFrag s s.params (matchFragArgs (beginCommand 7#4 s).cmd)
      (fragmentTags (clearCount (beginCommand 7#4 s)) s.cmd.a0 s.cmd.a1) :=
  pushesIf_of_pushes rfl (pushes_emitFragment s.cmd.a0 s.cmd.a1 (clearCount (beginCommand 7#4 s))) rfl

theorem repeats_varintEnc : Repeats .varintEnc := fun s s' _ _ h => by
  have h' := varintEnc_pushesIf s'
  rw [← h.cmd, ← h.params, ← h.a0] at h'
  exact repeats_of_pushesIf (varintEnc_pushesIf s) h'

theorem repeats_emitLit : Repeats .emitLit := fun s s' _ _ h => by
  have h' := emitLit_pushesIf s'
  rw [← h.cmd, ← h.params, ← h.a0, ← h.a1, ← h.inMem] at h'
  exact repeats_of_pushesIf (emitLit_pushesIf s) h'

theorem repeats_emitCopy : Repeats .emitCopy := fun s s' _ _ h => by
  have h' := emitCopy_pushesIf s'
  rw [← h.cmd, ← h.params, ← h.a0, ← h.a1] at h'
  exact repeats_of_pushesIf (emitCopy_pushesIf s) h'

theorem repeats_matchFrag : Repeats .matchFrag := fun s s' _ _ h => by
  have h' := matchFrag_pushesIf s'
  rw [← h.cmd, ← h.params, ← h.a0, ← h.a1, ← (h.fragment 7#4 _ _).tags] at h'
  exact repeats_of_pushesIf (matchFrag_pushesIf s) h'

theorem exec_compress_bad {s : State} (h : 2 ^ 32 ≤ s.cmd.a0) :
    exec .compress s = .next (completeBadCommand (beginCommand 8#4 s)) :=
  if_neg (mt (compressArgs_iff s.cmd).1 (Nat.not_lt.2 h))

theorem repeats_compress : Repeats .compress := fun s s' _ _ h => by
  rcases Nat.lt_or_ge s.cmd.a0 (2 ^ 32) with h32 | h32
  · obtain ⟨t, t', bs, hexec, hexec', hsink, hsink', hrsp⟩ := compressDependsOnItsInputAlone s s'
      (congrArg Params.hash h.params) h.a0 h32 fun a _ => congrFun h.inMem a
    have hidle {s t : State} (h32 : s.cmd.a0 < 2 ^ 32) (hexec : exec .compress s = .next t) : Completes t t := by
      cases (exec_compress h32).symm.trans hexec
      exact .here (busy_completeNormal ..)
    exact ⟨_, bs, ⟨_, _, hexec, hidle h32 hexec, rfl, hsink⟩, ⟨_, _, hexec', hidle (h.a0 ▸ h32) hexec', hrsp.symm, hsink'⟩⟩
  · exact ⟨_, _, respondsWith_bad (exec_compress_bad h32), respondsWith_bad (exec_compress_bad (h.a0 ▸ h32))⟩

/-! ### Commands that return at once -/

/-- A command that checks its arguments and then returns one number. -/
theorem respondsWith_returned {i : Instr} {s : State} {op : BitVec 4} {r0 : Nat} {args : Bool}
    (hexec : exec i s = if args then .next (completeNormal r0 0 0 0 (beginCommand op s))
      else .next (completeBadCommand (beginCommand op s))) :
    RespondsWith i s (if args then ⟨statusDone, 0, toPos s.params r0, 0, 0, 0⟩ else badResponse) [] := by
  cases args with
  | false => exact respondsWith_bad hexec
  | true => exact ⟨_, _, hexec, .here (busy_completeNormal ..), by simp, (List.append_nil _).symm⟩

theorem matchLength_congr {s s' : State} (h : cellGet s.inMem = cellGet s'.inMem) (left p q : Nat) :
    matchLength s left p q = matchLength s' left p q := by
  induction left generalizing p q with
  | zero => rfl
  | succ left ih =>
    have hread : readIn s = readIn s' := h
    rw [matchLength, matchLength, ih, hread]

theorem repeats_findMatchLen : Repeats .findMatchLen := fun s s' _ _ h => by
  have h1 := respondsWith_returned (i := .findMatchLen) (s := s) rfl
  have h2 := respondsWith_returned (i := .findMatchLen) (s := s') rfl
  rw [← h.cmd, ← h.params, findMatchLength,
    ← matchLength_congr (s := beginCommand 6#4 s) (s' := beginCommand 6#4 s') h.inMem] at h2
  exact ⟨_, _, h1, h2⟩

theorem repeats_maxClen : Repeats .maxClen := fun s s' _ _ h => by
  have h1 := respondsWith_returned (i := .maxClen) (s := s) rfl
  have h2 := respondsWith_returned (i := .maxClen) (s := s') rfl
  rw [← h.cmd, ← h.params] at h2
  exact ⟨_, _, h1, h2⟩

/-! ### TAG_PARSE -/

/-- The response of `TAG_PARSE`, from what `TagParse` finds (41_tag_codec.md R141). -/
def tagResponse (p : Params) : Option TagFields → RspRegs
  | some f => ⟨statusDone, 0, toPos p f.kind, toPos p f.len, toPos p f.off, toPos p f.hdr⟩
  | none => ⟨statusMalformed, causeCode .tagTruncated, 0, 0, 0, 0⟩

theorem respondsWith_tagParse {s : State} (h : s.cmd.a0 ≤ s.cmd.a1) :
    RespondsWith .tagParse s (tagResponse s.params (parseTag (cellGet s.frame) s.cmd.a0 s.cmd.a1)) [] := by
  obtain ⟨hparse, T, hfetch⟩ | ⟨i, f, hparse, hfetch, hf, -⟩ :=
    fetchTag_of_parseTag (beginCommand 5#4 s) s.cmd.a0 s.cmd.a1
  all_goals rw [beginCommand_frame] at hparse; rw [hparse]
  · have hraised := raised_noteKind .tagTruncated T (beginCommand 5#4 s)
    exact ⟨_, _, exec_tagParse_of_cut h hfetch, .here hraised.not_busy, hraised.rsp, by simp⟩
  · exact ⟨_, _, exec_tagParse_of_fetch h hfetch hf, .here (busy_completeNormal ..), rfl, (List.append_nil _).symm⟩

theorem exec_range_bad {s : State} (h : ¬ s.cmd.a0 ≤ s.cmd.a1) :
    exec .tagParse s = .next (completeBadCommand (beginCommand 5#4 s)) ∧
      exec .varintDec s = .next (completeBadCommand (beginCommand 2#4 s)) :=
  ⟨if_neg (mt (rangeArgs_iff _).1 h), if_neg (mt (rangeArgs_iff _).1 h)⟩

theorem repeats_tagParse : Repeats .tagParse := fun s s' _ _ h => by
  by_cases hrange : s.cmd.a0 ≤ s.cmd.a1
  · have h2 := respondsWith_tagParse (s := s') (by rwa [← h.a0, ← h.a1])
    rw [← h.a0, ← h.a1, ← h.params, ← h.frame] at h2
    exact ⟨_, _, respondsWith_tagParse hrange, h2⟩
  · exact ⟨_, _, respondsWith_bad (exec_range_bad hrange).1,
      respondsWith_bad (exec_range_bad (s := s') (by rwa [← h.a0, ← h.a1])).1⟩

/-! ### Commands that fetch -/

theorem respondsWith_of_encoderKept {i : Instr} {s s₀ t : State} {rsp : RspRegs} (hexec : exec i s = .next s₀)
    (hcomp : Completes s₀ t) (hrsp : t.rsp = rsp) (hkept : EncoderKept s t) : RespondsWith i s rsp [] :=
  ⟨s₀, t, hexec, hcomp, hrsp, by rw [hkept.sink, List.append_nil]⟩

theorem repeats_varintDec : Repeats .varintDec := fun s s' hr hr' h => by
  by_cases hrange : s.cmd.a0 ≤ s.cmd.a1
  · obtain ⟨_, _, hexec, hcomp, hrsp, -, hkept, -⟩ := varintDecCompletesWithTheDecodedValue s hr hrange
    obtain ⟨_, _, hexec', hcomp', hrsp', -, hkept', -⟩ :=
      varintDecCompletesWithTheDecodedValue s' hr' (by rwa [← h.a0, ← h.a1])
    rw [← h.a0, ← h.a1, ← h.frame] at hrsp'
    exact ⟨_, _, respondsWith_of_encoderKept hexec hcomp hrsp hkept, respondsWith_of_encoderKept hexec' hcomp' hrsp' hkept'⟩
  · exact ⟨_, _, respondsWith_bad (exec_range_bad hrange).2,
      respondsWith_bad (exec_range_bad (s := s') (by rwa [← h.a0, ← h.a1])).2⟩

theorem repeats_getUlen : Repeats .getUlen := fun s s' hr hr' h => by
  obtain ⟨_, _, hexec, hcomp, hrsp, -, -, hkept, -⟩ := getUlenCompletesWithTheLength s hr
  obtain ⟨_, _, hexec', hcomp', hrsp', -, -, hkept', -⟩ := getUlenCompletesWithTheLength s' hr'
  rw [← h.a0, ← h.frame] at hrsp'
  exact ⟨_, _, respondsWith_of_encoderKept hexec hcomp hrsp hkept, respondsWith_of_encoderKept hexec' hcomp' hrsp' hkept'⟩

theorem respondsWith_walk (u : WalkUnit) {s : State} (hr : s.rst = false) :
    RespondsWith (walkCommand u) s
      (walkResponse u (walk (cellGet s.frame) s.cmd.a0 s.params.maxOutputLen.toNat)) [] := by
  obtain ⟨t, hcomp, hrsp⟩ := walkStart_endsAs u hr
  have hstart := exec_walkCommand u s
  obtain ⟨hhost, hencoder⟩ := start_kept (by cases u <;> rfl) (by cases u <;> decide) hstart
  exact respondsWith_of_encoderKept hstart hcomp hrsp (hencoder.trans (hcomp.fetchKept (hhost.rst.trans hr)).encoder)

theorem repeats_walk (u : WalkUnit) : Repeats (walkCommand u) := fun s s' hr hr' h => by
  have h2 := respondsWith_walk u hr'
  rw [← h.a0, ← h.frame, ← h.params] at h2
  exact ⟨_, _, respondsWith_walk u hr, h2⟩

/-! ### Every command -/

theorem repeats_command : ∀ {i : Instr}, contextOf i = .command → Repeats i
  | .varintEnc, _ => repeats_varintEnc
  | .varintDec, _ => repeats_varintDec
  | .emitLit, _ => repeats_emitLit
  | .emitCopy, _ => repeats_emitCopy
  | .tagParse, _ => repeats_tagParse
  | .findMatchLen, _ => repeats_findMatchLen
  | .matchFrag, _ => repeats_matchFrag
  | .compress, _ => repeats_compress
  | .maxClen, _ => repeats_maxClen
  | .uncompress, _ => repeats_walk .dp
  | .getUlen, _ => repeats_getUlen
  | .isValid, _ => repeats_walk .fv
  | .reserved0, _ => repeats_reserved (op := 0#4) fun _ => rfl
  | .reserved13, _ => repeats_reserved (op := 13#4) fun _ => rfl
  | .reserved14, _ => repeats_reserved (op := 14#4) fun _ => rfl
  | .reserved15, _ => repeats_reserved (op := 15#4) fun _ => rfl

/-- Settles O54: one lemma for each command. -/
theorem commandsDependOnNothingLeftBehind : Obligations.CommandsDependOnNothingLeftBehind := by
  intro op s s' hr hr' hparams h0 h1 h2 hin hframe
  have hsame : SameInputs s s' := ⟨hparams, h0, h1, h2, funext fun a => (hin a).symm, funext fun a => (hframe a).symm⟩
  obtain ⟨rsp, bs, ⟨s₀, t, hexec, hcomp, hrsp, hsink⟩, ⟨s₀', t', hexec', hcomp', hrsp', hsink'⟩⟩ :=
    repeats_command (encode_decodeOp op).2.1 s s' hr hr' hsame
  exact ⟨s₀, t, s₀', t', bs, hexec, hcomp, hexec', hcomp', hrsp.trans hrsp'.symm, hsink, hsink'⟩

end Sys2Proof.Machine
end
